-- ==== Sys2Proof/Word.lean ====
section
/-! DEFINITION. The value types of HXC-RTQ: bytes, nibbles, the transport's answers and the status code (R10, R11, R85). -/

namespace Sys2Proof

/-- One byte: a wire character, a payload byte, or an 8-bit register (R10, R55). -/
abbrev Byte := BitVec 8

/-- One hex digit's value (R22, R71). -/
abbrev Nibble := BitVec 4

/-- A status code: 4 bits (R85). -/
abbrev Status := BitVec 4

/-- The transport's answer to one offered byte (R11, R12). -/
inductive Answer where
  | ok
  | fail
  deriving DecidableEq, Repr, Inhabited

end Sys2Proof
end

