-- ==== Sys2Proof/Config.lean ====
section
/-! DEFINITION. The parameters of an instance (R6, R7, R9) and the free values (R12, R230, R233). -/

namespace Sys2Proof

/-- The parameters the source leaves open (R7). An instance's parameters never change; State holds them, so that a
statement about every state is a statement about every configuration (R9). R8's constraints are `Machine.configOk`. -/
structure Config where
  /-- SOF_BYTE -/
  sofByte : Byte
  /-- ACK_BYTE -/
  ackByte : Byte
  /-- NAK_BYTE -/
  nakByte : Byte
  /-- MAX_FRAME: the largest length-field value, and the capacity of the receive buffer -/
  maxFrame : Nat
  /-- QCAP_LOG2 -/
  qcapLog2 : Nat
  /-- TIME_W -/
  timeW : Nat
  /-- TIMEOUT_TICKS -/
  timeoutTicks : Nat
  /-- ATT_W -/
  attW : Nat
  /-- TAG_W -/
  tagW : Nat
  /-- CTX_W -/
  ctxW : Nat
  deriving DecidableEq, Repr

/-- MAX_PAYLOAD = MAX_FRAME - 1 (R7, D4). -/
def Config.maxPayload (c : Config) : Nat := c.maxFrame - 1

/-- QCAP = 2^QCAP_LOG2 (R7). -/
def Config.qcap (c : Config) : Nat := 2 ^ c.qcapLog2

/-- The reference configuration of R9. DESIGN CHOICE: the instance that State.reset is (log 2); unsafe, since R9 forbids
a claim to rest on these values. -/
def Config.reference : Config where
  sofByte := 0x0A#8
  ackByte := 0x06#8
  nakByte := 0x15#8
  maxFrame := 64
  qcapLog2 := 3
  timeW := 32
  timeoutTicks := 1
  attW := 8
  tagW := 16
  ctxW := 16

/-- Free bytes: the unspecified contents of the arrays and 8-bit registers after an initialisation (R233, U2). -/
opaque Config.freeByte : Nat → Byte

/-- Free numbers, cut to a field's width where one is written: unspecified slot fields and S.nib_val (R233, U2). -/
opaque Config.freeNumber : Nat → Nat

/-- The transport's answer where no answer is listed (R12, U11). -/
opaque Config.freeAnswer : Nat → Answer

/-- The consumer's status where none is listed (R12, R144, U12). -/
opaque Config.freeStatus : Nat → Status

end Sys2Proof
end

