-- ==== Sys2Proof/Syntax.lean ====
section
/-! DEFINITION. The instructions (one constructor per row of spec/opcode_table.json), the classes of an inbound byte
(R79), and the forms in which a command reaches the block (R81, R212). -/

namespace Sys2Proof

/-- HANDLE's input (R87): OUT_ACK, OUT_NAK, OUT_TIMEOUT. -/
inductive HandshakeOutcome where
  | outAck
  | outNak
  | outTimeout
  deriving DecidableEq, Repr

/-- One constructor per row of the opcode table. The payload of SEND and SUBMIT carries its own length, which is imm8
(R83); `now`, `tag` and `ctx` are numbers (R81). -/
inductive Instr where
  /-- CODEC_INIT (R100). -/
  | codecInit
  /-- FEED b (R130). -/
  | feed (b : Byte)
  /-- READINESS now (R150). -/
  | readiness (now : Nat)
  /-- SEND payload now (R102). -/
  | send (payload : List Byte) (now : Nat)
  /-- RESEND now (R110). -/
  | resend (now : Nat)
  /-- QUEUE_INIT (R170). -/
  | queueInit
  /-- SUBMIT payload tag ctx now (R171). -/
  | submit (payload : List Byte) (tag ctx now : Nat)
  /-- UPDATE now (R175). -/
  | update (now : Nat)
  /-- RESERVED: a header that R84 refuses. -/
  | reserved (header : BitVec 16)
  /-- HANDLE o: the internal procedure of R180; it has no opcode. -/
  | handle (o : HandshakeOutcome)
  /-- DRAIN now: the internal procedure of R176; it has no opcode. -/
  | drain (now : Nat)
  /-- SOF: FEED of SOF_BYTE (R131). -/
  | sof
  /-- ACK: FEED of ACK_BYTE (R132). -/
  | ack
  /-- NAK: FEED of NAK_BYTE (R133). -/
  | nak
  /-- JUNK_IDLE: FEED of any other byte in IDLE (R135). -/
  | junkIdle (b : Byte)
  /-- HEX_DIGIT_'0': FEED of the byte 0x30 (R79, R137 to R141). -/
  | hexDigit0
  /-- HEX_DIGIT_'1': FEED of the byte 0x31 (R79, R137 to R141). -/
  | hexDigit1
  /-- HEX_DIGIT_'2': FEED of the byte 0x32 (R79, R137 to R141). -/
  | hexDigit2
  /-- HEX_DIGIT_'3': FEED of the byte 0x33 (R79, R137 to R141). -/
  | hexDigit3
  /-- HEX_DIGIT_'4': FEED of the byte 0x34 (R79, R137 to R141). -/
  | hexDigit4
  /-- HEX_DIGIT_'5': FEED of the byte 0x35 (R79, R137 to R141). -/
  | hexDigit5
  /-- HEX_DIGIT_'6': FEED of the byte 0x36 (R79, R137 to R141). -/
  | hexDigit6
  /-- HEX_DIGIT_'7': FEED of the byte 0x37 (R79, R137 to R141). -/
  | hexDigit7
  /-- HEX_DIGIT_'8': FEED of the byte 0x38 (R79, R137 to R141). -/
  | hexDigit8
  /-- HEX_DIGIT_'9': FEED of the byte 0x39 (R79, R137 to R141). -/
  | hexDigit9
  /-- HEX_DIGIT_'A': FEED of the byte 0x41 (R79, R137 to R141). -/
  | hexDigitUpperA
  /-- HEX_DIGIT_'B': FEED of the byte 0x42 (R79, R137 to R141). -/
  | hexDigitUpperB
  /-- HEX_DIGIT_'C': FEED of the byte 0x43 (R79, R137 to R141). -/
  | hexDigitUpperC
  /-- HEX_DIGIT_'D': FEED of the byte 0x44 (R79, R137 to R141). -/
  | hexDigitUpperD
  /-- HEX_DIGIT_'E': FEED of the byte 0x45 (R79, R137 to R141). -/
  | hexDigitUpperE
  /-- HEX_DIGIT_'F': FEED of the byte 0x46 (R79, R137 to R141). -/
  | hexDigitUpperF
  /-- HEX_DIGIT_'a': FEED of the byte 0x61 (R79, R137 to R141). -/
  | hexDigitLowerA
  /-- HEX_DIGIT_'b': FEED of the byte 0x62 (R79, R137 to R141). -/
  | hexDigitLowerB
  /-- HEX_DIGIT_'c': FEED of the byte 0x63 (R79, R137 to R141). -/
  | hexDigitLowerC
  /-- HEX_DIGIT_'d': FEED of the byte 0x64 (R79, R137 to R141). -/
  | hexDigitLowerD
  /-- HEX_DIGIT_'e': FEED of the byte 0x65 (R79, R137 to R141). -/
  | hexDigitLowerE
  /-- HEX_DIGIT_'f': FEED of the byte 0x66 (R79, R137 to R141). -/
  | hexDigitLowerF
  /-- JUNK_FRAME: FEED of a byte that is neither a control byte nor a hex digit, mid-frame (R136). -/
  | junkFrame (b : Byte)
  deriving DecidableEq, Repr

/-- The classes of R79. -/
inductive ByteClass where
  | sof
  | ack
  | nak
  | junkIdle
  | hex (d : Nibble)
  | junkFrame
  deriving DecidableEq, Repr

/-- What reaches the block from the host. -/
inductive Arrival where
  /-- A command: its header and operand fields as one bit string, high bits first (R81, R88; log 7). -/
  | command (bits : List Bool)
  /-- An inbound byte the host passes in with FEED, read through FEED's decode table (R5 (2), R79; log 9). -/
  | inbound (b : Byte)
  /-- A command that overlaps another one in time, or that a consumer or completion target issues during the command that
  called it (R212, R217 (d); log 12). -/
  | overlapping (bits : List Bool)
  deriving DecidableEq, Repr

/-- Why a bit string is no command's encoding (R81; log 8). -/
inductive DecodeError where
  /-- Fewer than 16 bits: no header. -/
  | truncatedHeader
  /-- Fewer bits than the operand fields of the header's opcode take. -/
  | truncatedOperands
  /-- More bits than the operand fields of the header's opcode take. -/
  | trailingBits
  deriving DecidableEq, Repr

end Sys2Proof
end

