-- ==== Sys2Proof/Decode.lean ====
section
/-! DEFINITION. The encodings of 30_encoding.md: hex-ASCII digits (R70, R71), FEED's decode table (R79), the command
port (R81 to R84) with its decoder and its encoder, and the reading of an opcode-table word. -/

namespace Sys2Proof

/-! ### Hex-ASCII digits -/

/-- HexChar (R70): upper-case letters for 10 to 15 (D7). -/
def hexChar (d : Nibble) : Byte :=
  if d.toNat < 10 then 0x30#8 + d.setWidth 8 else 0x41#8 + (d.setWidth 8 - 10#8)

/-- HexVal (R71): both cases of a letter are digits (D8). -/
def hexVal (b : Byte) : Option Nibble :=
  if 0x30 ≤ b.toNat ∧ b.toNat ≤ 0x39 then some ((b - 0x30#8).setWidth 4)
  else if 0x41 ≤ b.toNat ∧ b.toNat ≤ 0x46 then some ((b - 0x37#8).setWidth 4)
  else if 0x61 ≤ b.toNat ∧ b.toNat ≤ 0x66 then some ((b - 0x57#8).setWidth 4)
  else none

/-- v[7:4] (R10). -/
def highNibble (v : Byte) : Nibble := v.extractLsb' 4 4

/-- v[3:0] (R10). -/
def lowNibble (v : Byte) : Nibble := v.extractLsb' 0 4

/-- HexHi(v), HexLo(v): the two characters of a byte on the wire, most-significant nibble first (R13, R72). -/
def hexPair (v : Byte) : List Byte := [hexChar (highNibble v), hexChar (lowNibble v)]

/-- The byte of two digits, the first one high (R72, R138). -/
def pairNibbles (hi lo : Nibble) : Byte := hi ++ lo

/-! ### FEED's decode table (R79) -/

/-- The class of an inbound byte, the first matching row of R79; `reading` says whether the phase is other than IDLE. -/
def classify (cfg : Config) (reading : Bool) (b : Byte) : ByteClass :=
  if b = cfg.sofByte then .sof
  else if b = cfg.ackByte then .ack
  else if b = cfg.nakByte then .nak
  else if reading = false then .junkIdle
  else match hexVal b with
    | some d => .hex d
    | none => .junkFrame

def hexRowsLowDigits : List (Byte × Instr) :=
  [(0x30#8, .hexDigit0), (0x31#8, .hexDigit1), (0x32#8, .hexDigit2), (0x33#8, .hexDigit3), (0x34#8, .hexDigit4)]

def hexRowsHighDigits : List (Byte × Instr) :=
  [(0x35#8, .hexDigit5), (0x36#8, .hexDigit6), (0x37#8, .hexDigit7), (0x38#8, .hexDigit8), (0x39#8, .hexDigit9)]

def hexRowsUpper : List (Byte × Instr) :=
  [(0x41#8, .hexDigitUpperA), (0x42#8, .hexDigitUpperB), (0x43#8, .hexDigitUpperC), (0x44#8, .hexDigitUpperD), (0x45#8, .hexDigitUpperE), (0x46#8, .hexDigitUpperF)]

def hexRowsLower : List (Byte × Instr) :=
  [(0x61#8, .hexDigitLowerA), (0x62#8, .hexDigitLowerB), (0x63#8, .hexDigitLowerC), (0x64#8, .hexDigitLowerD), (0x65#8, .hexDigitLowerE), (0x66#8, .hexDigitLowerF)]

/-- The 22 hex digit rows of the opcode table with their bytes. -/
def hexDigitRows : List (Byte × Instr) :=
  hexRowsLowDigits ++ hexRowsHighDigits ++ hexRowsUpper ++ hexRowsLower

/-- The opcode table's row for an inbound byte. -/
def decodeInbound (cfg : Config) (reading : Bool) (b : Byte) : Instr :=
  match classify cfg reading b with
  | .sof => .sof
  | .ack => .ack
  | .nak => .nak
  | .junkIdle => .junkIdle b
  | .hex _ => (hexDigitRows.lookup b).getD (.junkFrame b)
  | .junkFrame => .junkFrame b

/-! ### Bit strings, high bits first (R10, R88; log 7) -/

/-- The w-bit unsigned value v as a bit string. -/
def toBits : Nat → Nat → List Bool
  | 0, _ => []
  | w + 1, v => v.testBit w :: toBits w v

/-- The unsigned value of a bit string. -/
def ofBits (bits : List Bool) : Nat := bits.foldl (fun n b => 2 * n + b.toNat) 0

/-- n bytes as a bit string, first byte first. -/
def bytesToBits : List Byte → List Bool
  | [] => []
  | b :: bs => toBits 8 b.toNat ++ bytesToBits bs

/-- The first n bytes of a bit string. -/
def readBytes : Nat → List Bool → List Byte
  | 0, _ => []
  | n + 1, bits => BitVec.ofNat 8 (ofBits (bits.take 8)) :: readBytes n (bits.drop 8)

/-! ### The command header (R81) -/

/-- op, bits 15:12. -/
def headerOp (h : BitVec 16) : BitVec 4 := h.extractLsb' 12 4

/-- rsv, bits 11:8. -/
def headerRsv (h : BitVec 16) : BitVec 4 := h.extractLsb' 8 4

/-- imm8, bits 7:0. -/
def headerImm8 (h : BitVec 16) : Byte := h.extractLsb' 0 8

/-- The header of an opcode and an imm8, its rsv 0. -/
def makeHeader (op : BitVec 4) (imm8 : Byte) : BitVec 16 := op ++ (0#4 ++ imm8 : BitVec 12)

/-- The opcodes whose imm8 is an operand: FEED, SEND and SUBMIT (R82). -/
def usesImm8 (op : BitVec 4) : Bool := op == 1#4 || op == 3#4 || op == 6#4

/-- The headers R84 refuses: op 0x8..0xF, rsv not 0, or an unused imm8 not 0. -/
def reservedHeader (h : BitVec 16) : Bool :=
  decide (8 ≤ (headerOp h).toNat) || headerRsv h != 0#4 || (!usesImm8 (headerOp h) && headerImm8 h != 0#8)

/-- How many bits of operand fields follow the header (R81, R82). -/
def operandBits (cfg : Config) (h : BitVec 16) : Nat :=
  match (headerOp h).toNat with
  | 2 => cfg.timeW
  | 3 => 8 * (headerImm8 h).toNat + cfg.timeW
  | 4 => cfg.timeW
  | 6 => 8 * (headerImm8 h).toNat + (cfg.tagW + (cfg.ctxW + cfg.timeW))
  | 7 => cfg.timeW
  | _ => 0

/-! ### The decoder -/

/-- SUBMIT's operand fields after the payload: tag, ctx, now (R81). -/
def submitOperands (cfg : Config) (payload : List Byte) (bits : List Bool) : Instr :=
  .submit payload (ofBits (bits.take cfg.tagW)) (ofBits ((bits.drop cfg.tagW).take cfg.ctxW))
    (ofBits ((bits.drop cfg.tagW).drop cfg.ctxW))

/-- The command of a header R84 does not refuse, with its operand bits (R82, R83). -/
def operandForm (cfg : Config) (h : BitVec 16) (bits : List Bool) : Instr :=
  match (headerOp h).toNat with
  | 0 => .codecInit
  | 1 => .feed (headerImm8 h)
  | 2 => .readiness (ofBits bits)
  | 3 => .send (readBytes (headerImm8 h).toNat bits) (ofBits (bits.drop (8 * (headerImm8 h).toNat)))
  | 4 => .resend (ofBits bits)
  | 5 => .queueInit
  | 6 => submitOperands cfg (readBytes (headerImm8 h).toNat bits) (bits.drop (8 * (headerImm8 h).toNat))
  | 7 => .update (ofBits bits)
  | _ => .reserved h

/-- Decoding one command's bit string. It is total: a reserved header is the instruction RESERVED, whatever follows it;
a bit string that is no command's encoding is rejected by name. -/
def decodeCommand (cfg : Config) (bits : List Bool) : Except DecodeError Instr :=
  if bits.length < 16 then .error .truncatedHeader
  else if reservedHeader (BitVec.ofNat 16 (ofBits (bits.take 16))) then
    .ok (.reserved (BitVec.ofNat 16 (ofBits (bits.take 16))))
  else if (bits.drop 16).length < operandBits cfg (BitVec.ofNat 16 (ofBits (bits.take 16))) then
    .error .truncatedOperands
  else if operandBits cfg (BitVec.ofNat 16 (ofBits (bits.take 16))) < (bits.drop 16).length then
    .error .trailingBits
  else .ok (operandForm cfg (BitVec.ofNat 16 (ofBits (bits.take 16))) (bits.drop 16))

/-- Decoding what arrives: a command's bit string by the command port, an inbound byte by FEED's table. An overlapping
command is refused before it is decoded (R212), so only its form matters here. -/
def decode (cfg : Config) (reading : Bool) : Arrival → Except DecodeError Instr
  | .command bits => decodeCommand cfg bits
  | .inbound b => .ok (decodeInbound cfg reading b)
  | .overlapping bits => decodeCommand cfg bits

/-! ### The encoder -/

/-- A header as 16 bits, then operand bits. -/
def commandBits (op : BitVec 4) (imm8 : Byte) (operands : List Bool) : List Bool :=
  toBits 16 (makeHeader op imm8).toNat ++ operands

/-- imm8 of SEND and SUBMIT: the payload's length (R83). -/
def payloadImm8 (p : List Byte) : Byte := BitVec.ofNat 8 p.length

/-- The encoding of each instruction: a command's bit string (R81, R82, R88), a byte class's inbound byte (R79), none
for the internal procedures, which have no opcode (R82). RESERVED is encoded by its header alone. -/
def encode (cfg : Config) : Instr → Option Arrival
  | .codecInit => some (.command (commandBits 0#4 0#8 []))
  | .feed b => some (.command (commandBits 1#4 b []))
  | .readiness now => some (.command (commandBits 2#4 0#8 (toBits cfg.timeW now)))
  | .send p now => some (.command (commandBits 3#4 (payloadImm8 p) (bytesToBits p ++ toBits cfg.timeW now)))
  | .resend now => some (.command (commandBits 4#4 0#8 (toBits cfg.timeW now)))
  | .queueInit => some (.command (commandBits 5#4 0#8 []))
  | .submit p tag ctx now =>
    some (.command (commandBits 6#4 (payloadImm8 p)
      (bytesToBits p ++ (toBits cfg.tagW tag ++ (toBits cfg.ctxW ctx ++ toBits cfg.timeW now)))))
  | .update now => some (.command (commandBits 7#4 0#8 (toBits cfg.timeW now)))
  | .reserved h => some (.command (toBits 16 h.toNat))
  | .handle _ => none
  | .drain _ => none
  | .sof => some (.inbound cfg.sofByte)
  | .ack => some (.inbound cfg.ackByte)
  | .nak => some (.inbound cfg.nakByte)
  | .junkIdle b => some (.inbound b)
  | .hexDigit0 => some (.inbound 0x30#8)
  | .hexDigit1 => some (.inbound 0x31#8)
  | .hexDigit2 => some (.inbound 0x32#8)
  | .hexDigit3 => some (.inbound 0x33#8)
  | .hexDigit4 => some (.inbound 0x34#8)
  | .hexDigit5 => some (.inbound 0x35#8)
  | .hexDigit6 => some (.inbound 0x36#8)
  | .hexDigit7 => some (.inbound 0x37#8)
  | .hexDigit8 => some (.inbound 0x38#8)
  | .hexDigit9 => some (.inbound 0x39#8)
  | .hexDigitUpperA => some (.inbound 0x41#8)
  | .hexDigitUpperB => some (.inbound 0x42#8)
  | .hexDigitUpperC => some (.inbound 0x43#8)
  | .hexDigitUpperD => some (.inbound 0x44#8)
  | .hexDigitUpperE => some (.inbound 0x45#8)
  | .hexDigitUpperF => some (.inbound 0x46#8)
  | .hexDigitLowerA => some (.inbound 0x61#8)
  | .hexDigitLowerB => some (.inbound 0x62#8)
  | .hexDigitLowerC => some (.inbound 0x63#8)
  | .hexDigitLowerD => some (.inbound 0x64#8)
  | .hexDigitLowerE => some (.inbound 0x65#8)
  | .hexDigitLowerF => some (.inbound 0x66#8)
  | .junkFrame b => some (.inbound b)

/-! ### Opcode-table words -/

/-- What reaches the block for a word of the opcode table: a 16-bit word is a command header, followed by as many zero
operand bits as it takes; an 8-bit word is an inbound byte. No row has another width. -/
def tableArrival (cfg : Config) (nbits w : Nat) : Option Arrival :=
  if nbits = 16 then
    some (.command (toBits 16 w ++ List.replicate (operandBits cfg (BitVec.ofNat 16 w)) false))
  else if nbits = 8 then some (.inbound (BitVec.ofNat 8 w))
  else none

/-- Whether a table word's row belongs to the mid-frame phases (R79: a hex digit or JUNK_FRAME). -/
def tableWordMidFrame (cfg : Config) (nbits w : Nat) : Bool :=
  nbits == 8 && match classify cfg true (BitVec.ofNat 8 w) with
    | .hex _ => true
    | .junkFrame => true
    | _ => false

/-- The instruction an opcode-table word decodes to. The table's inbound bytes are those of the reference
configuration, read in the mid-frame phases, the only ones in which a hex digit is one (R79; log 9). -/
def decodeTableWord (nbits w : Nat) : Option Instr :=
  (tableArrival Config.reference nbits w).bind fun a => (decode Config.reference true a).toOption

end Sys2Proof
end

