-- ==== Sys2Proof/Machine/State.lean ====
section
/-! DEFINITION. The state of one HXC-RTQ instance (10_state.md), the reasons a step can stop, and the state at power-on. -/

namespace Sys2Proof.Machine

/-- S.hs, the tri-state of R27: PENDING = 0, ACKED = 1, NAKED = 2. `unused` is encoding 3, which no rule writes. -/
inductive Handshake where
  | pending
  | acked
  | naked
  | unused
  deriving DecidableEq, Repr

/-- READINESS's answer (R86): READY = 0, NEGATIVE = 1, BUSY = 2, TIMED_OUT = 3. -/
inductive Readiness where
  | ready
  | negative
  | busy
  | timedOut
  deriving DecidableEq, Repr

/-- The completion outcome of an entry (R87): ACKNOWLEDGED = 0, NEGATIVE_FINAL = 1, RETRIES_EXHAUSTED = 2. -/
inductive Completion where
  | acknowledged
  | negativeFinal
  | retriesExhausted
  deriving DecidableEq, Repr

/-- The output events (R11, R209). -/
inductive Event where
  /-- Tx(b, r): byte b offered to the transport, which answered r. Whether a failed byte reached the wire is open (R107). -/
  | tx (b : Byte) (r : Answer)
  /-- Deliver(p, s): a copy of payload p handed to the consumer, which returned s (R58, R144). -/
  | deliver (p : List Byte) (s : Status)
  /-- Complete(tag, ctx, o) (R182). -/
  | complete (tag ctx : Nat) (o : Completion)
  deriving DecidableEq, Repr

/-- A command's response (R82). -/
inductive Response where
  | status (code : Status)
  | readiness (r : Readiness)
  deriving DecidableEq, Repr

/-- The Link State (R21 to R30). -/
structure LinkState where
  /-- S.reading (R21) -/
  reading : Bool
  /-- S.nib_valid (R22) -/
  nibValid : Bool
  /-- S.nib_val (R22) -/
  nibVal : Nibble
  /-- S.frame_len, 0 for "unknown" (R23) -/
  frameLen : Byte
  /-- S.rx_count (R24) -/
  rxCount : Byte
  /-- S.rx_sum (R25) -/
  rxSum : Byte
  /-- S.rx_buf[0..MAX_FRAME-1] (R26) -/
  rxBuf : List Byte
  /-- S.hs (R27) -/
  hs : Handshake
  /-- S.sent_at, a TIME_W-bit number (R28) -/
  sentAt : Nat
  /-- S.rt_buf[0..MAX_PAYLOAD-1] (R29) -/
  rtBuf : List Byte
  /-- S.rt_len (R29) -/
  rtLen : Byte
  /-- S.listener (R30) -/
  listener : Bool
  deriving DecidableEq, Repr

/-- A Queue Entry, S.slot[i] (R33). -/
structure Slot where
  /-- payload length, 8 bits -/
  len : Byte
  /-- payload bytes, MAX_PAYLOAD of them -/
  data : List Byte
  /-- attempt counter, an ATT_W-bit number (R184) -/
  attempts : Nat
  /-- completion target identity, a TAG_W-bit number -/
  tag : Nat
  /-- opaque context, a CTX_W-bit number -/
  ctx : Nat
  deriving DecidableEq, Repr

/-- The Queue State (R32 to R34). -/
structure QueueState where
  /-- S.head, a QCAP_LOG2-bit number (R32) -/
  head : Nat
  /-- S.tail, a QCAP_LOG2-bit number (R32) -/
  tail : Nat
  /-- S.slot[0..QCAP-1] (R33) -/
  slots : List Slot
  deriving DecidableEq, Repr

/-- One instance (R20, R216), with its parameters, its marks, its observation and what its environment has in store. -/
structure State where
  /-- The parameters of R7; nothing writes them (R40; log 2). -/
  cfg : Config
  /-- The Link State. -/
  link : LinkState
  /-- The Queue State. -/
  queue : QueueState
  /-- The mark S.codec_init (R40, R231). -/
  codecInit : Bool
  /-- The mark S.queue_init (R40, R232). -/
  queueInit : Bool
  /-- The refusal mark of R217 (2): set by a refused command, cleared by nothing (log 1). -/
  refused : Bool
  /-- The event log, oldest first (R40); no rule reads it (log 13). -/
  events : List Event
  /-- The responses given, oldest first (R38, D37); no rule reads them (log 13). -/
  responses : List Response
  /-- The transport's next answers, in order (R12; log 5). -/
  answers : List Answer
  /-- The consumer's next statuses, in order (R12; log 5). -/
  statuses : List Status
  /-- What the host passes in next, in order (R59, R62; log 6). -/
  arrivals : List Arrival
  /-- The model's own counter that names the next free value (log 16). -/
  freeCount : Nat
  deriving DecidableEq, Repr

/-- Why the machine stops: states the rules make unreachable (R217 (3)). -/
inductive Fault where
  /-- S.hs holds encoding 3 where a rule reads it (R27, U3). Raised by SEND, RESEND, READINESS, DRAIN and a handshake byte.
  Safe: the spec says that a model that finds it faults. -/
  | handshakeCode3
  /-- An array index out of bounds (R51, U4). Raised by every array access of Machine/Ops.lean. Safe: the spec says that a
  model that finds it faults. -/
  | indexOutOfBounds
  deriving DecidableEq, Repr

/-- Why a step has no meaning. The spec's own refusals (R217 (2)) are next states with the refusal mark (log 1). -/
inductive Refusal where
  /-- An instruction without a meaning yet. Raised by exec's refused arms alone. Safe. -/
  | notModelled (mnemonic : String)
  /-- What arrived is a bit string that encodes no command (R81; log 8). Raised by step. Safe: it runs nothing. -/
  | malformedCommand (e : DecodeError)
  deriving DecidableEq, Repr

/-- An all-zero Link State of a configuration. DESIGN CHOICE: R230 gives no power-on value of any field (log 3); unsafe. -/
def LinkState.powerOn (c : Config) : LinkState where
  reading := false
  nibValid := false
  nibVal := 0#4
  frameLen := 0#8
  rxCount := 0#8
  rxSum := 0#8
  rxBuf := List.replicate c.maxFrame 0#8
  hs := .pending
  sentAt := 0
  rtBuf := List.replicate c.maxPayload 0#8
  rtLen := 0#8
  listener := false

/-- An all-zero slot. DESIGN CHOICE (log 3); unsafe. -/
def Slot.powerOn (c : Config) : Slot where
  len := 0#8
  data := List.replicate c.maxPayload 0#8
  attempts := 0
  tag := 0
  ctx := 0

/-- An all-zero Queue State. DESIGN CHOICE (log 3); unsafe. -/
def QueueState.powerOn (c : Config) : QueueState where
  head := 0
  tail := 0
  slots := List.replicate c.qcap (Slot.powerOn c)

/-- An instance of configuration c at power-on: neither component initialised (R230), nothing observed, nothing yet to
come from the environment. -/
def State.powerOn (c : Config) : State where
  cfg := c
  link := LinkState.powerOn c
  queue := QueueState.powerOn c
  codecInit := false
  queueInit := false
  refused := false
  events := []
  responses := []
  answers := []
  statuses := []
  arrivals := []
  freeCount := 0

/-- The machine right after reset: power-on (R230; the block has no reset pin), in the reference configuration (log 2). -/
def State.reset : State := State.powerOn Config.reference

end Sys2Proof.Machine
end

