-- ==== Sys2Proof/Machine/Codes.lean ====
section
/-! DEFINITION. The numeric codes of the statuses, the readiness, the handshake and the outcomes (R27, R85 to R87). -/

namespace Sys2Proof.Machine

/-- Every command on success (R85). -/
abbrev statusOk : Status := 0#4
/-- R204 -/
abbrev statusJunkByte : Status := 1#4
/-- R202 -/
abbrev statusMessageTooBig : Status := 2#4
/-- R202 -/
abbrev statusMessageTooSmall : Status := 3#4
/-- R203 -/
abbrev statusBadChecksum : Status := 4#4
/-- R206 -/
abbrev statusPayloadTooLarge : Status := 5#4
/-- R207 -/
abbrev statusTransportError : Status := 6#4
/-- R205 -/
abbrev statusQueueFull : Status := 7#4

/-- R27 -/
def handshakeCode : Handshake → BitVec 2
  | .pending => 0#2
  | .acked => 1#2
  | .naked => 2#2
  | .unused => 3#2

/-- R86 -/
def readinessCode : Readiness → BitVec 2
  | .ready => 0#2
  | .negative => 1#2
  | .busy => 2#2
  | .timedOut => 3#2

/-- R87 -/
def outcomeCode : HandshakeOutcome → BitVec 2
  | .outAck => 0#2
  | .outNak => 1#2
  | .outTimeout => 2#2

/-- R87 -/
def completionCode : Completion → BitVec 2
  | .acknowledged => 0#2
  | .negativeFinal => 1#2
  | .retriesExhausted => 2#2

/-- The response's number at the command port: a 4-bit status (R85) or a 2-bit readiness (R86). -/
def responseCode : Response → Nat
  | .status c => c.toNat
  | .readiness r => (readinessCode r).toNat

end Sys2Proof.Machine
end

