-- ==== Sys2Proof/Machine/Ops.lean ====
section
/-! DEFINITION. The named operations over the state: updates, array access (R51), the three primitives that reach the
environment (R11), free values (R233), and how a command ends (R200, R217). The block has no traps (R200): in place of taking
an exception stands `refuse`, the one shared operation of a refused command. -/

namespace Sys2Proof.Machine

/-! ### Updates -/

/-- Replace the Link State. -/
def State.setLink (s : State) (l : LinkState) : State := { s with link := l }

/-- Replace the Queue State. -/
def State.setQueue (s : State) (q : QueueState) : State := { s with queue := q }

/-- S.codec_init <- 1 (R100). -/
def State.markCodecInit (s : State) : State := { s with codecInit := true }

/-- S.queue_init <- 1 (R170). -/
def State.markQueueInit (s : State) : State := { s with queueInit := true }

/-- Append an output event (R11). -/
def State.record (s : State) (e : Event) : State := { s with events := s.events ++ [e] }

/-- Give a command's response (R82). -/
def State.respond (s : State) (r : Response) : State := { s with responses := s.responses ++ [r] }

/-- A refused command: the state as it was, no event, the refusal mark set (R217 (2)). -/
def State.refuse (s : State) : State := { s with refused := true }

/-- Pass over n free values. -/
def State.skipFree (s : State) (n : Nat) : State := { s with freeCount := s.freeCount + n }

/-! ### Draws (R12) -/

/-- The transport's next answer; a free value where the environment lists none. -/
def drawAnswer (s : State) : Answer × State :=
  match s.answers with
  | r :: rest => (r, { s with answers := rest })
  | [] => (Config.freeAnswer s.freeCount, s.skipFree 1)

/-- The consumer's next status; a free value where the environment lists none. -/
def drawStatus (s : State) : Status × State :=
  match s.statuses with
  | c :: rest => (c, { s with statuses := rest })
  | [] => (Config.freeStatus s.freeCount, s.skipFree 1)

/-! ### The primitives that reach the environment (R11) -/

/-- Emit(b). -/
def emit (b : Byte) (s : State) : Answer × State :=
  ((drawAnswer s).1, (drawAnswer s).2.record (.tx b (drawAnswer s).1))

/-- Emitting bytes in order, stopping at the first failure: no later byte is offered (R101, R107). -/
def emitAll : List Byte → State → Answer × State
  | [], s => (.ok, s)
  | b :: bs, s =>
    match emit b s with
    | (.ok, s') => emitAll bs s'
    | (.fail, s') => (.fail, s')

/-- Deliver(p). -/
def deliver (p : List Byte) (s : State) : Status × State :=
  ((drawStatus s).1, (drawStatus s).2.record (.deliver p (drawStatus s).1))

/-- Notify(tag, ctx, o). -/
def notify (tag ctx : Nat) (o : Completion) (s : State) : State := s.record (.complete tag ctx o)

/-! ### Arrays (R51): an index out of bounds faults -/

/-- A[i]. -/
def readAt {α : Type} (a : List α) (i : Nat) : Except Fault α :=
  match a[i]? with
  | some v => .ok v
  | none => .error .indexOutOfBounds

/-- A[i] <- v. -/
def writeAt {α : Type} (a : List α) (i : Nat) (v : α) : Except Fault (List α) :=
  if i < a.length then .ok (a.set i v) else .error .indexOutOfBounds

/-- A[0..n-1]. -/
def readFirst {α : Type} (a : List α) (n : Nat) : Except Fault (List α) :=
  if n ≤ a.length then .ok (a.take n) else .error .indexOutOfBounds

/-- A[0..n-1] <- p for p of n elements; the others are unchanged. -/
def writeFirst {α : Type} (a p : List α) : Except Fault (List α) :=
  if p.length ≤ a.length then .ok (p ++ a.drop p.length) else .error .indexOutOfBounds

/-! ### Unspecified contents: free values numbered from k (R233, U2; log 4) -/

/-- n free bytes. -/
def freeBytes (k n : Nat) : List Byte := (List.range n).map fun i => Config.freeByte (k + i)

/-- How many free values one slot takes. -/
def freeSlotSize (c : Config) : Nat := c.maxPayload + 4

/-- A slot of unspecified contents, each field within its width. -/
def freeSlot (c : Config) (k : Nat) : Slot where
  len := Config.freeByte k
  attempts := Config.freeNumber (k + 1) % 2 ^ c.attW
  tag := Config.freeNumber (k + 2) % 2 ^ c.tagW
  ctx := Config.freeNumber (k + 3) % 2 ^ c.ctxW
  data := freeBytes (k + 4) c.maxPayload

/-- QCAP slots of unspecified contents. -/
def freeSlots (c : Config) (k : Nat) : List Slot := (List.range c.qcap).map fun i => freeSlot c (k + i * freeSlotSize c)

/-! ### How a command ends -/

/-- A command that ran: its response is given (R217 (1)), or the model met an unreachable state (R217 (3)). -/
def finish : Except Fault (Response × State) → Host.Outcome State Fault Refusal
  | .ok (r, s) => .next (s.respond r)
  | .error f => .fault f

/-- A command (R217): run where it is admitted, refused elsewhere. -/
def command (admitted : Bool) (body : State → Except Fault (Response × State)) (s : State) :
    Host.Outcome State Fault Refusal :=
  if admitted then finish (body s) else .next s.refuse

/-- An internal procedure: no response, and no admission of its own (R82; log 10). -/
def runProcedure (body : State → Except Fault State) (s : State) : Host.Outcome State Fault Refusal :=
  match body s with
  | .ok t => .next t
  | .error f => .fault f

/-- A status as a response. -/
def withStatus : Except Fault (Status × State) → Except Fault (Response × State)
  | .ok (c, s) => .ok (.status c, s)
  | .error f => .error f

/-- The response OK after a procedure. -/
def thenOk : Except Fault State → Except Fault (Response × State)
  | .ok s => .ok (.status statusOk, s)
  | .error f => .error f

end Sys2Proof.Machine
end

