-- ==== Sys2Proof/Machine/Flags.lean ====
section
/-! DEFINITION. Conditions and arithmetic. The block has no flags register (R38); what a command tests is computed here:
wrapping arithmetic (R10), the elapsed time and readiness (R150, R151), the occupancy (R34), the saturating attempt counter
(R184), the receive phase (R36), the constraints on a configuration (R8) and the admission of a command (R217). -/

namespace Sys2Proof.Machine

/-- CR_BYTE (R6, G1). -/
abbrev crByte : Byte := 0x0D#8
/-- LF_BYTE (R6, G1). -/
abbrev lfByte : Byte := 0x0A#8
/-- MIN_FRAME (R6). -/
abbrev minFrame : Nat := 2
/-- MAX_ATTEMPTS (R6). -/
abbrev maxAttempts : Nat := 3

/-- a +_w b (R10). -/
def addMod (w a b : Nat) : Nat := (a + b) % 2 ^ w

/-- a -_w b (R10). -/
def subMod (w a b : Nat) : Nat := (a + (2 ^ w - b % 2 ^ w)) % 2 ^ w

/-- The elapsed time e (R151). -/
def elapsed (c : Config) (now sentAt : Nat) : Nat := subMod c.timeW now sentAt

/-- READINESS (R150): a pure function of S.hs, S.sent_at, TIMEOUT_TICKS and now (R37). -/
def readiness (c : Config) (now : Nat) (l : LinkState) : Except Fault Readiness :=
  match l.hs with
  | .acked => .ok .ready
  | .naked => .ok .negative
  | .pending => if elapsed c now l.sentAt < c.timeoutTicks then .ok .busy else .ok .timedOut
  | .unused => .error .handshakeCode3

/-- live(S) (R34). -/
def live (c : Config) (q : QueueState) : Nat := subMod c.qcapLog2 q.tail q.head

/-- The queue is full (R34). -/
def isFull (c : Config) (q : QueueState) : Bool := live c q == c.qcap - 1

/-- The queue is empty (R34). -/
def isEmpty (q : QueueState) : Bool := q.head == q.tail

/-- S.head +1 or S.tail +1, modulo QCAP (R32). -/
def nextIndex (c : Config) (i : Nat) : Nat := addMod c.qcapLog2 i 1

/-- sat(attempts + 1) (R184). -/
def bumpAttempts (c : Config) (attempts : Nat) : Nat := min (attempts + 1) (2 ^ c.attW - 1)

/-- Outcome(o) (R181). -/
def completionOf : HandshakeOutcome → Completion
  | .outAck => .acknowledged
  | .outNak => .negativeFinal
  | .outTimeout => .retriesExhausted

/-- The receive phases of R36. -/
inductive Phase where
  | idle
  | lenHi
  | lenLo
  | dataHi
  | dataLo
  deriving DecidableEq, Repr

/-- The receive phase (R36). -/
def phase (l : LinkState) : Phase :=
  if l.reading = false then .idle
  else match decide (l.frameLen = 0#8), l.nibValid with
    | true, false => .lenHi
    | true, true => .lenLo
    | false, false => .dataHi
    | false, true => .dataLo

/-- R8 (a): the control bytes are pairwise distinct. -/
def controlDistinct (c : Config) : Bool :=
  c.sofByte != c.ackByte && c.sofByte != c.nakByte && c.ackByte != c.nakByte

/-- R8 (b): no control byte is a hex digit character. -/
def controlNotHex (c : Config) : Bool :=
  (hexVal c.sofByte).isNone && (hexVal c.ackByte).isNone && (hexVal c.nakByte).isNone

/-- R8 (c): ACK_BYTE and NAK_BYTE are neither CR_BYTE nor LF_BYTE. -/
def handshakeNotPreamble (c : Config) : Bool :=
  c.ackByte != crByte && c.ackByte != lfByte && c.nakByte != crByte && c.nakByte != lfByte

/-- R8 (d) to (g), and R7's ranges. -/
def sizesInRange (c : Config) : Bool :=
  decide (2 ≤ c.maxFrame ∧ c.maxFrame ≤ 255) && decide (1 ≤ c.qcapLog2)
    && decide (1 ≤ c.timeoutTicks ∧ c.timeoutTicks ≤ 2 ^ c.timeW - 1) && decide (maxAttempts ≤ 2 ^ c.attW - 1)

/-- R8: a well-formed configuration. -/
def configOk (c : Config) : Bool :=
  controlDistinct c && controlNotHex c && handshakeNotPreamble c && sizesInRange c

/-- CODEC_INIT is admitted in every instance of a well-formed configuration (R217 (b), (e)). -/
def admitsAny (s : State) : Bool := configOk s.cfg

/-- FEED, READINESS, SEND, RESEND and QUEUE_INIT need S.codec_init = 1 (R217 (b), R232). -/
def admitsCodec (s : State) : Bool := configOk s.cfg && s.codecInit

/-- SUBMIT and UPDATE need S.queue_init = 1 as well (R217 (c), R232). -/
def admitsQueue (s : State) : Bool := configOk s.cfg && s.codecInit && s.queueInit

end Sys2Proof.Machine
end

