-- ==== Sys2Proof/Machine/Operands.lean ====
section
/-! DEFINITION. The operand forms (R81, R83) and what the codec makes of a payload: the frame of R73 to R75. -/

namespace Sys2Proof.Machine

/-- The operand now: TIME_W bits (R81, R215). -/
def timeOperand (c : Config) (now : Nat) : Nat := now % 2 ^ c.timeW

/-- The operand tag: TAG_W bits (R81). -/
def tagOperand (c : Config) (tag : Nat) : Nat := tag % 2 ^ c.tagW

/-- The operand ctx: CTX_W bits (R81). -/
def ctxOperand (c : Config) (ctx : Nat) : Nat := ctx % 2 ^ c.ctxW

/-- The length of a payload as an 8-bit register holds it (R29, R33). -/
def lengthByte (p : List Byte) : Byte := BitVec.ofNat 8 p.length

/-- L = n + 1 (R74). -/
def lengthField (p : List Byte) : Byte := BitVec.ofNat 8 (p.length + 1)

/-- The hex digits of the payload bytes and of the checksum field. The first argument is T.tx_sum, the running 8-bit sum
(R31, R105). -/
def frameTail : Byte → List Byte → List Byte
  | txSum, [] => hexPair txSum
  | txSum, b :: p => hexPair b ++ frameTail (txSum + b) p

/-- The frame of payload p from its SOF byte on, the bytes in wire order (R52, R73). -/
def frameBytes (c : Config) (p : List Byte) : List Byte :=
  c.sofByte :: (hexPair (lengthField p) ++ frameTail (lengthField p) p)

/-- The preamble (R76). -/
def preamble : List Byte := [crByte, lfByte]

end Sys2Proof.Machine
end

