-- ==== Sys2Proof/Machine/Codec.lean ====
section
/-! DEFINITION. The Frame Codec's initialize, send, resend-last and readiness query (40_codec_send.md, R150). -/

namespace Sys2Proof.Machine

/-! ### CODEC_INIT -/

/-- The Link State CODEC_INIT leaves (R100, R233). S.nib_val, S.rx_buf and S.rt_buf are unspecified: free values numbered
from k (log 4). -/
def initialLink (c : Config) (k : Nat) : LinkState where
  reading := false
  nibValid := false
  nibVal := BitVec.ofNat 4 (Config.freeNumber k)
  frameLen := 0#8
  rxCount := 0#8
  rxSum := 0#8
  rxBuf := freeBytes (k + 1) c.maxFrame
  hs := .acked
  sentAt := 0
  rtBuf := freeBytes (k + 1 + c.maxFrame) c.maxPayload
  rtLen := 0#8
  listener := false

/-- CODEC_INIT's writes (R100). The Queue State is not touched. -/
def initCodec (s : State) : State :=
  ((s.setLink (initialLink s.cfg s.freeCount)).skipFree (1 + s.cfg.maxFrame + s.cfg.maxPayload)).markCodecInit

/-- CODEC_INIT (R100). -/
def execCodecInit (s : State) : Host.Outcome State Fault Refusal :=
  command (admitsAny s) (fun s => thenOk (.ok (initCodec s))) s

/-! ### SEND and RESEND -/

/-- S.hs <- PENDING (R104). -/
def markPending (s : State) : State := s.setLink { s.link with hs := .pending }

/-- Recording the payload and stamping the send (R106). -/
def recordSend (p : List Byte) (now : Nat) (s : State) : Except Fault State := do
  let buf ← writeFirst s.link.rtBuf p
  return s.setLink { s.link with rtBuf := buf, rtLen := lengthByte p, sentAt := timeOperand s.cfg now }

/-- SEND from its handshake mark on (R102, R104 to R107): the frame's bytes in order, and the recording once every one of
them was accepted. -/
def transmit (p : List Byte) (now : Nat) (s : State) : Except Fault (Status × State) :=
  match emitAll (frameBytes s.cfg p) (markPending s) with
  | (.fail, t) => .ok (statusTransportError, t)
  | (.ok, t) => do return (statusOk, ← recordSend p now t)

/-- SEND(p, n, now) (R102): the size check (R108), the preamble where no handshake is pending (R103), then the frame. -/
def sendFrame (p : List Byte) (now : Nat) (s : State) : Except Fault (Status × State) :=
  if s.cfg.maxPayload < p.length then .ok (statusPayloadTooLarge, s)
  else match s.link.hs with
    | .unused => .error .handshakeCode3
    | .pending => transmit p now s
    | .acked | .naked =>
      match emitAll preamble s with
      | (.fail, t) => .ok (statusTransportError, t)
      | (.ok, t) => transmit p now t

/-- RESEND(now) (R110): SEND of the recorded payload. -/
def resendFrame (now : Nat) (s : State) : Except Fault (Status × State) := do
  let p ← readFirst s.link.rtBuf s.link.rtLen.toNat
  sendFrame p now s

/-- SEND (R102). -/
def execSend (p : List Byte) (now : Nat) (s : State) : Host.Outcome State Fault Refusal :=
  command (admitsCodec s) (fun s => withStatus (sendFrame p now s)) s

/-- RESEND (R110). -/
def execResend (now : Nat) (s : State) : Host.Outcome State Fault Refusal :=
  command (admitsCodec s) (fun s => withStatus (resendFrame now s)) s

/-! ### READINESS -/

/-- READINESS (R150): a response, nothing written, no event. -/
def execReadiness (now : Nat) (s : State) : Host.Outcome State Fault Refusal :=
  command (admitsCodec s) (fun s => do return (.readiness (← readiness s.cfg (timeOperand s.cfg now) s.link), s)) s

end Sys2Proof.Machine
end

