-- ==== Sys2Proof/Machine/Queue.lean ====
section
/-! DEFINITION. The Retransmission Queue: QUEUE_INIT, SUBMIT, UPDATE, and the internal procedures DRAIN and HANDLE
(42_queue.md). -/

namespace Sys2Proof.Machine

/-- S.listener <- 0 (R183). -/
def detach (s : State) : State := s.setLink { s.link with listener := false }

/-- S.listener <- 1 (R179). -/
def attach (s : State) : State := s.setLink { s.link with listener := true }

/-! ### QUEUE_INIT -/

/-- QUEUE_INIT's writes (R170). The slots' contents are unspecified: free values (R233; log 4). -/
def initQueue (s : State) : State :=
  (((detach s).setQueue { head := 0, tail := 0, slots := freeSlots s.cfg s.freeCount }).skipFree
    (s.cfg.qcap * freeSlotSize s.cfg)).markQueueInit

/-- QUEUE_INIT (R170). -/
def execQueueInit (s : State) : Host.Outcome State Fault Refusal :=
  command (admitsCodec s) (fun s => thenOk (.ok (initQueue s))) s

/-! ### HANDLE -/

/-- Retiring the head entry (R182): its notification, then the head's advance. -/
def retireHead (slot : Slot) (o : HandshakeOutcome) (s : State) : State :=
  (notify slot.tag slot.ctx (completionOf o) s).setQueue { s.queue with head := nextIndex s.cfg s.queue.head }

/-- Whether HANDLE retires the head entry (R180, R182). -/
def retires (slot : Slot) (o : HandshakeOutcome) : Bool := o == .outAck || decide (maxAttempts ≤ slot.attempts)

/-- HANDLE(o) (R180). -/
def handleOutcome (o : HandshakeOutcome) (s : State) : Except Fault State :=
  if isEmpty s.queue then .ok (detach s)
  else do
    let slot ← readAt s.queue.slots s.queue.head
    return detach (if retires slot o then retireHead slot o s else s)

/-- HANDLE as an instruction: the internal procedure alone (R82; log 10). -/
def execHandle (o : HandshakeOutcome) (s : State) : Host.Outcome State Fault Refusal :=
  runProcedure (handleOutcome o) s

/-! ### DRAIN -/

/-- Counting one more attempt of the head entry (R179, R184). -/
def countAttempt (slot : Slot) (s : State) : State :=
  s.setQueue { s.queue with
    slots := s.queue.slots.set s.queue.head { slot with attempts := bumpAttempts s.cfg slot.attempts } }

/-- DRAIN's send of the head entry; SEND's status is discarded (R179). -/
def sendHead (now : Nat) (s : State) : Except Fault State := do
  let slot ← readAt s.queue.slots s.queue.head
  let p ← readFirst slot.data slot.len.toNat
  let sent ← sendFrame p now (attach (countAttempt slot s))
  return sent.2

/-- DRAIN(now) (R176). -/
def drainQueue (now : Nat) (s : State) : Except Fault State :=
  if isEmpty s.queue then .ok s
  else do
    match ← readiness s.cfg (timeOperand s.cfg now) s.link with
    | .busy => return s
    | .timedOut => if s.link.listener then handleOutcome .outTimeout s else sendHead now s
    | .ready => sendHead now s
    | .negative => sendHead now s

/-- DRAIN as an instruction: the internal procedure alone (R82; log 10). -/
def execDrain (now : Nat) (s : State) : Host.Outcome State Fault Refusal := runProcedure (drainQueue now) s

/-- UPDATE (R175). -/
def execUpdate (now : Nat) (s : State) : Host.Outcome State Fault Refusal :=
  command (admitsQueue s) (fun s => thenOk (drainQueue now s)) s

/-! ### SUBMIT -/

/-- Writing the new entry into the tail slot and advancing the tail (R171). -/
def enqueue (p : List Byte) (tag ctx : Nat) (s : State) : Except Fault State := do
  let old ← readAt s.queue.slots s.queue.tail
  let data ← writeFirst old.data p
  return s.setQueue { s.queue with
    slots := s.queue.slots.set s.queue.tail
      { len := lengthByte p, data := data, attempts := 0, tag := tagOperand s.cfg tag, ctx := ctxOperand s.cfg ctx }
    tail := nextIndex s.cfg s.queue.tail }

/-- SUBMIT(p, n, tag, ctx, now) (R171): the size check (R172), then the full check (R173), then the entry and one DRAIN
(R174). -/
def submitEntry (p : List Byte) (tag ctx now : Nat) (s : State) : Except Fault (Status × State) :=
  if s.cfg.maxPayload < p.length then .ok (statusPayloadTooLarge, s)
  else if isFull s.cfg s.queue then .ok (statusQueueFull, s)
  else do
    let t ← enqueue p tag ctx s
    return (statusOk, ← drainQueue now t)

/-- SUBMIT (R171). -/
def execSubmit (p : List Byte) (tag ctx now : Nat) (s : State) : Host.Outcome State Fault Refusal :=
  command (admitsQueue s) (fun s => withStatus (submitEntry p tag ctx now s)) s

end Sys2Proof.Machine
end

