-- ==== Sys2Proof/Machine/Receive.lean ====
section
/-! DEFINITION. FEED, the codec's receive side (41_codec_receive.md R130 to R144). -/

namespace Sys2Proof.Machine

/-- A SOF_BYTE: start a frame (R131). -/
def startFrame (l : LinkState) : LinkState :=
  { l with reading := true, rxCount := 0#8, frameLen := 0#8, rxSum := 0#8, nibValid := false }

/-- HandshakeByte(r), for the ACKED or NAKED that the outcome stands for (R134). -/
def handshakeByte (r : Handshake) (o : HandshakeOutcome) (s : State) : Except Fault (Status × State) :=
  match s.link.hs with
  | .unused => .error .handshakeCode3
  | .pending => do
    let t := s.setLink { s.link with hs := r }
    if s.link.listener then return (statusOk, ← handleOutcome o t) else return (statusOk, t)
  | .acked | .naked => .ok (statusOk, s)

/-- A non-hex byte mid-frame: the frame is abandoned (R136). -/
def abandonFrame (l : LinkState) : LinkState := { l with reading := false, nibValid := false }

/-- The first digit of a pair (R137). -/
def bufferNibble (d : Nibble) (l : LinkState) : LinkState := { l with nibVal := d, nibValid := true }

/-- The length field v (R139). -/
def takeLength (c : Config) (v : Byte) (l : LinkState) : Status × LinkState :=
  if v.toNat < minFrame then (statusMessageTooSmall, { l with reading := false })
  else if c.maxFrame < v.toNat then (statusMessageTooBig, { l with reading := false })
  else (statusOk, { l with frameLen := v, rxCount := 0#8, rxSum := l.rxSum + v })

/-- The terminal byte v, already stored and counted: the checksum comparison, the handshake reply and the delivery
(R141 to R144). -/
def takeTerminal (v : Byte) (s : State) : Except Fault (Status × State) :=
  if v = s.link.rxSum then
    match emit s.cfg.ackByte s with
    | (.fail, t) => .ok (statusTransportError, t)
    | (.ok, t) => do
      let p ← readFirst t.link.rxBuf (t.link.frameLen.toNat - 1)
      return deliver p t
  else
    match emit s.cfg.nakByte s with
    | (.fail, t) => .ok (statusTransportError, t)
    | (.ok, t) => .ok (statusBadChecksum, t)

/-- A decoded byte v after the length field (R140, R141). -/
def takeData (v : Byte) (s : State) : Except Fault (Status × State) := do
  let buf ← writeAt s.link.rxBuf s.link.rxCount.toNat v
  let l := { s.link with rxBuf := buf, rxCount := s.link.rxCount + 1#8 }
  if l.rxCount = l.frameLen then takeTerminal v (s.setLink { l with reading := false })
  else return (statusOk, s.setLink { l with rxSum := l.rxSum + v })

/-- A decoded byte v: the length field, or a byte after it (R138). -/
def takeByte (v : Byte) (s : State) : Except Fault (Status × State) :=
  if s.link.frameLen = 0#8 then
    .ok ((takeLength s.cfg v s.link).1, s.setLink (takeLength s.cfg v s.link).2)
  else takeData v s

/-- A hex digit mid-frame (R137, R138). -/
def takeDigit (d : Nibble) (s : State) : Except Fault (Status × State) :=
  if s.link.nibValid then
    takeByte (pairNibbles s.link.nibVal d) (s.setLink { s.link with nibValid := false })
  else .ok (statusOk, s.setLink (bufferNibble d s.link))

/-- FEED(b) (R130), by the class of b (R79). -/
def feedByte (b : Byte) (s : State) : Except Fault (Status × State) :=
  match classify s.cfg s.link.reading b with
  | .sof => .ok (statusOk, s.setLink (startFrame s.link))
  | .ack => handshakeByte .acked .outAck s
  | .nak => handshakeByte .naked .outNak s
  | .junkIdle => .ok (statusJunkByte, s)
  | .hex d => takeDigit d s
  | .junkFrame => .ok (statusJunkByte, s.setLink (abandonFrame s.link))

/-- FEED of one byte as a command (R130, R217). -/
def feedCommand (b : Byte) (s : State) : Host.Outcome State Fault Refusal :=
  command (admitsCodec s) (fun s => withStatus (feedByte b s)) s

/-- FEED (R130). -/
def execFeed (b : Byte) (s : State) : Host.Outcome State Fault Refusal := feedCommand b s

end Sys2Proof.Machine
end

