-- ==== Sys2Proof/Machine/ByteClasses.lean ====
section
/-! DEFINITION. The rows of FEED's decode table (R79). Each row is FEED of the row's byte ("inbound byte (FEED imm8)" in
the opcode table), so each has FEED's effect in every receive phase (log 9). -/

namespace Sys2Proof.Machine

/-- SOF (R131). -/
def execSof (s : State) : Host.Outcome State Fault Refusal := feedCommand s.cfg.sofByte s

/-- ACK (R132). -/
def execAck (s : State) : Host.Outcome State Fault Refusal := feedCommand s.cfg.ackByte s

/-- NAK (R133). -/
def execNak (s : State) : Host.Outcome State Fault Refusal := feedCommand s.cfg.nakByte s

/-- JUNK_IDLE (R135). -/
def execJunkIdle (b : Byte) (s : State) : Host.Outcome State Fault Refusal := feedCommand b s

/-- JUNK_FRAME (R136). -/
def execJunkFrame (b : Byte) (s : State) : Host.Outcome State Fault Refusal := feedCommand b s

/-- HEX_DIGIT_'0' (R137 to R141). -/
def execHexDigit0 (s : State) : Host.Outcome State Fault Refusal := feedCommand 0x30#8 s

/-- HEX_DIGIT_'1' (R137 to R141). -/
def execHexDigit1 (s : State) : Host.Outcome State Fault Refusal := feedCommand 0x31#8 s

/-- HEX_DIGIT_'2' (R137 to R141). -/
def execHexDigit2 (s : State) : Host.Outcome State Fault Refusal := feedCommand 0x32#8 s

/-- HEX_DIGIT_'3' (R137 to R141). -/
def execHexDigit3 (s : State) : Host.Outcome State Fault Refusal := feedCommand 0x33#8 s

/-- HEX_DIGIT_'4' (R137 to R141). -/
def execHexDigit4 (s : State) : Host.Outcome State Fault Refusal := feedCommand 0x34#8 s

/-- HEX_DIGIT_'5' (R137 to R141). -/
def execHexDigit5 (s : State) : Host.Outcome State Fault Refusal := feedCommand 0x35#8 s

/-- HEX_DIGIT_'6' (R137 to R141). -/
def execHexDigit6 (s : State) : Host.Outcome State Fault Refusal := feedCommand 0x36#8 s

/-- HEX_DIGIT_'7' (R137 to R141). -/
def execHexDigit7 (s : State) : Host.Outcome State Fault Refusal := feedCommand 0x37#8 s

/-- HEX_DIGIT_'8' (R137 to R141). -/
def execHexDigit8 (s : State) : Host.Outcome State Fault Refusal := feedCommand 0x38#8 s

/-- HEX_DIGIT_'9' (R137 to R141). -/
def execHexDigit9 (s : State) : Host.Outcome State Fault Refusal := feedCommand 0x39#8 s

/-- HEX_DIGIT_'A' (R137 to R141). -/
def execHexDigitUpperA (s : State) : Host.Outcome State Fault Refusal := feedCommand 0x41#8 s

/-- HEX_DIGIT_'B' (R137 to R141). -/
def execHexDigitUpperB (s : State) : Host.Outcome State Fault Refusal := feedCommand 0x42#8 s

/-- HEX_DIGIT_'C' (R137 to R141). -/
def execHexDigitUpperC (s : State) : Host.Outcome State Fault Refusal := feedCommand 0x43#8 s

/-- HEX_DIGIT_'D' (R137 to R141). -/
def execHexDigitUpperD (s : State) : Host.Outcome State Fault Refusal := feedCommand 0x44#8 s

/-- HEX_DIGIT_'E' (R137 to R141). -/
def execHexDigitUpperE (s : State) : Host.Outcome State Fault Refusal := feedCommand 0x45#8 s

/-- HEX_DIGIT_'F' (R137 to R141). -/
def execHexDigitUpperF (s : State) : Host.Outcome State Fault Refusal := feedCommand 0x46#8 s

/-- HEX_DIGIT_'a' (R137 to R141). -/
def execHexDigitLowerA (s : State) : Host.Outcome State Fault Refusal := feedCommand 0x61#8 s

/-- HEX_DIGIT_'b' (R137 to R141). -/
def execHexDigitLowerB (s : State) : Host.Outcome State Fault Refusal := feedCommand 0x62#8 s

/-- HEX_DIGIT_'c' (R137 to R141). -/
def execHexDigitLowerC (s : State) : Host.Outcome State Fault Refusal := feedCommand 0x63#8 s

/-- HEX_DIGIT_'d' (R137 to R141). -/
def execHexDigitLowerD (s : State) : Host.Outcome State Fault Refusal := feedCommand 0x64#8 s

/-- HEX_DIGIT_'e' (R137 to R141). -/
def execHexDigitLowerE (s : State) : Host.Outcome State Fault Refusal := feedCommand 0x65#8 s

/-- HEX_DIGIT_'f' (R137 to R141). -/
def execHexDigitLowerF (s : State) : Host.Outcome State Fault Refusal := feedCommand 0x66#8 s

end Sys2Proof.Machine
end

