-- ==== Sys2Proof/Machine/Reserved.lean ====
section
/-! DEFINITION. RESERVED: the command headers that R84 refuses. -/

namespace Sys2Proof.Machine

/-- RESERVED (R84, R217 (a)): "no state change, and the refusal mark of 60_exceptions.md rule R217 is set". -/
def execReserved (_header : BitVec 16) (s : State) : Host.Outcome State Fault Refusal :=
  command false (fun s => thenOk (.ok s)) s

end Sys2Proof.Machine
end

