-- ==== Sys2Proof/Machine/Dispatch.lean ====
section
/-! DEFINITION. The dispatch: one arm per instruction, each one call of its meaning. -/

namespace Sys2Proof.Machine

def exec (i : Instr) (s : State) : Host.Outcome State Fault Refusal :=
  match i with
  | .codecInit => Sys2Proof.Machine.execCodecInit s
  | .feed b => Sys2Proof.Machine.execFeed b s
  | .readiness now => Sys2Proof.Machine.execReadiness now s
  | .send payload now => Sys2Proof.Machine.execSend payload now s
  | .resend now => Sys2Proof.Machine.execResend now s
  | .queueInit => Sys2Proof.Machine.execQueueInit s
  | .submit payload tag ctx now => Sys2Proof.Machine.execSubmit payload tag ctx now s
  | .update now => Sys2Proof.Machine.execUpdate now s
  | .reserved header => Sys2Proof.Machine.execReserved header s
  | .handle o => Sys2Proof.Machine.execHandle o s
  | .drain now => Sys2Proof.Machine.execDrain now s
  | .sof => Sys2Proof.Machine.execSof s
  | .ack => Sys2Proof.Machine.execAck s
  | .nak => Sys2Proof.Machine.execNak s
  | .junkIdle b => Sys2Proof.Machine.execJunkIdle b s
  | .hexDigit0 => Sys2Proof.Machine.execHexDigit0 s
  | .hexDigit1 => Sys2Proof.Machine.execHexDigit1 s
  | .hexDigit2 => Sys2Proof.Machine.execHexDigit2 s
  | .hexDigit3 => Sys2Proof.Machine.execHexDigit3 s
  | .hexDigit4 => Sys2Proof.Machine.execHexDigit4 s
  | .hexDigit5 => Sys2Proof.Machine.execHexDigit5 s
  | .hexDigit6 => Sys2Proof.Machine.execHexDigit6 s
  | .hexDigit7 => Sys2Proof.Machine.execHexDigit7 s
  | .hexDigit8 => Sys2Proof.Machine.execHexDigit8 s
  | .hexDigit9 => Sys2Proof.Machine.execHexDigit9 s
  | .hexDigitUpperA => Sys2Proof.Machine.execHexDigitUpperA s
  | .hexDigitUpperB => Sys2Proof.Machine.execHexDigitUpperB s
  | .hexDigitUpperC => Sys2Proof.Machine.execHexDigitUpperC s
  | .hexDigitUpperD => Sys2Proof.Machine.execHexDigitUpperD s
  | .hexDigitUpperE => Sys2Proof.Machine.execHexDigitUpperE s
  | .hexDigitUpperF => Sys2Proof.Machine.execHexDigitUpperF s
  | .hexDigitLowerA => Sys2Proof.Machine.execHexDigitLowerA s
  | .hexDigitLowerB => Sys2Proof.Machine.execHexDigitLowerB s
  | .hexDigitLowerC => Sys2Proof.Machine.execHexDigitLowerC s
  | .hexDigitLowerD => Sys2Proof.Machine.execHexDigitLowerD s
  | .hexDigitLowerE => Sys2Proof.Machine.execHexDigitLowerE s
  | .hexDigitLowerF => Sys2Proof.Machine.execHexDigitLowerF s
  | .junkFrame b => Sys2Proof.Machine.execJunkFrame b s

end Sys2Proof.Machine
end

