-- ==== Sys2Proof/Machine/Fetch.lean ====
section
/-! DEFINITION. Taking the next command from what the host passes in (R59, R62; log 6). -/

namespace Sys2Proof.Machine

/-- What stands at the command port. -/
inductive Fetched where
  /-- Nothing: between commands the block holds its state (R219, R245). -/
  | idle
  /-- An instruction, and the state with its arrival consumed. -/
  | instr (i : Instr) (s : State)
  /-- A command that overlaps another one (R212, R217 (d)). -/
  | overlap (s : State)
  /-- A bit string that encodes no command (log 8). -/
  | malformed (e : DecodeError)
  deriving DecidableEq, Repr

/-- Consume the next arrival. -/
def State.dropArrival (s : State) : State := { s with arrivals := s.arrivals.drop 1 }

/-- The next arrival, decoded in the receive phase of the state. -/
def fetch (s : State) : Fetched :=
  match s.arrivals with
  | [] => .idle
  | .overlapping _ :: _ => .overlap s.dropArrival
  | a :: _ =>
    match decode s.cfg s.link.reading a with
    | .ok i => .instr i s.dropArrival
    | .error e => .malformed e

/-- An opcode-table word placed as the next arrival. A hex digit's or JUNK_FRAME's byte is one only mid-frame (R79), so for
these S.reading is set as well; nothing else changes (log 9). -/
def placeTableWord (s : State) (nbits w : Nat) : State :=
  match tableArrival s.cfg nbits w with
  | some a =>
    { s with
      arrivals := a :: s.arrivals
      link := { s.link with reading := s.link.reading || tableWordMidFrame s.cfg nbits w } }
  | none => s

end Sys2Proof.Machine
end

