-- ==== Sys2Proof/Machine/Step.lean ====
section
/-! DEFINITION. One step: the next command the host passes in, run as one transition (R4, R56). -/

namespace Sys2Proof.Machine

/-- One command; with none at the port, nothing happens (R219, R245). -/
def step (s : State) : Host.Outcome State Fault Refusal :=
  match fetch s with
  | .idle => .next s
  | .instr i t => exec i t
  | .overlap t => .next t.refuse
  | .malformed e => .refused (.malformedCommand e)

/-- The state with an opcode-table word placed where `step` takes its next instruction. -/
def State.withFetchWord (s : State) (nbits w : Nat) : State := placeTableWord s nbits w

end Sys2Proof.Machine
end

