-- ==== Sys2Proof/Machine/Pseudo.lean ====
section
/-! DEFINITION. The pseudo-instructions of R89 and the text notation of R88 (log 17). -/

namespace Sys2Proof.Machine

/-! ### Pseudo-instructions (R89) -/

/-- FEEDS: one FEED per character of a text, in ASCII. -/
def feeds (text : List Char) : List Instr := text.map fun ch => .feed (BitVec.ofNat 8 ch.toNat)

/-- FEEDHEX: the two digits of a byte, high one first. -/
def feedHex (v : Byte) : List Instr := (hexPair v).map .feed

/-- FEEDFRAME: the frame of R73 without its preamble. -/
def feedFrame (c : Config) (p : List Byte) : List Instr := (frameBytes c p).map .feed

/-- The bytes of an event list that the transport accepted, in order. -/
def acceptedBytes (events : List Event) : List Byte :=
  events.filterMap fun e =>
    match e with
    | .tx b .ok => some b
    | .tx _ .fail => none
    | .deliver _ _ => none
    | .complete _ _ _ => none

/-- WIRE A->B: FEED of every byte instance A emitted with answer ok after its first `since` events, the number its log had
at the previous WIRE, or at the program's start. -/
def wire (since : Nat) (events : List Event) : List Instr := (acceptedBytes (events.drop since)).map .feed

/-! ### Text notation (R88) -/

/-- The digits of a w-bit value in hex, upper case, one for every four bits begun. -/
def hexDigits (w v : Nat) : List Char :=
  (List.range ((w + 3) / 4)).reverse.map fun k => Char.ofNat (hexChar (BitVec.ofNat 4 (v / 16 ^ k))).toNat

/-- A payload's bytes, each after a space but the first. -/
def spacedBytes : List Byte → List Char
  | [] => []
  | [b] => hexDigits 8 b.toNat
  | b :: c :: bs => hexDigits 8 b.toNat ++ ' ' :: spacedBytes (c :: bs)

/-- A payload as R88 writes it. -/
def payloadText (p : List Byte) : List Char := '[' :: (spacedBytes p ++ [']'])

/-- An operand as R88 writes it: its name and a decimal number. -/
def operandText (name : String) (v : Nat) : List Char := ' ' :: (name.toList ++ '=' :: Nat.toDigits 10 v)

/-- The text of a command (R88); the other rows of the opcode table have none. -/
def commandText : Instr → Option (List Char)
  | .codecInit => some "CODEC_INIT".toList
  | .feed b => some ("FEED 0x".toList ++ hexDigits 8 b.toNat)
  | .readiness now => some ("READINESS".toList ++ operandText "now" now)
  | .send p now => some ("SEND ".toList ++ payloadText p ++ operandText "now" now)
  | .resend now => some ("RESEND".toList ++ operandText "now" now)
  | .queueInit => some "QUEUE_INIT".toList
  | .submit p tag ctx now =>
    some ("SUBMIT ".toList ++ payloadText p ++ operandText "tag" tag ++ operandText "ctx" ctx ++ operandText "now" now)
  | .update now => some ("UPDATE".toList ++ operandText "now" now)
  | _ => none

/-- A command addressed to a named instance, as in `A: SEND [01] now=5` (R88). -/
def instanceText (name : String) (i : Instr) : Option (List Char) :=
  (commandText i).map fun text => name.toList ++ ':' :: ' ' :: text

/-- The encoding of a command in hex: the header, then each operand field, as in `3002 01 02 00000064` (R88). -/
def encodingText (c : Config) : Instr → Option (List Char)
  | .codecInit => some (hexDigits 16 0x0000)
  | .feed b => some (hexDigits 16 (0x1000 + b.toNat))
  | .readiness now => some (hexDigits 16 0x2000 ++ ' ' :: hexDigits c.timeW now)
  | .send p now =>
    some (hexDigits 16 (0x3000 + p.length) ++ p.flatMap (fun b => ' ' :: hexDigits 8 b.toNat)
      ++ ' ' :: hexDigits c.timeW now)
  | .resend now => some (hexDigits 16 0x4000 ++ ' ' :: hexDigits c.timeW now)
  | .queueInit => some (hexDigits 16 0x5000)
  | .submit p tag ctx now =>
    some (hexDigits 16 (0x6000 + p.length) ++ p.flatMap (fun b => ' ' :: hexDigits 8 b.toNat)
      ++ ' ' :: hexDigits c.tagW tag ++ ' ' :: hexDigits c.ctxW ctx ++ ' ' :: hexDigits c.timeW now)
  | .update now => some (hexDigits 16 0x7000 ++ ' ' :: hexDigits c.timeW now)
  | _ => none

end Sys2Proof.Machine
end

