-- ==== Sys2Proof/Machine/Run.lean ====
section
/-! DEFINITION. Running a list of instructions in order (R59), for claims about more than one command. -/

namespace Sys2Proof.Machine

/-- The instructions in order, stopping at the first that answers no next state. -/
def execAll : List Instr → State → Host.Outcome State Fault Refusal
  | [], s => .next s
  | i :: is, s =>
    match exec i s with
    | .next t => execAll is t
    | .fault f => .fault f
    | .refused r => .refused r

end Sys2Proof.Machine
end

