-- ==== Sys2Proof/WellFormed.lean ====
section
/-! DEFINITION. When an instruction is one the encodings can carry (R79, R81 to R84), and the receive phase a byte class
belongs to (R79). -/

namespace Sys2Proof

/-- The payload's length fits in imm8 (R83). -/
def payloadFits (p : List Byte) : Bool := decide (p.length ≤ 255)

/-- A control byte: SOF_BYTE, ACK_BYTE or NAK_BYTE. -/
def isControl (cfg : Config) (b : Byte) : Bool := b == cfg.sofByte || b == cfg.ackByte || b == cfg.nakByte

/-- The checks of each constructor. -/
def wellFormed (cfg : Config) : Instr → Bool
  | .readiness now => decide (now < 2 ^ cfg.timeW)
  | .send p now => payloadFits p && decide (now < 2 ^ cfg.timeW)
  | .resend now => decide (now < 2 ^ cfg.timeW)
  | .submit p tag ctx now =>
    payloadFits p && decide (tag < 2 ^ cfg.tagW) && decide (ctx < 2 ^ cfg.ctxW) && decide (now < 2 ^ cfg.timeW)
  | .update now => decide (now < 2 ^ cfg.timeW)
  | .reserved h => reservedHeader h
  | .drain now => decide (now < 2 ^ cfg.timeW)
  | .junkIdle b => !isControl cfg b
  | .junkFrame b => !isControl cfg b && (hexVal b).isNone
  | .codecInit | .feed _ | .queueInit | .handle _ | .sof | .ack | .nak => true
  | .hexDigit0 | .hexDigit1 | .hexDigit2 | .hexDigit3 | .hexDigit4 => true
  | .hexDigit5 | .hexDigit6 | .hexDigit7 | .hexDigit8 | .hexDigit9 => true
  | .hexDigitUpperA | .hexDigitUpperB | .hexDigitUpperC | .hexDigitUpperD | .hexDigitUpperE | .hexDigitUpperF => true
  | .hexDigitLowerA | .hexDigitLowerB | .hexDigitLowerC | .hexDigitLowerD | .hexDigitLowerE | .hexDigitLowerF => true

/-- Whether a byte class's row of R79 can match in a phase, `reading` saying that the phase is not IDLE. JUNK_IDLE belongs
to IDLE, the hex digits and JUNK_FRAME to the other four; every other row to all. -/
def inPhase (reading : Bool) : Instr → Bool
  | .junkIdle _ => !reading
  | .junkFrame _ => reading
  | .hexDigit0 | .hexDigit1 | .hexDigit2 | .hexDigit3 | .hexDigit4 => reading
  | .hexDigit5 | .hexDigit6 | .hexDigit7 | .hexDigit8 | .hexDigit9 => reading
  | .hexDigitUpperA | .hexDigitUpperB | .hexDigitUpperC | .hexDigitUpperD | .hexDigitUpperE | .hexDigitUpperF => reading
  | .hexDigitLowerA | .hexDigitLowerB | .hexDigitLowerC | .hexDigitLowerD | .hexDigitLowerE | .hexDigitLowerF => reading
  | .codecInit | .feed _ | .readiness _ | .send _ _ | .resend _ | .queueInit | .submit _ _ _ _ | .update _ => true
  | .reserved _ | .handle _ | .drain _ | .sof | .ack | .nak => true

end Sys2Proof
end

