-- ==== Sys2Proof/Safety.lean ====
section
/-! DEFINITION. The terms claims are made in: the invariants of R35 with the widths of 10_state.md, what a transport that
accepts bytes leaves, and the decoding of a string of hex digit characters. -/

namespace Sys2Proof.Machine

/-! ### Invariants -/

/-- Every array has the size the spec gives it (R26, R29, R33, R50). -/
abbrev ArraysSized (s : State) : Prop :=
  s.link.rxBuf.length = s.cfg.maxFrame ∧ s.link.rtBuf.length = s.cfg.maxPayload
    ∧ s.queue.slots.length = s.cfg.qcap ∧ ∀ x ∈ s.queue.slots, x.data.length = s.cfg.maxPayload

/-- Every number held as a Nat fits its width (R28, R32, R33). -/
abbrev WidthsKept (s : State) : Prop :=
  s.link.sentAt < 2 ^ s.cfg.timeW ∧ s.queue.head < s.cfg.qcap ∧ s.queue.tail < s.cfg.qcap
    ∧ ∀ x ∈ s.queue.slots, x.attempts < 2 ^ s.cfg.attW ∧ x.tag < 2 ^ s.cfg.tagW ∧ x.ctx < 2 ^ s.cfg.ctxW

/-- I1, I2, I3, I4, I5 and I8 of R35. -/
abbrev LinkInv (s : State) : Prop :=
  (s.link.frameLen = 0#8 ∨ (2 ≤ s.link.frameLen.toNat ∧ s.link.frameLen.toNat ≤ s.cfg.maxFrame))
    ∧ s.link.rxCount.toNat ≤ s.link.frameLen.toNat
    ∧ (s.link.reading = true → s.link.frameLen ≠ 0#8 → s.link.rxCount.toNat < s.link.frameLen.toNat)
    ∧ (s.link.nibValid = true → s.link.reading = true)
    ∧ s.link.rtLen.toNat ≤ s.cfg.maxPayload
    ∧ s.link.hs ≠ .unused

/-- I6 of R35, and the half of I7 about a sent slot: where the queue is the listener, it has been initialised, it is not
empty, and its head entry was sent at least once. -/
abbrev ListenerInv (s : State) : Prop :=
  s.link.listener = true → s.queueInit = true ∧ s.queue.head ≠ s.queue.tail
    ∧ ∀ x ∈ s.queue.slots[s.queue.head]?, 1 ≤ x.attempts

/-- The half of I7 of R35 about every live slot, the k-th of which is S.slot[S.head + k] (R34). -/
abbrev LiveSlotsInv (s : State) : Prop :=
  ∀ k, k < live s.cfg s.queue →
    ∀ x ∈ s.queue.slots[(s.queue.head + k) % s.cfg.qcap]?, x.len.toNat ≤ s.cfg.maxPayload

/-- The invariant of an instance: the sizes and widths always, R35's invariants from the initialisations on. -/
abbrev Inv (s : State) : Prop :=
  ArraysSized s ∧ WidthsKept s
    ∧ (s.codecInit = true → configOk s.cfg = true ∧ LinkInv s ∧ ListenerInv s)
    ∧ (s.queueInit = true → s.codecInit = true ∧ LiveSlotsInv s)

/-- The wrapping 8-bit sum of bytes (R10, R75). -/
def byteSum (p : List Byte) : Byte := p.foldl (· + ·) 0#8

/-- What S.rx_sum holds mid-frame (R25): nothing before the length field, then the length field and every payload byte
decoded so far. -/
abbrev ChecksumInv (s : State) : Prop :=
  s.codecInit = true → s.link.reading = true →
    (s.link.frameLen = 0#8 → s.link.rxSum = 0#8)
      ∧ (s.link.frameLen ≠ 0#8 → s.link.rxSum = s.link.frameLen + byteSum (s.link.rxBuf.take s.link.rxCount.toNat))

/-! ### Time -/

/-- The ticks from `sentAt` to `now`, modulo 2^TIME_W (R151). -/
def ticksSince (c : Config) (now sentAt : Nat) : Nat := (((now : Int) - sentAt) % 2 ^ c.timeW).toNat

/-- A handshake pending since `sentAt` has timed out at `now` (R151). -/
abbrev TimedOut (c : Config) (now sentAt : Nat) : Prop := c.timeoutTicks ≤ ticksSince c now sentAt

/-! ### A transport that accepts -/

/-- The transport accepts the next n bytes. -/
abbrev Accepts (s : State) (n : Nat) : Prop := s.answers.take n = List.replicate n Answer.ok

/-- The transport accepts n bytes and fails the next. -/
abbrev FailsAt (s : State) (n : Nat) : Prop := Accepts s n ∧ s.answers[n]? = some Answer.fail

/-- The events of accepted bytes. -/
def acceptedEvents (bytes : List Byte) : List Event := bytes.map fun b => .tx b .ok

/-- The state after these bytes were offered and accepted. -/
def afterAccepted (s : State) (bytes : List Byte) : State :=
  { s with events := s.events ++ acceptedEvents bytes, answers := s.answers.drop bytes.length }

/-- The state after the first n of these bytes were accepted and the next one failed. -/
def afterFailed (s : State) (bytes : List Byte) (n : Nat) : State :=
  { s with
    events := s.events ++ acceptedEvents (bytes.take n) ++ ((bytes.drop n).take 1).map fun b => .tx b .fail
    answers := s.answers.drop (n + 1) }

/-- What a SEND of p puts on the wire (R73, R76): a preamble where no handshake is pending, then the frame. -/
def sendBytes (s : State) (p : List Byte) : List Byte :=
  (if s.link.hs = .pending then [] else preamble) ++ frameBytes s.cfg p

/-- How many bytes of preamble a SEND puts before the frame (R103). -/
def preambleLength (s : State) : Nat := if s.link.hs = .pending then 0 else 2

/-- The Link State after a completed SEND of p (R104, R106). -/
def sentLink (c : Config) (l : LinkState) (p : List Byte) (now : Nat) : LinkState :=
  { l with
    hs := .pending
    rtBuf := p ++ l.rtBuf.drop p.length
    rtLen := BitVec.ofNat 8 p.length
    sentAt := now % 2 ^ c.timeW }

/-- The state after a SEND of p whose every byte was accepted, before its response. -/
def afterSend (s : State) (p : List Byte) (now : Nat) : State :=
  (afterAccepted s (sendBytes s p)).setLink (sentLink s.cfg s.link p now)

/-! ### Entries of the queue -/

/-- The entry SUBMIT writes into the slot `old` (R171): the bytes beyond the payload stay (R51). -/
def submittedEntry (c : Config) (old : Slot) (p : List Byte) (tag ctx : Nat) : Slot where
  len := BitVec.ofNat 8 p.length
  data := p ++ old.data.drop p.length
  attempts := 0
  tag := tag % 2 ^ c.tagW
  ctx := ctx % 2 ^ c.ctxW

/-- The state after SUBMIT's writes and before its DRAIN (R171). -/
def afterEnqueue (s : State) (old : Slot) (p : List Byte) (tag ctx : Nat) : State :=
  s.setQueue { s.queue with
    tail := (s.queue.tail + 1) % 2 ^ s.cfg.qcapLog2
    slots := s.queue.slots.set s.queue.tail (submittedEntry s.cfg old p tag ctx) }

/-- Two slots hold the same entry, whatever its attempts. -/
abbrev SameEntry (x y : Slot) : Prop := y.len = x.len ∧ y.data = x.data ∧ y.tag = x.tag ∧ y.ctx = x.ctx

/-- Between s and t, slot j kept everything, but that a head entry's attempts may be one up, saturating (R184). -/
abbrev HeadAttemptsAlone (s t : State) (j : Nat) : Prop :=
  t.queue.slots[j]? = s.queue.slots[j]?
    ∨ (j = s.queue.head ∧ ∃ x, s.queue.slots[j]? = some x
      ∧ t.queue.slots[j]? = some { x with attempts := min (x.attempts + 1) (2 ^ s.cfg.attW - 1) })

/-! ### Frames on the wire -/

/-- The checksum of a payload (R75). -/
def checksum (p : List Byte) : Byte := BitVec.ofNat 8 (p.length + 1) + byteSum p

/-- The bytes that a string of hex digit characters spells, two characters a byte, the first one high (R72); none where a
character is no hex digit or one is left over. -/
def decodeDigits : List Byte → Option (List Byte)
  | [] => some []
  | [_] => none
  | c :: d :: rest =>
    match hexVal c, hexVal d, decodeDigits rest with
    | some hi, some lo, some bytes => some (pairNibbles hi lo :: bytes)
    | _, _, _ => none

/-- Whether an instruction is a command of the host, an inbound byte among them: all but the two internal procedures
(R82). -/
def isCommand : Instr → Bool
  | .handle _ => false
  | .drain _ => false
  | _ => true

/-- FEED, in each of its rows: FEED itself and the byte classes of R79. -/
def isFeed : Instr → Bool
  | .feed _ | .sof | .ack | .nak | .junkIdle _ | .junkFrame _ => true
  | .hexDigit0 | .hexDigit1 | .hexDigit2 | .hexDigit3 | .hexDigit4 => true
  | .hexDigit5 | .hexDigit6 | .hexDigit7 | .hexDigit8 | .hexDigit9 => true
  | .hexDigitUpperA | .hexDigitUpperB | .hexDigitUpperC | .hexDigitUpperD | .hexDigitUpperE | .hexDigitUpperF => true
  | .hexDigitLowerA | .hexDigitLowerB | .hexDigitLowerC | .hexDigitLowerD | .hexDigitLowerE | .hexDigitLowerF => true
  | .codecInit | .readiness _ | .send _ _ | .resend _ | .queueInit | .submit _ _ _ _ | .update _ => false
  | .reserved _ | .handle _ | .drain _ => false

/-- The receive fields are the same in two states (the first row of R41's table). -/
abbrev SameReceive (s t : State) : Prop :=
  t.link.reading = s.link.reading ∧ t.link.nibValid = s.link.nibValid ∧ t.link.nibVal = s.link.nibVal
    ∧ t.link.frameLen = s.link.frameLen ∧ t.link.rxCount = s.link.rxCount ∧ t.link.rxSum = s.link.rxSum
    ∧ t.link.rxBuf = s.link.rxBuf

/-- What was sent, and when, is the same in two states. -/
abbrev SameSent (s t : State) : Prop :=
  t.link.sentAt = s.link.sentAt ∧ t.link.rtBuf = s.link.rtBuf ∧ t.link.rtLen = s.link.rtLen

/-- The byte of a Tx event. -/
def txByte : Event → Option Byte
  | .tx b _ => some b
  | .deliver _ _ => none
  | .complete _ _ _ => none

/-- The completion notifications of an event log. -/
def completions (events : List Event) : List Event :=
  events.filter fun e =>
    match e with
    | .complete _ _ _ => true
    | .tx _ _ => false
    | .deliver _ _ => false

end Sys2Proof.Machine
end

