-- ==== Sys2Proof/Certificates/Slice0/Obligations.lean ====
section
/-! DEFINITION. The statements for the provers, each with the rule of spec/ it formalises. -/

open Sys2Proof Sys2Proof.Machine

/-! ### Power-on and the invariants -/

/-- At power-on, in every configuration, nothing is initialised, refused or observed, and the invariants hold. The zeros of
the other fields are the model's choice (log 3), and the invariants hold of them; State.reset is the reference
configuration (log 2). -/
def Obligations.PowerOnMeetsInvariants : Prop :=
  State.reset = State.powerOn Config.reference ∧
  ∀ c : Config,
    (State.powerOn c).codecInit = false ∧ (State.powerOn c).queueInit = false ∧ (State.powerOn c).refused = false
      ∧ (State.powerOn c).events = [] ∧ (State.powerOn c).responses = []
      ∧ Inv (State.powerOn c) ∧ ChecksumInv (State.powerOn c)

/-- R35: every step keeps the sizes, the widths and the invariants I1 to I8. Of I7, that a sent live slot has attempts >= 1
is kept here for the head entry while the queue listens; that no live slot's attempts ever fall is said of every instruction
but QUEUE_INIT in CommandsWriteOnlyTheirFields. -/
def Obligations.StepKeepsInvariant : Prop :=
  ∀ s t : State, Inv s → step s = .next t → Inv t

/-- R25: mid-frame, every step keeps S.rx_sum equal to the length field plus the payload bytes decoded so far. -/
def Obligations.StepKeepsChecksum : Prop :=
  ∀ s t : State, Inv s → ChecksumInv s → step s = .next t → ChecksumInv t

/-- R27, R51, R217 (3): the states a model must fault in (log 14) are unreachable: no step from the invariant faults. -/
def Obligations.StepNeverFaults : Prop :=
  ∀ (s : State) (f : Fault), Inv s → step s ≠ .fault f

/-- R217 (1), (2): from a state of the invariant every command, whatever its operands, ends: it is refused, with nothing
but the mark changed, or it gives exactly one response. That a refusal is a next state is the model's choice (log 1). -/
def Obligations.EveryCommandAnswers : Prop :=
  ∀ (i : Instr) (s : State), Inv s → isCommand i = true →
    ∃ t, exec i s = .next t ∧ (t = { s with refused := true } ∨ ∃ r, t.responses = s.responses ++ [r])

/-! ### Encodings -/

/-- R52, R81 to R83, R79: decoding the encoding of a well-formed instruction gives it back, in every phase its row
belongs to, at every value of every operand and in every configuration that meets R8. -/
def Obligations.DecodeEncodeAgree : Prop :=
  ∀ (cfg : Config) (reading : Bool) (i : Instr) (a : Arrival),
    configOk cfg = true → wellFormed cfg i = true → inPhase reading i = true → encode cfg i = some a →
      decode cfg reading a = .ok i

/-- R81 to R83: a command other than RESERVED is decoded from one bit string only, its encoding. RESERVED is apart: its header
is refused whatever follows it. The bit string's form is the model's (log 7). -/
def Obligations.EncodeDecodeAgree : Prop :=
  ∀ (cfg : Config) (bits : List Bool) (i : Instr),
    decodeCommand cfg bits = .ok i → (∀ h, i ≠ .reserved h) → encode cfg i = some (.command bits)

/-- R79, R83: whatever is decoded is well-formed and belongs to the phase it was decoded in. -/
def Obligations.DecodedIsWellFormed : Prop :=
  ∀ (cfg : Config) (reading : Bool) (a : Arrival) (i : Instr),
    decode cfg reading a = .ok i → wellFormed cfg i = true ∧ inPhase reading i = true

/-- R84: a header with op in 0x8..0xF, with rsv not 0, or with imm8 not 0 for an opcode whose imm8 is 0, is refused: no
state change but the refusal mark, whatever follows it. The header is the number of its 16 bits, the high bit first
(log 7); that a refusal is a next state is the model's choice (log 1). -/
def Obligations.ReservedHeadersRefused : Prop :=
  ∀ (s : State) (h : Nat) (operands : List Bool) (rest : List Arrival),
    h < 2 ^ 16 → s.arrivals = .command (toBits 16 h ++ operands) :: rest →
    (8 ≤ h / 4096 ∨ h / 256 % 16 ≠ 0 ∨ (h / 4096 ∈ [0, 2, 4, 5, 7] ∧ h % 256 ≠ 0)) →
      step s = .next { s with arrivals := rest, refused := true }
        ∧ exec (.reserved (BitVec.ofNat 16 h)) s = .next { s with refused := true }

/-- The encodings K1 to K8, the four headers of K9 (R84) and a SEND of n = 64 as in K12, written out from R81, R82 and R88 as
one bit string (log 7), decode to what they stand for. -/
def Obligations.SampleEncodingsDecode : Prop :=
  decodeCommand Config.reference (toBits 16 0x0000) = .ok .codecInit
    ∧ decodeCommand Config.reference (toBits 16 0x100A) = .ok (.feed 0x0A#8)
    ∧ decodeCommand Config.reference (toBits 48 0x20000000000B) = .ok (.readiness 11)
    ∧ decodeCommand Config.reference (toBits 64 0x3002010200000064) = .ok (.send [1#8, 2#8] 100)
    ∧ decodeCommand Config.reference (toBits 48 0x400000000065) = .ok (.resend 101)
    ∧ decodeCommand Config.reference (toBits 16 0x5000) = .ok .queueInit
    ∧ decodeCommand Config.reference (toBits 96 0x600201020001000700000064) = .ok (.submit [1#8, 2#8] 1 7 100)
    ∧ decodeCommand Config.reference (toBits 48 0x70000000000D) = .ok (.update 13)
    ∧ (∀ h ∈ [0x8000, 0x0100, 0x0001, 0x2005],
        decodeCommand Config.reference (toBits 16 h) = .ok (.reserved (BitVec.ofNat 16 h)))
    ∧ decodeCommand Config.reference (toBits 16 0x3040 ++ ((List.range 64).flatMap (toBits 8) ++ toBits 32 100))
      = .ok (.send ((List.range 64).map (BitVec.ofNat 8)) 100)

/-- R70, R71, R72: an emitted digit is read back, a byte is sent as two digits and read back, and the digits of a value
are its character and, for a letter, the lower-case one. -/
def Obligations.HexDigitsReadBack : Prop :=
  (∀ d : Nibble, hexVal (hexChar d) = some d)
    ∧ (∀ v : Byte, decodeDigits (hexPair v) = some [v])
    ∧ (∀ (b : Byte) (d : Nibble), hexVal b = some d ↔ b = hexChar d ∨ (10 ≤ d.toNat ∧ b = hexChar d + 0x20#8))

/-- R73, R74, R75: the frame of a payload of n bytes is 2n + 5 bytes long, byte by byte: SOF, the length field n + 1, each
payload byte as two digits, and the checksum (L + p[0] + ... + p[n-1]) mod 256. -/
def Obligations.FrameLayout : Prop :=
  ∀ (c : Config) (p : List Byte), p.length ≤ 254 →
    (frameBytes c p).length = 2 * p.length + 5
      ∧ (frameBytes c p)[0]? = some c.sofByte
      ∧ (frameBytes c p)[1]? = some (hexChar (BitVec.ofNat 4 ((p.length + 1) / 16)))
      ∧ (frameBytes c p)[2]? = some (hexChar (BitVec.ofNat 4 ((p.length + 1) % 16)))
      ∧ (∀ (i : Nat) (v : Byte), p[i]? = some v →
          (frameBytes c p)[3 + 2 * i]? = some (hexChar (BitVec.ofNat 4 (v.toNat / 16)))
            ∧ (frameBytes c p)[4 + 2 * i]? = some (hexChar (BitVec.ofNat 4 (v.toNat % 16))))
      ∧ (frameBytes c p)[3 + 2 * p.length]?
          = some (hexChar (BitVec.ofNat 4 ((p.length + 1 + (p.map BitVec.toNat).sum) % 256 / 16)))
      ∧ (frameBytes c p)[4 + 2 * p.length]?
          = some (hexChar (BitVec.ofNat 4 ((p.length + 1 + (p.map BitVec.toNat).sum) % 256 % 16)))

/-- R72, R73, R75: the digits of a frame spell the length field, the payload and the checksum. -/
def Obligations.FrameDigitsSpellPayload : Prop :=
  ∀ (c : Config) (p : List Byte),
    decodeDigits ((frameBytes c p).drop 1) = some (BitVec.ofNat 8 (p.length + 1) :: (p ++ [checksum p]))

/-! ### The step -/

/-- R4, R59: what arrives first, decoded in the phase of the state, is the instruction the step runs, on the state with
that arrival consumed and nothing else changed. The list of arrivals is the model's (log 6). -/
def Obligations.StepRunsDecodedInstruction : Prop :=
  ∀ (s : State) (a : Arrival) (rest : List Arrival) (i : Instr),
    s.arrivals = a :: rest → (∀ bits, a ≠ .overlapping bits) → decode s.cfg s.link.reading a = .ok i →
      step s = exec i { s with arrivals := rest }

/-- R219, R245: with no command at the port (log 6) a step changes nothing. -/
def Obligations.IdleStepKeepsState : Prop :=
  ∀ s : State, s.arrivals = [] → step s = .next s

/-- R212, R217 (d), R236: a command that overlaps another one is refused, whatever it is. Its form is the model's (log 12),
and so is the refusal as a next state (log 1). -/
def Obligations.OverlappingCommandRefused : Prop :=
  ∀ (s : State) (bits : List Bool) (rest : List Arrival), s.arrivals = .overlapping bits :: rest →
    step s = .next { s with arrivals := rest, refused := true }

/-- R79, R130: an inbound byte's row of FEED's decode table does what FEED of that byte does, in every state (log 9). -/
def Obligations.InboundByteIsFeed : Prop :=
  ∀ (s : State) (b : Byte), exec (decodeInbound s.cfg s.link.reading b) s = exec (.feed b) s

/-- R79: each byte-class row is FEED of its byte, in every phase. This is the model's reading of the rows (log 9). -/
def Obligations.ByteClassRowsAreFeed : Prop :=
  ∀ s : State,
    exec .sof s = exec (.feed s.cfg.sofByte) s ∧ exec .ack s = exec (.feed s.cfg.ackByte) s
      ∧ exec .nak s = exec (.feed s.cfg.nakByte) s
      ∧ (∀ b, exec (.junkIdle b) s = exec (.feed b) s) ∧ (∀ b, exec (.junkFrame b) s = exec (.feed b) s)
      ∧ ∀ r ∈ hexDigitRows, exec r.2 s = exec (.feed r.1) s

/-! ### Refusals -/

/-- R231: while S.codec_init = 0, every command except CODEC_INIT is refused (a next state with the mark, log 1). -/
def Obligations.CommandsBeforeCodecInitRefused : Prop :=
  ∀ (i : Instr) (s : State), isCommand i = true → i ≠ .codecInit → s.codecInit = false →
    exec i s = .next { s with refused := true }

/-- R232, R217 (c): while S.queue_init = 0, SUBMIT and UPDATE are refused; QUEUE_INIT needs S.codec_init = 1 alone.
A refusal is a next state with the mark (log 1). -/
def Obligations.QueueCommandsBeforeQueueInitRefused : Prop :=
  ∀ s : State,
    (s.queueInit = false →
      (∀ p tag ctx now, exec (.submit p tag ctx now) s = .next { s with refused := true })
        ∧ ∀ now, exec (.update now) s = .next { s with refused := true })
    ∧ (s.codecInit = false → exec .queueInit s = .next { s with refused := true })

/-- R8, R217 (e): a configuration is well-formed exactly when it meets (a) to (g), and where it is not, every command is
refused (a next state with the mark, log 1). -/
def Obligations.IllFormedConfigurationRefused : Prop :=
  (∀ c : Config, configOk c = true ↔
    (c.sofByte ≠ c.ackByte ∧ c.sofByte ≠ c.nakByte ∧ c.ackByte ≠ c.nakByte)
      ∧ (∀ b ∈ [c.sofByte, c.ackByte, c.nakByte],
          ¬(0x30 ≤ b.toNat ∧ b.toNat ≤ 0x39) ∧ ¬(0x41 ≤ b.toNat ∧ b.toNat ≤ 0x46) ∧ ¬(0x61 ≤ b.toNat ∧ b.toNat ≤ 0x66))
      ∧ (∀ b ∈ [c.ackByte, c.nakByte], b.toNat ≠ 0x0D ∧ b.toNat ≠ 0x0A)
      ∧ (2 ≤ c.maxFrame ∧ c.maxFrame ≤ 255) ∧ 1 ≤ c.qcapLog2
      ∧ (1 ≤ c.timeoutTicks ∧ c.timeoutTicks ≤ 2 ^ c.timeW - 1) ∧ 3 ≤ 2 ^ c.attW - 1)
  ∧ ∀ (i : Instr) (s : State), isCommand i = true → configOk s.cfg = false → exec i s = .next { s with refused := true }

/-- R217 (2), R40: no instruction clears the refusal mark or an initialised mark, and none changes a parameter.
The mark and the parameters stand in State by the model's choice (log 1, log 2). -/
def Obligations.MarksAndParametersKept : Prop :=
  ∀ (i : Instr) (s t : State), exec i s = .next t →
    t.cfg = s.cfg ∧ (s.refused = true → t.refused = true) ∧ (s.codecInit = true → t.codecInit = true)
      ∧ (s.queueInit = true → t.queueInit = true)

/-! ### CODEC_INIT, QUEUE_INIT, READINESS -/

/-- R100: CODEC_INIT completes in every instance of a well-formed configuration. Every field R100 writes has its value,
the unspecified ones are left open (log 4), the Queue State and the rest are untouched, and no event is given. -/
def Obligations.CodecInitResult : Prop :=
  ∀ s : State, configOk s.cfg = true →
    ∃ (nib : Nibble) (rx rt : List Byte) (n : Nat),
      exec .codecInit s = .next { s with
        link := {
          reading := false, nibValid := false, nibVal := nib, frameLen := 0#8, rxCount := 0#8, rxSum := 0#8, rxBuf := rx
          hs := .acked, sentAt := 0, rtBuf := rt, rtLen := 0#8, listener := false }
        codecInit := true
        responses := s.responses ++ [.status statusOk]
        freeCount := n }

/-- R170: QUEUE_INIT empties the ring and clears the listener, in every initialised codec; the slots' contents are left
open (log 4), and no event is given for a live entry it drops. -/
def Obligations.QueueInitResult : Prop :=
  ∀ s : State, admitsCodec s = true →
    ∃ (slots : List Slot) (n : Nat), slots.length = s.cfg.qcap ∧
      exec .queueInit s = .next { s with
        link := { s.link with listener := false }
        queue := { head := 0, tail := 0, slots := slots }
        queueInit := true
        responses := s.responses ++ [.status statusOk]
        freeCount := n }

/-- R150, R151: READINESS writes nothing, gives no event, and answers by S.hs and by the elapsed ticks modulo
2^TIME_W. -/
def Obligations.ReadinessResult : Prop :=
  ∀ (s : State) (now : Nat), admitsCodec s = true →
    (s.link.hs = .acked → exec (.readiness now) s = .next { s with responses := s.responses ++ [.readiness .ready] })
    ∧ (s.link.hs = .naked →
        exec (.readiness now) s = .next { s with responses := s.responses ++ [.readiness .negative] })
    ∧ (s.link.hs = .pending → ticksSince s.cfg now s.link.sentAt < s.cfg.timeoutTicks →
        exec (.readiness now) s = .next { s with responses := s.responses ++ [.readiness .busy] })
    ∧ (s.link.hs = .pending → s.cfg.timeoutTicks ≤ ticksSince s.cfg now s.link.sentAt →
        exec (.readiness now) s = .next { s with responses := s.responses ++ [.readiness .timedOut] })

/-! ### SEND and RESEND -/

/-- R102 to R106, R109: a SEND whose every byte is accepted puts the preamble (exactly where no handshake is pending) and
the frame on the wire, marks the handshake pending, records the payload, stamps the time and answers OK. -/
def Obligations.SendCompletes : Prop :=
  ∀ (s : State) (p : List Byte) (now : Nat), admitsCodec s = true → s.link.hs ≠ .unused →
    s.link.rtBuf.length = s.cfg.maxPayload → p.length ≤ s.cfg.maxPayload →
    Accepts s ((if s.link.hs = .pending then [] else [0x0D#8, 0x0A#8]) ++ frameBytes s.cfg p).length →
      exec (.send p now) s = .next { s with
        events := s.events ++ ((if s.link.hs = .pending then [] else [0x0D#8, 0x0A#8]) ++ frameBytes s.cfg p).map
          fun b => .tx b .ok
        answers := s.answers.drop ((if s.link.hs = .pending then [] else [0x0D#8, 0x0A#8]) ++ frameBytes s.cfg p).length
        link := { s.link with
          hs := .pending
          rtBuf := p ++ s.link.rtBuf.drop p.length
          rtLen := BitVec.ofNat 8 p.length
          sentAt := now % 2 ^ s.cfg.timeW }
        responses := s.responses ++ [.status statusOk] }

/-- R108: an oversized payload is rejected before any byte is offered, and nothing changes. -/
def Obligations.SendRejectsOversizedPayload : Prop :=
  ∀ (s : State) (p : List Byte) (now : Nat), admitsCodec s = true → s.cfg.maxPayload < p.length →
    exec (.send p now) s = .next { s with responses := s.responses ++ [.status statusPayloadTooLarge] }

/-- R104, R107: where the transport fails byte number n, SEND answers TRANSPORT_ERROR, offers no later byte, records
nothing, and has marked the handshake pending exactly when n lies after the preamble. -/
def Obligations.SendStopsAtTransportFailure : Prop :=
  ∀ (s : State) (p : List Byte) (now n : Nat) (b : Byte), admitsCodec s = true → s.link.hs ≠ .unused →
    p.length ≤ s.cfg.maxPayload → (sendBytes s p)[n]? = some b → FailsAt s n →
      exec (.send p now) s = .next { s with
        events := s.events ++ ((sendBytes s p).take n).map (fun b => .tx b .ok) ++ [.tx b .fail]
        answers := s.answers.drop (n + 1)
        link := if n < preambleLength s then s.link else { s.link with hs := .pending }
        responses := s.responses ++ [.status statusTransportError] }

/-- R110: RESEND does what SEND of the recorded payload does, and where every byte is accepted it completes: only the
handshake and the time stamp change, since copying the payload onto itself changes nothing. -/
def Obligations.ResendSendsRecordedPayload : Prop :=
  ∀ (s : State) (now : Nat), admitsCodec s = true → s.link.hs ≠ .unused →
    s.link.rtBuf.length = s.cfg.maxPayload → s.link.rtLen.toNat ≤ s.cfg.maxPayload →
      exec (.resend now) s = exec (.send (s.link.rtBuf.take s.link.rtLen.toNat) now) s
      ∧ (Accepts s (sendBytes s (s.link.rtBuf.take s.link.rtLen.toNat)).length →
          exec (.resend now) s = .next { s with
            events := s.events ++ (sendBytes s (s.link.rtBuf.take s.link.rtLen.toNat)).map fun b => .tx b .ok
            answers := s.answers.drop (sendBytes s (s.link.rtBuf.take s.link.rtLen.toNat)).length
            link := { s.link with hs := .pending, sentAt := now % 2 ^ s.cfg.timeW }
            responses := s.responses ++ [.status statusOk] })

/-- R111: with nothing recorded, RESEND sends the empty payload: the preamble where no handshake is pending, then
SOF '0' '1' '0' '1'. -/
def Obligations.ResendWithNothingRecorded : Prop :=
  ∀ (s : State) (now : Nat), admitsCodec s = true → s.link.hs ≠ .unused → s.link.rtLen = 0#8 → Accepts s 7 →
    ∃ t, exec (.resend now) s = .next t ∧ t.link.hs = .pending ∧ t.link.rtLen = 0#8
      ∧ t.responses = s.responses ++ [.status statusOk]
      ∧ t.events = s.events ++ ((if s.link.hs = .pending then [] else [0x0D#8, 0x0A#8])
          ++ [s.cfg.sofByte, 0x30#8, 0x31#8, 0x30#8, 0x31#8]).map fun b => .tx b .ok

/-! ### FEED -/

/-- R131: a SOF_BYTE resets the five receive fields in every phase and touches nothing else. -/
def Obligations.FeedStartOfFrame : Prop :=
  ∀ s : State, admitsCodec s = true →
    exec (.feed s.cfg.sofByte) s = .next { s with
      link := { s.link with reading := true, rxCount := 0#8, frameLen := 0#8, rxSum := 0#8, nibValid := false }
      responses := s.responses ++ [.status statusOk] }
    ∧ exec .sof s = .next { s with
      link := { s.link with reading := true, rxCount := 0#8, frameLen := 0#8, rxSum := 0#8, nibValid := false }
      responses := s.responses ++ [.status statusOk] }

/-- R132, R133, R134: a handshake byte with a handshake pending and no listener records the outcome and notifies nobody;
with none pending it changes nothing. It answers OK, and no receive field changes in any phase. -/
def Obligations.FeedHandshakeWithoutListener : Prop :=
  ∀ s : State, admitsCodec s = true →
    (s.link.hs = .pending → s.link.listener = false →
      exec .ack s = .next { s with
        link := { s.link with hs := .acked }, responses := s.responses ++ [.status statusOk] }
      ∧ exec .nak s = .next { s with
        link := { s.link with hs := .naked }, responses := s.responses ++ [.status statusOk] })
    ∧ (s.link.hs = .acked ∨ s.link.hs = .naked →
      exec .ack s = .next { s with responses := s.responses ++ [.status statusOk] }
      ∧ exec .nak s = .next { s with responses := s.responses ++ [.status statusOk] })
    ∧ exec (.feed s.cfg.ackByte) s = exec .ack s ∧ exec (.feed s.cfg.nakByte) s = exec .nak s

/-- R134, R180 to R183: a handshake byte with a handshake pending and the queue listening. An ACK_BYTE retires the head
entry as ACKNOWLEDGED; a NAK_BYTE retires it as NEGATIVE_FINAL after 3 attempts and keeps it before; either detaches. -/
def Obligations.FeedHandshakeRunsHandle : Prop :=
  ∀ (s : State) (x : Slot), admitsCodec s = true → s.link.hs = .pending → s.link.listener = true →
    s.queue.head ≠ s.queue.tail → s.queue.slots[s.queue.head]? = some x →
      exec .ack s = .next { s with
        link := { s.link with hs := .acked, listener := false }
        queue := { s.queue with head := (s.queue.head + 1) % 2 ^ s.cfg.qcapLog2 }
        events := s.events ++ [.complete x.tag x.ctx .acknowledged]
        responses := s.responses ++ [.status statusOk] }
      ∧ (3 ≤ x.attempts → exec .nak s = .next { s with
          link := { s.link with hs := .naked, listener := false }
          queue := { s.queue with head := (s.queue.head + 1) % 2 ^ s.cfg.qcapLog2 }
          events := s.events ++ [.complete x.tag x.ctx .negativeFinal]
          responses := s.responses ++ [.status statusOk] })
      ∧ (x.attempts < 3 → exec .nak s = .next { s with
          link := { s.link with hs := .naked, listener := false }
          responses := s.responses ++ [.status statusOk] })

/-- R135: in IDLE every other byte is junk: JUNK_BYTE, and nothing written. -/
def Obligations.FeedJunkInIdle : Prop :=
  ∀ (s : State) (b : Byte), admitsCodec s = true → s.link.reading = false → b ≠ s.cfg.sofByte → b ≠ s.cfg.ackByte →
    b ≠ s.cfg.nakByte →
      exec (.feed b) s = .next { s with responses := s.responses ++ [.status statusJunkByte] }
      ∧ exec (.junkIdle b) s = .next { s with responses := s.responses ++ [.status statusJunkByte] }

/-- R136: a byte that is neither a control byte nor a hex digit, mid-frame, abandons the frame: JUNK_BYTE, no NAK, no
delivery. -/
def Obligations.FeedJunkMidFrame : Prop :=
  ∀ (s : State) (b : Byte), admitsCodec s = true → s.link.reading = true → b ≠ s.cfg.sofByte → b ≠ s.cfg.ackByte →
    b ≠ s.cfg.nakByte → hexVal b = none →
      exec (.feed b) s = .next { s with
        link := { s.link with reading := false, nibValid := false }
        responses := s.responses ++ [.status statusJunkByte] }
      ∧ exec (.junkFrame b) s = .next { s with
        link := { s.link with reading := false, nibValid := false }
        responses := s.responses ++ [.status statusJunkByte] }

/-- R137: the first digit of a pair is buffered: FEED of a digit character of either case, and each of the 22 HEX_DIGIT
rows of the opcode table, named here with its nibble. -/
def Obligations.FeedFirstDigit : Prop :=
  ∀ s : State, admitsCodec s = true → s.link.reading = true → s.link.nibValid = false →
    (∀ (b : Byte) (d : Nibble), hexVal b = some d →
      exec (.feed b) s = .next { s with
        link := { s.link with nibVal := d, nibValid := true }
        responses := s.responses ++ [.status statusOk] })
    ∧ ∀ r ∈ ([(.hexDigit0, 0x0#4), (.hexDigit1, 0x1#4), (.hexDigit2, 0x2#4), (.hexDigit3, 0x3#4), (.hexDigit4, 0x4#4),
        (.hexDigit5, 0x5#4), (.hexDigit6, 0x6#4), (.hexDigit7, 0x7#4), (.hexDigit8, 0x8#4), (.hexDigit9, 0x9#4),
        (.hexDigitUpperA, 0xA#4), (.hexDigitUpperB, 0xB#4), (.hexDigitUpperC, 0xC#4), (.hexDigitUpperD, 0xD#4), (.hexDigitUpperE, 0xE#4), (.hexDigitUpperF, 0xF#4),
        (.hexDigitLowerA, 0xA#4), (.hexDigitLowerB, 0xB#4), (.hexDigitLowerC, 0xC#4), (.hexDigitLowerD, 0xD#4), (.hexDigitLowerE, 0xE#4), (.hexDigitLowerF, 0xF#4)]
        : List (Instr × Nibble)),
      exec r.1 s = .next { s with
        link := { s.link with nibVal := r.2, nibValid := true }
        responses := s.responses ++ [.status statusOk] }

/-- R138, R139: the second digit completes the length field v = (S.nib_val << 4) | d: below 2 it is too small and above
MAX_FRAME too big, and the frame is aborted with nothing else reset; else it is taken and seeds the sum. -/
def Obligations.FeedLengthField : Prop :=
  ∀ (s : State) (b : Byte) (d : Nibble) (v : Byte), admitsCodec s = true → s.link.reading = true →
    s.link.nibValid = true → s.link.frameLen = 0#8 → hexVal b = some d →
    v = (s.link.nibVal.setWidth 8 <<< 4) ||| d.setWidth 8 →
      (v.toNat < 2 → exec (.feed b) s = .next { s with
        link := { s.link with nibValid := false, reading := false }
        responses := s.responses ++ [.status statusMessageTooSmall] })
      ∧ (s.cfg.maxFrame < v.toNat → exec (.feed b) s = .next { s with
        link := { s.link with nibValid := false, reading := false }
        responses := s.responses ++ [.status statusMessageTooBig] })
      ∧ (2 ≤ v.toNat → v.toNat ≤ s.cfg.maxFrame → exec (.feed b) s = .next { s with
        link := { s.link with nibValid := false, frameLen := v, rxCount := 0#8, rxSum := s.link.rxSum + v }
        responses := s.responses ++ [.status statusOk] })

/-- R138, R140: the second digit completes a data byte that is not terminal: it is stored, counted and summed. -/
def Obligations.FeedDataByte : Prop :=
  ∀ (s : State) (b : Byte) (d : Nibble) (v : Byte), admitsCodec s = true → s.link.reading = true →
    s.link.nibValid = true → s.link.frameLen ≠ 0#8 → hexVal b = some d →
    v = (s.link.nibVal.setWidth 8 <<< 4) ||| d.setWidth 8 →
    s.link.rxCount.toNat < s.link.rxBuf.length → s.link.rxCount + 1#8 ≠ s.link.frameLen →
      exec (.feed b) s = .next { s with
        link := { s.link with
          nibValid := false
          rxBuf := s.link.rxBuf.set s.link.rxCount.toNat v
          rxCount := s.link.rxCount + 1#8
          rxSum := s.link.rxSum + v }
        responses := s.responses ++ [.status statusOk] }

/-- R141, R142, R144: the terminal byte equal to the sum: the frame ends, ACK_BYTE is emitted, the payload
S.rx_buf[0 .. S.frame_len-2] is delivered, and FEED answers the status the consumer returned. -/
def Obligations.FeedGoodChecksumDelivers : Prop :=
  ∀ (s : State) (b : Byte) (d : Nibble) (v : Byte) (st : Status) (answers : List Answer) (statuses : List Status),
    admitsCodec s = true → s.link.reading = true → s.link.nibValid = true → s.link.frameLen ≠ 0#8 → hexVal b = some d →
    v = (s.link.nibVal.setWidth 8 <<< 4) ||| d.setWidth 8 →
    s.link.rxCount.toNat < s.link.rxBuf.length → s.link.rxCount + 1#8 = s.link.frameLen → v = s.link.rxSum →
    s.answers = .ok :: answers → s.statuses = st :: statuses →
      exec (.feed b) s = .next { s with
        link := { s.link with
          nibValid := false
          reading := false
          rxBuf := s.link.rxBuf.set s.link.rxCount.toNat v
          rxCount := s.link.frameLen }
        answers := answers
        statuses := statuses
        events := s.events
          ++ [.tx s.cfg.ackByte .ok, .deliver (s.link.rxBuf.take (s.link.frameLen.toNat - 1)) st]
        responses := s.responses ++ [.status st] }

/-- R141, R142, R203: the terminal byte unequal to the sum: the frame ends, NAK_BYTE is emitted, nothing is delivered, and
FEED answers BAD_CHECKSUM. -/
def Obligations.FeedBadChecksumRejects : Prop :=
  ∀ (s : State) (b : Byte) (d : Nibble) (v : Byte) (answers : List Answer),
    admitsCodec s = true → s.link.reading = true → s.link.nibValid = true → s.link.frameLen ≠ 0#8 → hexVal b = some d →
    v = (s.link.nibVal.setWidth 8 <<< 4) ||| d.setWidth 8 →
    s.link.rxCount.toNat < s.link.rxBuf.length → s.link.rxCount + 1#8 = s.link.frameLen → v ≠ s.link.rxSum →
    s.answers = .ok :: answers →
      exec (.feed b) s = .next { s with
        link := { s.link with
          nibValid := false
          reading := false
          rxBuf := s.link.rxBuf.set s.link.rxCount.toNat v
          rxCount := s.link.frameLen }
        answers := answers
        events := s.events ++ [.tx s.cfg.nakByte .ok]
        responses := s.responses ++ [.status statusBadChecksum] }

/-- R143: a failed ACK or NAK reply: TRANSPORT_ERROR at once, nothing delivered, and the receive state is IDLE
already. -/
def Obligations.FeedReplyFailure : Prop :=
  ∀ (s : State) (b : Byte) (d : Nibble) (v : Byte) (answers : List Answer),
    admitsCodec s = true → s.link.reading = true → s.link.nibValid = true → s.link.frameLen ≠ 0#8 → hexVal b = some d →
    v = (s.link.nibVal.setWidth 8 <<< 4) ||| d.setWidth 8 →
    s.link.rxCount.toNat < s.link.rxBuf.length → s.link.rxCount + 1#8 = s.link.frameLen →
    s.answers = .fail :: answers →
      exec (.feed b) s = .next { s with
        link := { s.link with
          nibValid := false
          reading := false
          rxBuf := s.link.rxBuf.set s.link.rxCount.toNat v
          rxCount := s.link.frameLen }
        answers := answers
        events := s.events ++ [.tx (if v = s.link.rxSum then s.cfg.ackByte else s.cfg.nakByte) .fail]
        responses := s.responses ++ [.status statusTransportError] }

/-! ### The queue -/

/-- R180 to R183: HANDLE, on every outcome: on an empty queue it only detaches; OUT_ACK or 3 attempts retire the head
entry with the outcome's completion, the notification first; otherwise the entry is kept; it always detaches. -/
def Obligations.HandleResult : Prop :=
  ∀ (s : State) (o : HandshakeOutcome),
    (s.queue.head = s.queue.tail →
      exec (.handle o) s = .next { s with link := { s.link with listener := false } })
    ∧ ∀ x : Slot, s.queue.head ≠ s.queue.tail → s.queue.slots[s.queue.head]? = some x →
      (o = .outAck ∨ 3 ≤ x.attempts →
        exec (.handle o) s = .next { s with
          link := { s.link with listener := false }
          queue := { s.queue with head := (s.queue.head + 1) % 2 ^ s.cfg.qcapLog2 }
          events := s.events ++ [.complete x.tag x.ctx (match o with
            | .outAck => .acknowledged
            | .outNak => .negativeFinal
            | .outTimeout => .retriesExhausted)] })
      ∧ (o ≠ .outAck → x.attempts < 3 →
        exec (.handle o) s = .next { s with link := { s.link with listener := false } })

/-- R172, R173: SUBMIT of an oversized payload, and SUBMIT on a full queue, are rejected in that order: no slot, index or
codec state changes and no DRAIN runs. -/
def Obligations.SubmitRejections : Prop :=
  ∀ (s : State) (p : List Byte) (tag ctx now : Nat), admitsQueue s = true →
    (s.cfg.maxPayload < p.length →
      exec (.submit p tag ctx now) s = .next { s with responses := s.responses ++ [.status statusPayloadTooLarge] })
    ∧ (p.length ≤ s.cfg.maxPayload →
        (((s.queue.tail : Int) - s.queue.head) % 2 ^ s.cfg.qcapLog2).toNat = 2 ^ s.cfg.qcapLog2 - 1 →
      exec (.submit p tag ctx now) s = .next { s with responses := s.responses ++ [.status statusQueueFull] })

/-- R171, R174, R177: SUBMIT while the codec is busy only enqueues: the entry is written at the tail with no attempts, the
tail advances, and its DRAIN changes nothing. -/
def Obligations.SubmitWhileBusyEnqueues : Prop :=
  ∀ (s : State) (p : List Byte) (tag ctx now : Nat) (old : Slot), Inv s → admitsQueue s = true →
    p.length ≤ s.cfg.maxPayload → live s.cfg s.queue ≠ s.cfg.qcap - 1 → s.queue.slots[s.queue.tail]? = some old →
    s.link.hs = .pending → ¬TimedOut s.cfg now s.link.sentAt →
      exec (.submit p tag ctx now) s = .next { s with
        queue := { s.queue with
          tail := (s.queue.tail + 1) % 2 ^ s.cfg.qcapLog2
          slots := s.queue.slots.set s.queue.tail {
            len := BitVec.ofNat 8 p.length
            data := p ++ old.data.drop p.length
            attempts := 0
            tag := tag % 2 ^ s.cfg.tagW
            ctx := ctx % 2 ^ s.cfg.ctxW } }
        responses := s.responses ++ [.status statusOk] }

/-- R171, R174, R179: SUBMIT into an empty queue with a resolved handshake sends at once, as attempt 1. -/
def Obligations.SubmitSendsAtOnce : Prop :=
  ∀ (s : State) (p : List Byte) (tag ctx now : Nat) (old : Slot), Inv s → admitsQueue s = true →
    p.length ≤ s.cfg.maxPayload → s.queue.head = s.queue.tail → s.queue.slots[s.queue.tail]? = some old →
    s.link.hs ≠ .pending → Accepts s (2 + (frameBytes s.cfg p).length) →
      exec (.submit p tag ctx now) s = .next { s with
        events := s.events ++ (0x0D#8 :: 0x0A#8 :: frameBytes s.cfg p).map fun b => .tx b .ok
        answers := s.answers.drop (2 + (frameBytes s.cfg p).length)
        link := { s.link with
          hs := .pending
          rtBuf := p ++ s.link.rtBuf.drop p.length
          rtLen := BitVec.ofNat 8 p.length
          sentAt := now % 2 ^ s.cfg.timeW
          listener := true }
        queue := { s.queue with
          tail := (s.queue.tail + 1) % 2 ^ s.cfg.qcapLog2
          slots := s.queue.slots.set s.queue.tail {
            len := BitVec.ofNat 8 p.length
            data := p ++ old.data.drop p.length
            attempts := 1
            tag := tag % 2 ^ s.cfg.tagW
            ctx := ctx % 2 ^ s.cfg.ctxW } }
        responses := s.responses ++ [.status statusOk] }

/-- R171, R174, R178, R179: SUBMIT on a queue that is not empty, with the codec not busy: the entry is written at the tail with
no attempts, and its DRAIN concerns the old head entry x. With the handshake resolved, or timed out and heard by nobody, x is
sent, as one more attempt; timed out with the queue listening, x is retired as RETRIES_EXHAUSTED after 3 attempts and kept
before, and nothing is sent. -/
def Obligations.SubmitServesOldHead : Prop :=
  ∀ (s : State) (p h : List Byte) (tag ctx now : Nat) (old x : Slot), Inv s → admitsQueue s = true →
    p.length ≤ s.cfg.maxPayload → live s.cfg s.queue ≠ s.cfg.qcap - 1 → s.queue.slots[s.queue.tail]? = some old →
    s.queue.head ≠ s.queue.tail → s.queue.slots[s.queue.head]? = some x → h = x.data.take x.len.toNat →
    ((s.link.hs ≠ .pending ∨ (s.link.listener = false ∧ TimedOut s.cfg now s.link.sentAt)) →
      Accepts s (sendBytes s h).length →
      exec (.submit p tag ctx now) s = .next { s with
        events := s.events ++ (sendBytes s h).map fun b => .tx b .ok
        answers := s.answers.drop (sendBytes s h).length
        link := { s.link with
          hs := .pending
          rtBuf := h ++ s.link.rtBuf.drop h.length
          rtLen := x.len
          sentAt := now % 2 ^ s.cfg.timeW
          listener := true }
        queue := { s.queue with
          tail := (s.queue.tail + 1) % 2 ^ s.cfg.qcapLog2
          slots := (s.queue.slots.set s.queue.tail (submittedEntry s.cfg old p tag ctx)).set s.queue.head
            { x with attempts := min (x.attempts + 1) (2 ^ s.cfg.attW - 1) } }
        responses := s.responses ++ [.status statusOk] })
    ∧ (s.link.hs = .pending → s.link.listener = true → TimedOut s.cfg now s.link.sentAt →
      exec (.submit p tag ctx now) s = .next { s with
        events := s.events ++ (if 3 ≤ x.attempts then [.complete x.tag x.ctx .retriesExhausted] else [])
        link := { s.link with listener := false }
        queue := {
          head := if 3 ≤ x.attempts then (s.queue.head + 1) % 2 ^ s.cfg.qcapLog2 else s.queue.head
          tail := (s.queue.tail + 1) % 2 ^ s.cfg.qcapLog2
          slots := s.queue.slots.set s.queue.tail (submittedEntry s.cfg old p tag ctx) }
        responses := s.responses ++ [.status statusOk] })

/-- R171, R174, R175: SUBMIT of a payload that fits, on a queue that is not full, writes the entry into the tail slot, advances
the tail, and then does what DRAIN does on that state, whatever that is; UPDATE does what DRAIN does. Each answers OK. That
DRAIN is an instruction is the model's choice (log 10). -/
def Obligations.SubmitAndUpdateAnswerOk : Prop :=
  ∀ s : State, Inv s → admitsQueue s = true →
    (∀ (p : List Byte) (tag ctx now : Nat), p.length ≤ s.cfg.maxPayload → live s.cfg s.queue ≠ s.cfg.qcap - 1 →
      ∃ old t, s.queue.slots[s.queue.tail]? = some old
        ∧ exec (.drain now) (afterEnqueue s old p tag ctx) = .next t ∧ t.responses = s.responses
        ∧ exec (.submit p tag ctx now) s = .next { t with responses := s.responses ++ [.status statusOk] })
    ∧ ∀ now : Nat, ∃ t, exec (.drain now) s = .next t ∧ t.responses = s.responses
        ∧ exec (.update now) s = .next { t with responses := s.responses ++ [.status statusOk] }

/-- R176, R177: DRAIN of an empty queue, or with the codec busy, changes nothing; UPDATE then only answers OK. -/
def Obligations.DrainDoesNothing : Prop :=
  ∀ (s : State) (now : Nat),
    s.queue.head = s.queue.tail ∨ (s.link.hs = .pending ∧ ¬TimedOut s.cfg now s.link.sentAt) →
      exec (.drain now) s = .next s
      ∧ (admitsQueue s = true →
          exec (.update now) s = .next { s with responses := s.responses ++ [.status statusOk] })

/-- R178, R180: DRAIN on a timeout with the queue listening runs HANDLE(OUT_TIMEOUT) and does not send: the entry is retired
as RETRIES_EXHAUSTED after 3 attempts and kept before; S.hs stays PENDING. -/
def Obligations.DrainHandlesTimeout : Prop :=
  ∀ (s : State) (now : Nat) (x : Slot), s.queue.head ≠ s.queue.tail → s.queue.slots[s.queue.head]? = some x →
    s.link.hs = .pending → s.link.listener = true → TimedOut s.cfg now s.link.sentAt →
    ∃ t, t = (if 3 ≤ x.attempts then
        { s with
          link := { s.link with listener := false }
          queue := { s.queue with head := (s.queue.head + 1) % 2 ^ s.cfg.qcapLog2 }
          events := s.events ++ [.complete x.tag x.ctx .retriesExhausted] }
      else { s with link := { s.link with listener := false } })
      ∧ exec (.drain now) s = .next t
      ∧ (admitsQueue s = true →
          exec (.update now) s = .next { t with responses := s.responses ++ [.status statusOk] })

/-- R179, R184: DRAIN's send: with the handshake resolved, or timed out and nobody listening, the head entry's attempts go
up by one, saturating, the queue listens, and the head entry's payload is sent. -/
def Obligations.DrainSendsHead : Prop :=
  ∀ (s : State) (now : Nat) (x : Slot) (p : List Byte), s.queue.head ≠ s.queue.tail →
    s.queue.slots[s.queue.head]? = some x → x.len.toNat ≤ x.data.length → x.len.toNat ≤ s.cfg.maxPayload →
    p = x.data.take x.len.toNat → s.link.rtBuf.length = s.cfg.maxPayload →
    (s.link.hs = .acked ∨ s.link.hs = .naked
      ∨ (s.link.hs = .pending ∧ s.link.listener = false ∧ TimedOut s.cfg now s.link.sentAt)) →
    Accepts s (sendBytes s p).length →
    ∃ t, t = { s with
        events := s.events ++ (sendBytes s p).map fun b => .tx b .ok
        answers := s.answers.drop (sendBytes s p).length
        link := { s.link with
          hs := .pending
          rtBuf := p ++ s.link.rtBuf.drop p.length
          rtLen := BitVec.ofNat 8 p.length
          sentAt := now % 2 ^ s.cfg.timeW
          listener := true }
        queue := { s.queue with
          slots := s.queue.slots.set s.queue.head { x with attempts := min (x.attempts + 1) (2 ^ s.cfg.attW - 1) } } }
      ∧ exec (.drain now) s = .next t
      ∧ (admitsQueue s = true →
          exec (.update now) s = .next { t with responses := s.responses ++ [.status statusOk] })

/-- R240: a DRAIN whose send fails at byte n counts the attempt and listens, restamps and records nothing, and calls no HANDLE,
whatever the attempt count: no entry is retired. (b) In the preamble, S.hs stays resolved. (a) At the SOF byte or later, with
or without a preamble before it, S.hs is PENDING. UPDATE does the same and answers OK. -/
def Obligations.PreambleFailureCountsAttempt : Prop :=
  ∀ (s : State) (now n : Nat) (x : Slot) (p : List Byte) (b : Byte), s.queue.head ≠ s.queue.tail →
    s.queue.slots[s.queue.head]? = some x → x.len.toNat ≤ x.data.length → x.len.toNat ≤ s.cfg.maxPayload →
    p = x.data.take x.len.toNat →
    (s.link.hs = .acked ∨ s.link.hs = .naked
      ∨ (s.link.hs = .pending ∧ s.link.listener = false ∧ TimedOut s.cfg now s.link.sentAt)) →
    (sendBytes s p)[n]? = some b → FailsAt s n →
    ∃ t, t = { s with
        events := s.events ++ ((sendBytes s p).take n).map (fun b => .tx b .ok) ++ [.tx b .fail]
        answers := s.answers.drop (n + 1)
        link := { s.link with hs := if n < preambleLength s then s.link.hs else .pending, listener := true }
        queue := { s.queue with
          slots := s.queue.slots.set s.queue.head { x with attempts := min (x.attempts + 1) (2 ^ s.cfg.attW - 1) } } }
      ∧ exec (.drain now) s = .next t
      ∧ (admitsQueue s = true →
          exec (.update now) s = .next { t with responses := s.responses ++ [.status statusOk] })

/-- R187. From an empty queue, a run of SUBMITs of payloads that fit, each with its own tag, ctx and now, whatever the
handshake and the transport: where no entry is retired in it, the first QCAP - 1 answer OK and every later one QUEUE_FULL.
None is retired where all carry the same now and the codec is busy at it, or the handshake is resolved and the first SUBMIT's
send is accepted. On a full queue, after any instruction but QUEUE_INIT that retires an entry, one more SUBMIT answers OK;
FEED of ACK_BYTE with a handshake pending and the queue listening retires one. HANDLE and DRAIN as instructions (log 10) are
among those that retire. -/
def Obligations.QueueHoldsCapacityLessOne : Prop :=
  ∀ s : State, Inv s → admitsQueue s = true →
    (∀ submits : List Instr, s.queue.head = s.queue.tail →
      (∀ i ∈ submits, ∃ p tag ctx now, i = .submit p tag ctx now ∧ p.length ≤ s.cfg.maxPayload) →
      ∃ t, execAll submits s = .next t
        ∧ (completions t.events = completions s.events →
            t.responses = s.responses ++ List.replicate (min submits.length (s.cfg.qcap - 1)) (.status statusOk)
              ++ List.replicate (submits.length - (s.cfg.qcap - 1)) (.status statusQueueFull))
        ∧ ∀ now, (∀ i ∈ submits, ∃ p tag ctx, i = .submit p tag ctx now) →
            ((s.link.hs = .pending ∧ ¬TimedOut s.cfg now s.link.sentAt)
              ∨ (s.link.hs ≠ .pending ∧ ∀ p tag ctx, submits.head? = some (.submit p tag ctx now) →
                  Accepts s (2 + (frameBytes s.cfg p).length))) →
            completions t.events = completions s.events)
    ∧ (live s.cfg s.queue = s.cfg.qcap - 1 →
      (∀ (i : Instr) (u : State) (q : List Byte) (tag ctx now : Nat), i ≠ .queueInit → exec i s = .next u →
        u.queue.head ≠ s.queue.head → q.length ≤ s.cfg.maxPayload →
          ∃ v, exec (.submit q tag ctx now) u = .next v ∧ v.responses = u.responses ++ [.status statusOk])
      ∧ (s.link.hs = .pending → s.link.listener = true →
          ∃ u, exec (.feed s.cfg.ackByte) s = .next u ∧ u.queue.head = (s.queue.head + 1) % 2 ^ s.cfg.qcapLog2
            ∧ u.queue.head ≠ s.queue.head))

/-- R185, R182, R189, R34: S.head advances only past the head entry of a queue that is not empty, with exactly one
notification, that entry's; no other command notifies; and only SUBMIT moves S.tail. QUEUE_INIT is apart (R241). -/
def Obligations.OnlyHeadEntryRetires : Prop :=
  ∀ (i : Instr) (s t : State), i ≠ .queueInit → exec i s = .next t →
    ((t.queue.head = s.queue.head ∧ completions t.events = completions s.events)
      ∨ ∃ (x : Slot) (o : Completion), s.queue.head ≠ s.queue.tail ∧ s.queue.slots[s.queue.head]? = some x
        ∧ t.queue.head = (s.queue.head + 1) % 2 ^ s.cfg.qcapLog2
        ∧ completions t.events = completions s.events ++ [.complete x.tag x.ctx o])
    ∧ (t.queue.tail = s.queue.tail
        ∨ t.queue.tail = (s.queue.tail + 1) % 2 ^ s.cfg.qcapLog2 ∧ ∃ p tag ctx now, i = .submit p tag ctx now)

/-- R188: a head entry that no handshake byte answers, drained at times that reach each timeout, is sent exactly three times
and is then retired as RETRIES_EXHAUSTED; the queue no longer listens. The first send is UPDATE's, of an entry that waits with
no attempts, or SUBMIT's, of its own entry into an empty queue; it has a preamble where the handshake is resolved and none
where one is pending, timed out and heard by nobody. The later two have none. -/
def Obligations.ThreeSendsThenExhausted : Prop :=
  ∀ (s : State) (t1 t2 t3 t4 t5 t6 : Nat), Inv s → admitsQueue s = true →
    (s.link.hs ≠ .pending ∨ (s.link.listener = false ∧ TimedOut s.cfg t1 s.link.sentAt)) →
    TimedOut s.cfg t2 t1 → TimedOut s.cfg t3 t1 → TimedOut s.cfg t4 t3 → TimedOut s.cfg t5 t3 → TimedOut s.cfg t6 t5 →
    (∀ (x : Slot) (p : List Byte), s.queue.head ≠ s.queue.tail → s.queue.slots[s.queue.head]? = some x → x.attempts = 0 →
      p = x.data.take x.len.toNat → Accepts s ((sendBytes s p).length + 2 * (frameBytes s.cfg p).length) →
      ∃ u, execAll [.update t1, .update t2, .update t3, .update t4, .update t5, .update t6] s = .next u
        ∧ u.events = s.events ++ (sendBytes s p ++ frameBytes s.cfg p ++ frameBytes s.cfg p).map (fun b => .tx b .ok)
            ++ [.complete x.tag x.ctx .retriesExhausted]
        ∧ u.queue.head = (s.queue.head + 1) % 2 ^ s.cfg.qcapLog2 ∧ u.queue.tail = s.queue.tail
        ∧ u.link.listener = false ∧ u.link.hs = .pending)
    ∧ ∀ (p : List Byte) (tag ctx : Nat), s.queue.head = s.queue.tail → p.length ≤ s.cfg.maxPayload →
      Accepts s ((sendBytes s p).length + 2 * (frameBytes s.cfg p).length) →
      ∃ u, execAll [.submit p tag ctx t1, .update t2, .update t3, .update t4, .update t5, .update t6] s = .next u
        ∧ u.events = s.events ++ (sendBytes s p ++ frameBytes s.cfg p ++ frameBytes s.cfg p).map (fun b => .tx b .ok)
            ++ [.complete (tag % 2 ^ s.cfg.tagW) (ctx % 2 ^ s.cfg.ctxW) .retriesExhausted]
        ∧ u.queue.head = (s.queue.head + 1) % 2 ^ s.cfg.qcapLog2 ∧ u.queue.tail = u.queue.head
        ∧ u.link.listener = false ∧ u.link.hs = .pending

/-! ### Frames through the decoder -/

/-- R145: whatever the state before, the characters of a frame, in either case of its letters, with or without a preamble
in front: the bytes before the last give no event, and the last gives the ACK reply and then the delivery of exactly its
payload, answered by the consumer's status; the frame is over and the handshake and the queue are untouched. -/
def Obligations.FrameResynchronizes : Prop :=
  ∀ (s : State) (p most front : List Byte) (last : Byte) (st : Status) (answers : List Answer) (statuses : List Status),
    admitsCodec s = true → s.link.rxBuf.length = s.cfg.maxFrame → 1 ≤ p.length → p.length ≤ s.cfg.maxPayload →
    (front = [] ∨ front = [0x0D#8, 0x0A#8]) →
    decodeDigits (most ++ [last]) = some (BitVec.ofNat 8 (p.length + 1) :: (p ++ [checksum p])) →
    s.answers = .ok :: answers → s.statuses = st :: statuses →
    ∃ u t, execAll ((front ++ s.cfg.sofByte :: most).map .feed) s = .next u ∧ u.events = s.events
      ∧ exec (.feed last) u = .next t ∧ execAll ((front ++ s.cfg.sofByte :: (most ++ [last])).map .feed) s = .next t
      ∧ t.events = s.events ++ [.tx s.cfg.ackByte .ok, .deliver p st]
      ∧ t.responses = u.responses ++ [.status st]
      ∧ t.link.reading = false ∧ t.link.hs = s.link.hs ∧ t.link.listener = s.link.listener ∧ t.queue = s.queue

/-- R146: a frame that arrives with exactly one payload byte, or its checksum byte, changed to another value, every
character still a hex digit, is answered with NAK and BAD_CHECKSUM (the transport accepting the reply) and never
delivered. -/
def Obligations.OneChangedByteIsDetected : Prop :=
  ∀ (s : State) (p p' chars : List Byte) (c : Byte) (answers : List Answer),
    admitsCodec s = true → s.link.rxBuf.length = s.cfg.maxFrame → 1 ≤ p.length → p.length ≤ s.cfg.maxPayload →
    ((∃ (i : Nat) (v w : Byte), p[i]? = some v ∧ w ≠ v ∧ p' = p.set i w ∧ c = checksum p) ∨ (p' = p ∧ c ≠ checksum p)) →
    decodeDigits chars = some (BitVec.ofNat 8 (p.length + 1) :: (p' ++ [c])) → s.answers = .ok :: answers →
    ∃ t, execAll ((s.cfg.sofByte :: chars).map .feed) s = .next t
      ∧ t.events = s.events ++ [.tx s.cfg.nakByte .ok]
      ∧ t.responses.getLast? = some (.status statusBadChecksum)

/-- R147: what a SEND puts on the wire, fed byte for byte into a second instance in any admitted state, is delivered there
exactly; an empty payload is answered MESSAGE_TOO_SMALL and not delivered. The second instance has the SOF_BYTE of the first
and a MAX_PAYLOAD that the payload fits, which R147 leaves unsaid; its other parameters are its own (R216). -/
def Obligations.RoundTripThroughPeer : Prop :=
  ∀ (a b : State) (p : List Byte) (now : Nat) (st : Status) (answers : List Answer) (statuses : List Status),
    admitsCodec a = true → a.link.hs ≠ .unused → a.link.rtBuf.length = a.cfg.maxPayload →
    p.length ≤ a.cfg.maxPayload → Accepts a (sendBytes a p).length →
    admitsCodec b = true → b.cfg.sofByte = a.cfg.sofByte → p.length ≤ b.cfg.maxPayload →
    b.link.rxBuf.length = b.cfg.maxFrame → b.answers = .ok :: answers → b.statuses = st :: statuses →
    ∃ a' b', exec (.send p now) a = .next a' ∧ execAll (wire a.events.length a'.events) b = .next b'
      ∧ (1 ≤ p.length → b'.events = b.events ++ [.tx b.cfg.ackByte .ok, .deliver p st]
          ∧ b'.responses.getLast? = some (.status st))
      ∧ (p.length = 0 → b'.events = b.events
          ∧ ∃ before, b'.responses = b.responses ++ before ++ [.status statusOk, .status statusOk,
              .status statusMessageTooSmall, .status statusJunkByte, .status statusJunkByte])

/-! ### Rules of the whole machine -/

/-- R41: what each command leaves alone. FEED never touches what was sent, the tail or a slot; READINESS writes nothing; a
send never touches the receive fields, the listener or the queue; the queue's commands never touch the receive fields, and of
the slots UPDATE and DRAIN write the head's attempts alone, SUBMIT the tail's slot besides; CODEC_INIT and the refused commands
never touch the queue. So, from the invariant, no instruction but QUEUE_INIT changes a live entry but to raise its attempts
(R35, I7). -/
def Obligations.CommandsWriteOnlyTheirFields : Prop :=
  ∀ (i : Instr) (s t : State), exec i s = .next t →
    (isFeed i = true → SameSent s t ∧ t.queue.tail = s.queue.tail ∧ t.queue.slots = s.queue.slots
      ∧ t.codecInit = s.codecInit ∧ t.queueInit = s.queueInit)
    ∧ (∀ now, i = .readiness now → t.link = s.link ∧ t.queue = s.queue ∧ t.events = s.events ∧ t.answers = s.answers)
    ∧ (∀ p now, i = .send p now ∨ i = .resend now →
        SameReceive s t ∧ t.link.listener = s.link.listener ∧ t.queue = s.queue ∧ t.statuses = s.statuses)
    ∧ (∀ p tag ctx now, i = .submit p tag ctx now ∨ i = .update now ∨ i = .drain now →
        SameReceive s t ∧ t.statuses = s.statuses ∧ t.queueInit = s.queueInit ∧ t.codecInit = s.codecInit)
    ∧ (∀ now, i = .update now ∨ i = .drain now → ∀ j, HeadAttemptsAlone s t j)
    ∧ (∀ p tag ctx now, i = .submit p tag ctx now → ∀ j, j ≠ s.queue.tail → HeadAttemptsAlone s t j)
    ∧ (∀ o, i = .handle o → SameReceive s t ∧ SameSent s t ∧ t.link.hs = s.link.hs ∧ t.queue.tail = s.queue.tail
        ∧ t.queue.slots = s.queue.slots ∧ t.responses = s.responses ∧ t.answers = s.answers ∧ t.statuses = s.statuses)
    ∧ (i = .codecInit → t.queue = s.queue ∧ t.queueInit = s.queueInit ∧ t.events = s.events)
    ∧ (i = .queueInit → SameReceive s t ∧ SameSent s t ∧ t.link.hs = s.link.hs ∧ t.events = s.events)
    ∧ (∀ h, i = .reserved h → t.link = s.link ∧ t.queue = s.queue ∧ t.events = s.events ∧ t.responses = s.responses)
    ∧ (Inv s → i ≠ .queueInit → ∀ k, k < live s.cfg s.queue →
        ∃ x y, s.queue.slots[(s.queue.head + k) % s.cfg.qcap]? = some x
          ∧ t.queue.slots[(s.queue.head + k) % s.cfg.qcap]? = some y ∧ SameEntry x y ∧ x.attempts ≤ y.attempts)

/-- R210: the events of one command: a FEED gives the reply and delivery of a terminal byte, or at most one notification;
a SEND gives Tx events in wire order, and a RESEND those of the recorded payload; a DRAIN gives one notification or the Tx events of one send, never both; and
SUBMIT and UPDATE give those of their one DRAIN. -/
def Obligations.EventsOfOneCommand : Prop :=
  ∀ (i : Instr) (s t : State), exec i s = .next t →
    ∃ new, t.events = s.events ++ new
      ∧ (isFeed i = true → new = [] ∨ (∃ tag ctx o, new = [.complete tag ctx o])
          ∨ (∃ p st, new = [.tx s.cfg.ackByte .ok, .deliver p st]) ∨ new = [.tx s.cfg.ackByte .fail]
          ∨ ∃ r, new = [.tx s.cfg.nakByte r])
      ∧ (∀ p now, i = .send p now → ∃ k, new.map txByte = ((sendBytes s p).take k).map some)
      ∧ (∀ now, i = .resend now →
          ∃ k, new.map txByte = ((sendBytes s (s.link.rtBuf.take s.link.rtLen.toNat)).take k).map some)
      ∧ (∀ p tag ctx now, i = .submit p tag ctx now ∨ i = .update now ∨ i = .drain now →
          (∃ tag ctx o, new = [.complete tag ctx o])
            ∨ ∃ p k, new.map txByte = ((sendBytes s p).take k).map some)

/-- R245: every command is bounded: one command appends at most 2 MAX_PAYLOAD + 7 events and one response, and the logs
only grow. -/
def Obligations.EveryCommandIsBounded : Prop :=
  ∀ (i : Instr) (s t : State), exec i s = .next t →
    (∃ new, t.events = s.events ++ new ∧ new.length ≤ 2 * s.cfg.maxPayload + 7)
      ∧ ∃ given, t.responses = s.responses ++ given ∧ given.length ≤ 1
end

