-- ==== Sys2Proof/Laws/Bits.lean ====
section
/-! SUPPORT. Laws of the bit strings, the header fields and the hex digits. -/

namespace Sys2Proof

@[simp] theorem toBits_length (w v : Nat) : (toBits w v).length = w := by
  induction w with
  | zero => rfl
  | succ w ih => simp [toBits, ih]

@[simp] theorem bytesToBits_length (p : List Byte) : (bytesToBits p).length = 8 * p.length := by
  induction p with
  | nil => rfl
  | cons b p ih => simp [bytesToBits, ih]; omega

@[simp] theorem readBytes_length (n : Nat) (bits : List Bool) : (readBytes n bits).length = n := by
  induction n generalizing bits with
  | zero => rfl
  | succ n ih => simp [readBytes, ih]

/-- The value of a bit string read from an accumulator: the accumulator moves up by the string's length. -/
theorem foldl_bits (bits : List Bool) (n : Nat) :
    bits.foldl (fun n b => 2 * n + b.toNat) n = n * 2 ^ bits.length + ofBits bits := by
  unfold ofBits
  induction bits generalizing n with
  | nil => simp
  | cons b bits ih =>
    simp only [List.foldl_cons, List.length_cons]
    rw [ih, ih (2 * 0 + b.toNat)]
    ring

theorem ofBits_cons (b : Bool) (bits : List Bool) : ofBits (b :: bits) = b.toNat * 2 ^ bits.length + ofBits bits := by
  have h := foldl_bits bits b.toNat
  simpa [ofBits] using h

theorem ofBits_lt (bits : List Bool) : ofBits bits < 2 ^ bits.length := by
  induction bits with
  | nil => simp [ofBits]
  | cons b bits ih =>
    rw [ofBits_cons, List.length_cons, Nat.pow_succ]
    cases b <;> simp <;> omega

/-- Reading back a written number gives its low bits. -/
theorem ofBits_toBits (w v : Nat) : ofBits (toBits w v) = v % 2 ^ w := by
  induction w with
  | zero => simp [toBits, ofBits, Nat.mod_one]
  | succ w ih =>
    rw [toBits, ofBits_cons, ih, toBits_length, Nat.mod_pow_succ, Nat.toNat_testBit, Nat.add_comm, Nat.mul_comm]

/-- toBits looks at the low bits alone. -/
theorem toBits_mod (w v : Nat) : toBits w (v % 2 ^ w) = toBits w v := by
  suffices h : ∀ k, w ≤ k → toBits w (v % 2 ^ k) = toBits w v from h w (Nat.le_refl w)
  induction w with
  | zero => intro k _; rfl
  | succ w ih =>
    intro k hk
    simp [toBits, Nat.testBit_mod_two_pow, ih k (by omega)]
    omega

/-- Writing back a read bit string gives it. -/
theorem toBits_ofBits (bits : List Bool) : toBits bits.length (ofBits bits) = bits := by
  induction bits with
  | nil => rfl
  | cons b bits ih =>
    have hlt := ofBits_lt bits
    rw [List.length_cons, toBits, ofBits_cons]
    congr 1
    · cases b
      · simpa using Nat.testBit_lt_two_pow hlt
      · simpa [Nat.testBit_two_pow_add_eq] using Nat.testBit_lt_two_pow hlt
    · rw [← toBits_mod]
      simpa [Nat.add_mod, Nat.mod_eq_of_lt hlt] using ih

theorem readBytes_bytesToBits (p : List Byte) (rest : List Bool) :
    readBytes p.length (bytesToBits p ++ rest) = p := by
  induction p with
  | nil => rfl
  | cons b p ih =>
    have h8 : (toBits 8 b.toNat).length = 8 := toBits_length 8 b.toNat
    simp only [List.length_cons, bytesToBits, readBytes, List.append_assoc]
    rw [List.take_left' h8, List.drop_left' h8, ih, ofBits_toBits, Nat.mod_eq_of_lt b.isLt, BitVec.ofNat_toNat, BitVec.setWidth_eq]

/-- A byte is its two nibbles (R72). -/
theorem pairNibbles_nibbles (v : Byte) : pairNibbles (highNibble v) (lowNibble v) = v := by
  revert v; decide

/-- R138's form of the decoded byte. -/
theorem pairNibbles_eq (hi lo : Nibble) : pairNibbles hi lo = (hi.setWidth 8 <<< 4) ||| lo.setWidth 8 := by
  revert hi lo; decide

/-- An emitted digit is read back (R70, R71). -/
theorem hexVal_hexChar (d : Nibble) : hexVal (hexChar d) = some d := by
  revert d; decide

end Sys2Proof
end

