-- ==== Sys2Proof/Laws/State.lean ====
section
/-! SUPPORT. One lemma per field per named update of the state, so that no proof unfolds a record update. -/

namespace Sys2Proof.Machine

variable (s : State)

@[simp] theorem State.setLink_cfg (l : LinkState) : (s.setLink l).cfg = s.cfg := rfl
@[simp] theorem State.setLink_link (l : LinkState) : (s.setLink l).link = l := rfl
@[simp] theorem State.setLink_queue (l : LinkState) : (s.setLink l).queue = s.queue := rfl
@[simp] theorem State.setLink_codecInit (l : LinkState) : (s.setLink l).codecInit = s.codecInit := rfl
@[simp] theorem State.setLink_queueInit (l : LinkState) : (s.setLink l).queueInit = s.queueInit := rfl
@[simp] theorem State.setLink_refused (l : LinkState) : (s.setLink l).refused = s.refused := rfl
@[simp] theorem State.setLink_events (l : LinkState) : (s.setLink l).events = s.events := rfl
@[simp] theorem State.setLink_responses (l : LinkState) : (s.setLink l).responses = s.responses := rfl
@[simp] theorem State.setLink_answers (l : LinkState) : (s.setLink l).answers = s.answers := rfl
@[simp] theorem State.setLink_statuses (l : LinkState) : (s.setLink l).statuses = s.statuses := rfl
@[simp] theorem State.setLink_arrivals (l : LinkState) : (s.setLink l).arrivals = s.arrivals := rfl
@[simp] theorem State.setLink_freeCount (l : LinkState) : (s.setLink l).freeCount = s.freeCount := rfl

@[simp] theorem State.setQueue_cfg (q : QueueState) : (s.setQueue q).cfg = s.cfg := rfl
@[simp] theorem State.setQueue_link (q : QueueState) : (s.setQueue q).link = s.link := rfl
@[simp] theorem State.setQueue_queue (q : QueueState) : (s.setQueue q).queue = q := rfl
@[simp] theorem State.setQueue_codecInit (q : QueueState) : (s.setQueue q).codecInit = s.codecInit := rfl
@[simp] theorem State.setQueue_queueInit (q : QueueState) : (s.setQueue q).queueInit = s.queueInit := rfl
@[simp] theorem State.setQueue_refused (q : QueueState) : (s.setQueue q).refused = s.refused := rfl
@[simp] theorem State.setQueue_events (q : QueueState) : (s.setQueue q).events = s.events := rfl
@[simp] theorem State.setQueue_responses (q : QueueState) : (s.setQueue q).responses = s.responses := rfl
@[simp] theorem State.setQueue_answers (q : QueueState) : (s.setQueue q).answers = s.answers := rfl
@[simp] theorem State.setQueue_statuses (q : QueueState) : (s.setQueue q).statuses = s.statuses := rfl
@[simp] theorem State.setQueue_arrivals (q : QueueState) : (s.setQueue q).arrivals = s.arrivals := rfl
@[simp] theorem State.setQueue_freeCount (q : QueueState) : (s.setQueue q).freeCount = s.freeCount := rfl

@[simp] theorem State.markCodecInit_cfg : s.markCodecInit.cfg = s.cfg := rfl
@[simp] theorem State.markCodecInit_link : s.markCodecInit.link = s.link := rfl
@[simp] theorem State.markCodecInit_queue : s.markCodecInit.queue = s.queue := rfl
@[simp] theorem State.markCodecInit_codecInit : s.markCodecInit.codecInit = true := rfl
@[simp] theorem State.markCodecInit_queueInit : s.markCodecInit.queueInit = s.queueInit := rfl
@[simp] theorem State.markCodecInit_refused : s.markCodecInit.refused = s.refused := rfl
@[simp] theorem State.markCodecInit_events : s.markCodecInit.events = s.events := rfl
@[simp] theorem State.markCodecInit_responses : s.markCodecInit.responses = s.responses := rfl
@[simp] theorem State.markCodecInit_answers : s.markCodecInit.answers = s.answers := rfl
@[simp] theorem State.markCodecInit_statuses : s.markCodecInit.statuses = s.statuses := rfl
@[simp] theorem State.markCodecInit_arrivals : s.markCodecInit.arrivals = s.arrivals := rfl
@[simp] theorem State.markCodecInit_freeCount : s.markCodecInit.freeCount = s.freeCount := rfl

@[simp] theorem State.markQueueInit_cfg : s.markQueueInit.cfg = s.cfg := rfl
@[simp] theorem State.markQueueInit_link : s.markQueueInit.link = s.link := rfl
@[simp] theorem State.markQueueInit_queue : s.markQueueInit.queue = s.queue := rfl
@[simp] theorem State.markQueueInit_codecInit : s.markQueueInit.codecInit = s.codecInit := rfl
@[simp] theorem State.markQueueInit_queueInit : s.markQueueInit.queueInit = true := rfl
@[simp] theorem State.markQueueInit_refused : s.markQueueInit.refused = s.refused := rfl
@[simp] theorem State.markQueueInit_events : s.markQueueInit.events = s.events := rfl
@[simp] theorem State.markQueueInit_responses : s.markQueueInit.responses = s.responses := rfl
@[simp] theorem State.markQueueInit_answers : s.markQueueInit.answers = s.answers := rfl
@[simp] theorem State.markQueueInit_statuses : s.markQueueInit.statuses = s.statuses := rfl
@[simp] theorem State.markQueueInit_arrivals : s.markQueueInit.arrivals = s.arrivals := rfl
@[simp] theorem State.markQueueInit_freeCount : s.markQueueInit.freeCount = s.freeCount := rfl

@[simp] theorem State.record_cfg (e : Event) : (s.record e).cfg = s.cfg := rfl
@[simp] theorem State.record_link (e : Event) : (s.record e).link = s.link := rfl
@[simp] theorem State.record_queue (e : Event) : (s.record e).queue = s.queue := rfl
@[simp] theorem State.record_codecInit (e : Event) : (s.record e).codecInit = s.codecInit := rfl
@[simp] theorem State.record_queueInit (e : Event) : (s.record e).queueInit = s.queueInit := rfl
@[simp] theorem State.record_refused (e : Event) : (s.record e).refused = s.refused := rfl
@[simp] theorem State.record_events (e : Event) : (s.record e).events = s.events ++ [e] := rfl
@[simp] theorem State.record_responses (e : Event) : (s.record e).responses = s.responses := rfl
@[simp] theorem State.record_answers (e : Event) : (s.record e).answers = s.answers := rfl
@[simp] theorem State.record_statuses (e : Event) : (s.record e).statuses = s.statuses := rfl
@[simp] theorem State.record_arrivals (e : Event) : (s.record e).arrivals = s.arrivals := rfl
@[simp] theorem State.record_freeCount (e : Event) : (s.record e).freeCount = s.freeCount := rfl

@[simp] theorem State.respond_cfg (r : Response) : (s.respond r).cfg = s.cfg := rfl
@[simp] theorem State.respond_link (r : Response) : (s.respond r).link = s.link := rfl
@[simp] theorem State.respond_queue (r : Response) : (s.respond r).queue = s.queue := rfl
@[simp] theorem State.respond_codecInit (r : Response) : (s.respond r).codecInit = s.codecInit := rfl
@[simp] theorem State.respond_queueInit (r : Response) : (s.respond r).queueInit = s.queueInit := rfl
@[simp] theorem State.respond_refused (r : Response) : (s.respond r).refused = s.refused := rfl
@[simp] theorem State.respond_events (r : Response) : (s.respond r).events = s.events := rfl
@[simp] theorem State.respond_responses (r : Response) : (s.respond r).responses = s.responses ++ [r] := rfl
@[simp] theorem State.respond_answers (r : Response) : (s.respond r).answers = s.answers := rfl
@[simp] theorem State.respond_statuses (r : Response) : (s.respond r).statuses = s.statuses := rfl
@[simp] theorem State.respond_arrivals (r : Response) : (s.respond r).arrivals = s.arrivals := rfl
@[simp] theorem State.respond_freeCount (r : Response) : (s.respond r).freeCount = s.freeCount := rfl

@[simp] theorem State.refuse_cfg : s.refuse.cfg = s.cfg := rfl
@[simp] theorem State.refuse_link : s.refuse.link = s.link := rfl
@[simp] theorem State.refuse_queue : s.refuse.queue = s.queue := rfl
@[simp] theorem State.refuse_codecInit : s.refuse.codecInit = s.codecInit := rfl
@[simp] theorem State.refuse_queueInit : s.refuse.queueInit = s.queueInit := rfl
@[simp] theorem State.refuse_refused : s.refuse.refused = true := rfl
@[simp] theorem State.refuse_events : s.refuse.events = s.events := rfl
@[simp] theorem State.refuse_responses : s.refuse.responses = s.responses := rfl
@[simp] theorem State.refuse_answers : s.refuse.answers = s.answers := rfl
@[simp] theorem State.refuse_statuses : s.refuse.statuses = s.statuses := rfl
@[simp] theorem State.refuse_arrivals : s.refuse.arrivals = s.arrivals := rfl
@[simp] theorem State.refuse_freeCount : s.refuse.freeCount = s.freeCount := rfl

@[simp] theorem State.skipFree_cfg (n : Nat) : (s.skipFree n).cfg = s.cfg := rfl
@[simp] theorem State.skipFree_link (n : Nat) : (s.skipFree n).link = s.link := rfl
@[simp] theorem State.skipFree_queue (n : Nat) : (s.skipFree n).queue = s.queue := rfl
@[simp] theorem State.skipFree_codecInit (n : Nat) : (s.skipFree n).codecInit = s.codecInit := rfl
@[simp] theorem State.skipFree_queueInit (n : Nat) : (s.skipFree n).queueInit = s.queueInit := rfl
@[simp] theorem State.skipFree_refused (n : Nat) : (s.skipFree n).refused = s.refused := rfl
@[simp] theorem State.skipFree_events (n : Nat) : (s.skipFree n).events = s.events := rfl
@[simp] theorem State.skipFree_responses (n : Nat) : (s.skipFree n).responses = s.responses := rfl
@[simp] theorem State.skipFree_answers (n : Nat) : (s.skipFree n).answers = s.answers := rfl
@[simp] theorem State.skipFree_statuses (n : Nat) : (s.skipFree n).statuses = s.statuses := rfl
@[simp] theorem State.skipFree_arrivals (n : Nat) : (s.skipFree n).arrivals = s.arrivals := rfl
@[simp] theorem State.skipFree_freeCount (n : Nat) : (s.skipFree n).freeCount = s.freeCount + n := rfl

@[simp] theorem State.dropArrival_cfg : s.dropArrival.cfg = s.cfg := rfl
@[simp] theorem State.dropArrival_link : s.dropArrival.link = s.link := rfl
@[simp] theorem State.dropArrival_queue : s.dropArrival.queue = s.queue := rfl
@[simp] theorem State.dropArrival_codecInit : s.dropArrival.codecInit = s.codecInit := rfl
@[simp] theorem State.dropArrival_queueInit : s.dropArrival.queueInit = s.queueInit := rfl
@[simp] theorem State.dropArrival_refused : s.dropArrival.refused = s.refused := rfl
@[simp] theorem State.dropArrival_events : s.dropArrival.events = s.events := rfl
@[simp] theorem State.dropArrival_responses : s.dropArrival.responses = s.responses := rfl
@[simp] theorem State.dropArrival_answers : s.dropArrival.answers = s.answers := rfl
@[simp] theorem State.dropArrival_statuses : s.dropArrival.statuses = s.statuses := rfl
@[simp] theorem State.dropArrival_arrivals : s.dropArrival.arrivals = s.arrivals.drop 1 := rfl
@[simp] theorem State.dropArrival_freeCount : s.dropArrival.freeCount = s.freeCount := rfl

@[simp] theorem State.setLink_setLink (l m : LinkState) : (s.setLink l).setLink m = s.setLink m := rfl
@[simp] theorem State.setQueue_setQueue (q r : QueueState) : (s.setQueue q).setQueue r = s.setQueue r := rfl
@[simp] theorem State.setLink_self : s.setLink s.link = s := rfl
@[simp] theorem State.setQueue_self : s.setQueue s.queue = s := rfl

end Sys2Proof.Machine
end

