-- ==== Sys2Proof/Laws/Ops.lean ====
section
/-! SUPPORT. What each shared operation can do, said once: draws and emission, arrays, admission, readiness, HANDLE. -/

namespace Sys2Proof.Machine

/-! ### Except -/

@[simp] theorem except_ok_bind {ε α β : Type} (a : α) (f : α → Except ε β) : (Except.ok a >>= f) = f a := rfl

@[simp] theorem except_error_bind {ε α β : Type} (e : ε) (f : α → Except ε β) : (Except.error e >>= f) = Except.error e :=
  rfl

/-- A bind that succeeds: both halves did. -/
theorem except_bind_ok {ε α β : Type} {x : Except ε α} {f : α → Except ε β} {b : β} (h : (x >>= f) = .ok b) :
    ∃ a, x = .ok a ∧ f a = .ok b := by
  cases x with
  | ok a => exact ⟨a, rfl, h⟩
  | error e => cases h

/-! ### Draws and emission -/

/-- A draw of an answer changes only what the environment has in store. -/
theorem drawAnswer_frame (s : State) :
    ∃ a n, (drawAnswer s).2 = { s with answers := a, freeCount := n } := by
  unfold drawAnswer
  split
  · exact ⟨_, _, rfl⟩
  · exact ⟨s.answers, s.freeCount + 1, rfl⟩

/-- A draw of a status changes only what the environment has in store. -/
theorem drawStatus_frame (s : State) :
    ∃ a n, (drawStatus s).2 = { s with statuses := a, freeCount := n } := by
  unfold drawStatus
  split
  · exact ⟨_, _, rfl⟩
  · exact ⟨s.statuses, s.freeCount + 1, rfl⟩

/-- One emission: one Tx event, and the environment's store. -/
theorem emit_frame (b : Byte) (s : State) :
    ∃ a n, (emit b s).2 = { s with answers := a, freeCount := n, events := s.events ++ [.tx b (emit b s).1] } := by
  obtain ⟨a, n, h⟩ := drawAnswer_frame s
  exact ⟨a, n, by simp [emit, h, State.record]⟩

theorem emit_cons {s : State} {r : Answer} {rest : List Answer} (h : s.answers = r :: rest) (b : Byte) :
    emit b s = (r, { s with answers := rest, events := s.events ++ [.tx b r] }) := by
  simp [emit, drawAnswer, h, State.record]

/-- What offering bytes can do: the accepted ones are a first part of them, the next one failed unless all were accepted,
and nothing but the event log and the environment's store changes. -/
theorem emitAll_frame (bytes : List Byte) (s : State) :
    ∃ a n k, k ≤ bytes.length ∧
      ((emitAll bytes s).1 = .ok ∧ k = bytes.length ∧
        (emitAll bytes s).2 = { s with answers := a, freeCount := n, events := s.events ++ acceptedEvents (bytes.take k) } ∨
      ∃ b, (emitAll bytes s).1 = .fail ∧ bytes[k]? = some b ∧
        (emitAll bytes s).2 = { s with
          answers := a, freeCount := n, events := s.events ++ acceptedEvents (bytes.take k) ++ [.tx b .fail] }) := by
  induction bytes generalizing s with
  | nil => exact ⟨s.answers, s.freeCount, 0, Nat.le_refl 0, .inl ⟨rfl, rfl, by simp [emitAll, acceptedEvents]⟩⟩
  | cons b bs ih =>
    obtain ⟨a, n, he⟩ := emit_frame b s
    cases hr : (emit b s).1 with
    | fail =>
      have hp : emit b s = (.fail, (emit b s).2) := Prod.ext hr rfl
      refine ⟨a, n, 0, Nat.zero_le _, .inr ⟨b, ?_, rfl, ?_⟩⟩
      · rw [emitAll, hp]
      · rw [emitAll, hp]; simp [he, hr, acceptedEvents]
    | ok =>
      have hp : emit b s = (.ok, (emit b s).2) := Prod.ext hr rfl
      have hstep : emitAll (b :: bs) s = emitAll bs (emit b s).2 := by rw [emitAll, hp]
      obtain ⟨a', n', k, hk, h⟩ := ih (emit b s).2
      refine ⟨a', n', k + 1, by simpa using hk, ?_⟩
      rw [hstep]
      rcases h with ⟨h1, rfl, h2⟩ | ⟨c, h1, hc, h2⟩
      · exact .inl ⟨h1, rfl, by rw [h2, he]; simp [acceptedEvents, hr]⟩
      · exact .inr ⟨c, h1, by simpa using hc, by rw [h2, he]; simp [acceptedEvents, hr]⟩

/-- Bytes that are all accepted. -/
theorem emitAll_accepts (bytes : List Byte) (s : State) (h : Accepts s bytes.length) :
    emitAll bytes s = (.ok, afterAccepted s bytes) := by
  induction bytes generalizing s with
  | nil => simp [emitAll, afterAccepted, acceptedEvents]
  | cons b bs ih =>
    cases hs : s.answers with
    | nil => simp [Accepts, hs, List.replicate_succ] at h
    | cons r rest =>
      simp only [Accepts, hs, List.length_cons, List.take_succ_cons, List.replicate_succ, List.cons.injEq] at h
      obtain ⟨rfl, hrest⟩ := h
      rw [emitAll, emit_cons hs]
      simp only
      rw [ih _ hrest]
      simp [afterAccepted, acceptedEvents, hs]

/-- Bytes of which the first n are accepted and the next one fails. -/
theorem emitAll_failsAt (bytes : List Byte) (n : Nat) (s : State) (hn : n < bytes.length) (h : FailsAt s n) :
    emitAll bytes s = (.fail, afterFailed s bytes n) := by
  induction bytes generalizing s n with
  | nil => simp at hn
  | cons b bs ih =>
    obtain ⟨h, hf⟩ := h
    cases hs : s.answers with
    | nil => simp [hs] at hf
    | cons r rest =>
      rw [emitAll, emit_cons hs]
      cases n with
      | zero =>
        simp only [hs, List.getElem?_cons_zero, Option.some.injEq] at hf
        subst hf
        simp [afterFailed, acceptedEvents, hs]
      | succ n =>
        simp only [Accepts, hs, List.take_succ_cons, List.replicate_succ, List.cons.injEq] at h
        obtain ⟨rfl, hrest⟩ := h
        simp only
        rw [ih n _ (by simpa using hn) ⟨hrest, by simpa [hs] using hf⟩]
        simp [afterFailed, acceptedEvents, hs]

/-! ### Arrays (R51): every access keeps the array's size -/

theorem readAt_ok {α : Type} {a : List α} {i : Nat} {v : α} (h : a[i]? = some v) : readAt a i = .ok v := by
  simp [readAt, h]

theorem writeAt_ok {α : Type} {a : List α} {i : Nat} (v : α) (h : i < a.length) : writeAt a i v = .ok (a.set i v) :=
  if_pos h

theorem writeAt_length {α : Type} {a b : List α} {i : Nat} {v : α} (h : writeAt a i v = .ok b) : b.length = a.length := by
  unfold writeAt at h
  split at h
  · cases h; simp
  · cases h

theorem readFirst_ok {α : Type} {a : List α} {n : Nat} (h : n ≤ a.length) : readFirst a n = .ok (a.take n) := if_pos h

theorem writeFirst_ok {α : Type} {a p : List α} (h : p.length ≤ a.length) :
    writeFirst a p = .ok (p ++ a.drop p.length) := if_pos h

theorem writeFirst_length {α : Type} {a b p : List α} (h : writeFirst a p = .ok b) : b.length = a.length := by
  unfold writeFirst at h
  split at h
  · cases h; simp; omega
  · cases h

/-- Reading what was written at the same index. -/
theorem readAt_writeAt {α : Type} {a b : List α} {i : Nat} {v : α} (h : writeAt a i v = .ok b) : readAt b i = .ok v := by
  unfold writeAt at h
  split at h
  · cases h; exact readAt_ok (by simp_all)
  · cases h

/-- A write leaves every other element. -/
theorem writeAt_other {α : Type} {a b : List α} {i j : Nat} {v : α} (h : writeAt a i v = .ok b) (hij : i ≠ j) :
    b[j]? = a[j]? := by
  unfold writeAt at h
  split at h
  · cases h; exact List.getElem?_set_ne hij
  · cases h

/-! ### Commands -/

/-- A command that is not admitted is refused (R217). -/
theorem command_refused {body : State → Except Fault (Response × State)} {adm : Bool} (h : adm = false) (s : State) :
    command adm body s = .next s.refuse := by
  simp [command, h]

/-- An admitted command that runs answers its response (R217 (1)). -/
theorem command_ok {body : State → Except Fault (Response × State)} {adm : Bool} (h : adm = true) {s t : State}
    {r : Response} (hb : body s = .ok (r, t)) : command adm body s = .next (t.respond r) := by
  simp [command, h, hb, finish]

/-- What a command can answer as a next state: its refusal, or its response. -/
theorem command_next {body : State → Except Fault (Response × State)} {adm : Bool} {s u : State}
    (h : command adm body s = .next u) :
    (adm = false ∧ u = s.refuse) ∨ (adm = true ∧ ∃ r t, body s = .ok (r, t) ∧ u = t.respond r) := by
  unfold command at h
  split at h
  next hadm =>
    cases hb : body s with
    | ok rt => rw [hb] at h; cases h; exact .inr ⟨hadm, rt.1, rt.2, rfl, rfl⟩
    | error f => rw [hb] at h; cases h
  next hadm => cases h; exact .inl ⟨by simpa using hadm, rfl⟩

/-- A status of a body is the command's response. -/
theorem withStatus_ok {x : Except Fault (Status × State)} {r : Response} {t : State} (h : withStatus x = .ok (r, t)) :
    ∃ c, x = .ok (c, t) ∧ r = .status c := by
  cases x with
  | ok ct => cases h; exact ⟨_, rfl, rfl⟩
  | error f => cases h

/-- A procedure's command answers OK. -/
theorem thenOk_ok {x : Except Fault State} {r : Response} {t : State} (h : thenOk x = .ok (r, t)) :
    x = .ok t ∧ r = .status statusOk := by
  cases x with
  | ok u => cases h; exact ⟨rfl, rfl⟩
  | error f => cases h

theorem runProcedure_next {body : State → Except Fault State} {s t : State} (h : runProcedure body s = .next t) :
    body s = .ok t := by
  unfold runProcedure at h
  split at h
  · cases h; assumption
  · cases h

/-! ### Time and indices -/

/-- The elapsed time is the difference modulo 2^TIME_W (R151). -/
theorem subMod_eq (w a b : Nat) : subMod w a b = (((a : Int) - b) % 2 ^ w).toNat := by
  have hb : b % 2 ^ w < 2 ^ w := Nat.mod_lt _ (Nat.two_pow_pos w)
  have hcast : ((subMod w a b : Nat) : Int) = ((a : Int) - b) % 2 ^ w := by
    unfold subMod
    push_cast [Nat.cast_sub hb.le]
    rw [← Int.add_sub_assoc, Int.sub_emod, Int.emod_emod_of_dvd _ (dvd_refl _), Int.add_emod_right, ← Int.sub_emod]
  omega

theorem subMod_lt (w a b : Nat) : subMod w a b < 2 ^ w := Nat.mod_lt _ (Nat.two_pow_pos w)

/-- The attempt counter fits its width (R184). -/
theorem bumpAttempts_lt (c : Config) (n : Nat) : bumpAttempts c n < 2 ^ c.attW := by
  have := Nat.two_pow_pos c.attW
  unfold bumpAttempts
  omega

/-! ### HANDLE (R180) -/

/-- Everything HANDLE can do. -/
theorem handleOutcome_cases {o : HandshakeOutcome} {s t : State} (h : handleOutcome o s = .ok t) :
    (s.queue.head = s.queue.tail ∧ t = detach s) ∨
    (s.queue.head ≠ s.queue.tail ∧ ∃ slot, s.queue.slots[s.queue.head]? = some slot ∧
      ((retires slot o = true ∧ t = detach (retireHead slot o s)) ∨ (retires slot o = false ∧ t = detach s))) := by
  unfold handleOutcome at h
  split at h
  next he => cases h; exact .inl ⟨by simpa [isEmpty] using he, rfl⟩
  next he =>
    obtain ⟨slot, hs, ht⟩ := except_bind_ok h
    refine .inr ⟨by simpa [isEmpty] using he, slot, ?_, ?_⟩
    · unfold readAt at hs
      split at hs
      next heq => cases hs; exact heq
      next => cases hs
    · cases ht
      cases hr : retires slot o
      · exact .inr ⟨rfl, by simp⟩
      · exact .inl ⟨rfl, by simp⟩

end Sys2Proof.Machine
end

