-- ==== Sys2Proof/Laws/Commands.lean ====
section
/-! SUPPORT. Everything the codec's and the queue's procedures can do when they answer, said once each. -/

namespace Sys2Proof.Machine

/-! ### Arrays: what an access that succeeds answers -/

theorem readAt_cases {α : Type} {a : List α} {i : Nat} {v : α} (h : readAt a i = .ok v) : a[i]? = some v := by
  unfold readAt at h
  split at h
  next heq => cases h; exact heq
  next => cases h

theorem writeAt_cases {α : Type} {a b : List α} {i : Nat} {v : α} (h : writeAt a i v = .ok b) :
    i < a.length ∧ b = a.set i v := by
  unfold writeAt at h
  split at h
  next hi => cases h; exact ⟨hi, rfl⟩
  next => cases h

theorem readFirst_cases {α : Type} {a p : List α} {n : Nat} (h : readFirst a n = .ok p) :
    n ≤ a.length ∧ p = a.take n := by
  unfold readFirst at h
  split at h
  next hn => cases h; exact ⟨hn, rfl⟩
  next => cases h

theorem writeFirst_cases {α : Type} {a b p : List α} (h : writeFirst a p = .ok b) :
    p.length ≤ a.length ∧ b = p ++ a.drop p.length := by
  unfold writeFirst at h
  split at h
  next hn => cases h; exact ⟨hn, rfl⟩
  next => cases h

/-! ### READINESS (R150) -/

/-- Everything READINESS can answer, by S.hs. -/
theorem readiness_cases {c : Config} {now : Nat} {l : LinkState} {r : Readiness} (h : readiness c now l = .ok r) :
    (l.hs = .acked ∧ r = .ready) ∨ (l.hs = .naked ∧ r = .negative)
      ∨ (l.hs = .pending ∧ elapsed c now l.sentAt < c.timeoutTicks ∧ r = .busy)
      ∨ (l.hs = .pending ∧ c.timeoutTicks ≤ elapsed c now l.sentAt ∧ r = .timedOut) := by
  unfold readiness at h
  split at h
  next hs => cases h; exact .inl ⟨hs, rfl⟩
  next hs => cases h; exact .inr (.inl ⟨hs, rfl⟩)
  next hs =>
    split at h
    next hb => cases h; exact .inr (.inr (.inl ⟨hs, hb, rfl⟩))
    next hb => cases h; exact .inr (.inr (.inr ⟨hs, Nat.le_of_not_lt hb, rfl⟩))
  next => cases h

/-- The elapsed time of the operand now is ticksSince (R151). -/
theorem elapsed_timeOperand (c : Config) (now sentAt : Nat) :
    elapsed c (timeOperand c now) sentAt = ticksSince c now sentAt := by
  unfold elapsed ticksSince
  rw [subMod_eq, timeOperand]
  congr 1
  push_cast
  exact Int.emod_sub_emod ..

/-! ### SEND (R102) -/

/-- Everything the recording can do (R106). -/
theorem recordSend_cases {p : List Byte} {now : Nat} {s t : State} (h : recordSend p now s = .ok t) :
    p.length ≤ s.link.rtBuf.length ∧ t = s.setLink { s.link with
      rtBuf := p ++ s.link.rtBuf.drop p.length, rtLen := lengthByte p, sentAt := timeOperand s.cfg now } := by
  obtain ⟨buf, hb, ht⟩ := except_bind_ok h
  obtain ⟨hl, rfl⟩ := writeFirst_cases hb
  cases ht
  exact ⟨hl, rfl⟩

/-- Everything the frame's part of a SEND can do: stop at a failed byte, or record (R104 to R107). -/
theorem transmit_cases {p : List Byte} {now : Nat} {s t : State} {c : Status} (h : transmit p now s = .ok (c, t)) :
    (c = statusTransportError ∧ emitAll (frameBytes s.cfg p) (markPending s) = (.fail, t))
      ∨ (c = statusOk ∧ ∃ u, emitAll (frameBytes s.cfg p) (markPending s) = (.ok, u) ∧ recordSend p now u = .ok t) := by
  unfold transmit at h
  split at h
  next heq => cases h; exact .inl ⟨rfl, heq⟩
  next heq =>
    obtain ⟨u, hu, ht⟩ := except_bind_ok h
    cases ht
    exact .inr ⟨rfl, _, heq, hu⟩

/-- Everything SEND can do: reject the size, go straight to the frame, stop in the preamble, or send both. -/
theorem sendFrame_cases {p : List Byte} {now : Nat} {s t : State} {c : Status} (h : sendFrame p now s = .ok (c, t)) :
    (s.cfg.maxPayload < p.length ∧ c = statusPayloadTooLarge ∧ t = s)
      ∨ (p.length ≤ s.cfg.maxPayload ∧ s.link.hs = .pending ∧ transmit p now s = .ok (c, t))
      ∨ (p.length ≤ s.cfg.maxPayload ∧ (s.link.hs = .acked ∨ s.link.hs = .naked)
          ∧ ((emitAll preamble s = (.fail, t) ∧ c = statusTransportError)
            ∨ ∃ u, emitAll preamble s = (.ok, u) ∧ transmit p now u = .ok (c, t))) := by
  unfold sendFrame at h
  split at h
  next hp => cases h; exact .inl ⟨hp, rfl, rfl⟩
  next hp =>
    have hle := Nat.le_of_not_lt hp
    have resolved : ∀ {r : Except Fault (Status × State)}, (match emitAll preamble s with
          | (.fail, t) => .ok (statusTransportError, t)
          | (.ok, t) => transmit p now t) = r → r = .ok (c, t) →
        (emitAll preamble s = (.fail, t) ∧ c = statusTransportError)
          ∨ ∃ u, emitAll preamble s = (.ok, u) ∧ transmit p now u = .ok (c, t) := by
      intro r hr hok
      subst hr
      split at hok
      next heq => cases hok; exact .inl ⟨heq, rfl⟩
      next heq => exact .inr ⟨_, heq, hok⟩
    split at h
    next => cases h
    next hs => exact .inr (.inl ⟨hle, hs, h⟩)
    next hs => exact .inr (.inr ⟨hle, .inl hs, resolved rfl h⟩)
    next hs => exact .inr (.inr ⟨hle, .inr hs, resolved rfl h⟩)

/-- A transport that accepts two runs of bytes accepts them one after the other. -/
theorem accepts_append {s : State} {xs ys : List Byte} (h : Accepts s (xs ++ ys).length) :
    Accepts s xs.length ∧ Accepts (afterAccepted s xs) ys.length := by
  simp only [Accepts, afterAccepted, List.length_append] at h ⊢
  constructor
  · have := congrArg (List.take xs.length) h
    simpa [List.take_take] using this
  · have := congrArg (List.drop xs.length) h
    simpa [List.drop_take] using this

@[simp] theorem afterAccepted_append (s : State) (xs ys : List Byte) :
    afterAccepted (afterAccepted s xs) ys = afterAccepted s (xs ++ ys) := by
  simp [afterAccepted, acceptedEvents]

theorem markPending_afterAccepted (s : State) (xs : List Byte) :
    markPending (afterAccepted s xs) = afterAccepted (markPending s) xs := rfl

/-- SEND from its handshake mark on, every byte accepted. -/
theorem transmit_accepts {p : List Byte} {now : Nat} {s : State} (hb : p.length ≤ s.link.rtBuf.length)
    (ha : Accepts s (frameBytes s.cfg p).length) :
    transmit p now s = .ok (statusOk, (afterAccepted s (frameBytes s.cfg p)).setLink (sentLink s.cfg s.link p now)) := by
  simp only [transmit]
  rw [emitAll_accepts _ (markPending s) ha]
  simp [recordSend, writeFirst, afterAccepted, markPending, hb, State.setLink, sentLink, timeOperand, lengthByte]

/-- SEND with every byte accepted (R102, R103, R104, R106). -/
theorem sendFrame_accepts {p : List Byte} {now : Nat} {s : State} (hs : s.link.hs ≠ .unused)
    (hb : s.link.rtBuf.length = s.cfg.maxPayload) (hp : p.length ≤ s.cfg.maxPayload)
    (ha : Accepts s (sendBytes s p).length) : sendFrame p now s = .ok (statusOk, afterSend s p now) := by
  have resolved : s.link.hs ≠ .pending → (match emitAll preamble s with
      | (.fail, t) => .ok (statusTransportError, t)
      | (.ok, t) => transmit p now t) = Except.ok (ε := Fault) (statusOk, afterSend s p now) := by
    intro h
    rw [sendBytes, if_neg h] at ha
    obtain ⟨h1, h2⟩ := accepts_append ha
    rw [emitAll_accepts _ _ h1]
    simp only
    rw [transmit_accepts (s := afterAccepted s preamble) (by simp [afterAccepted, hb, hp]) h2]
    simp [afterSend, sendBytes, h, afterAccepted, acceptedEvents, State.setLink]
  unfold sendFrame
  rw [if_neg (Nat.not_lt.mpr hp)]
  split
  next h => exact absurd h hs
  next h =>
    rw [sendBytes, if_pos h] at ha
    rw [transmit_accepts (by omega) ha]
    simp [afterSend, sendBytes, h]
  next h => exact resolved (by simp [h])
  next h => exact resolved (by simp [h])

/-- Bytes of which the first part is accepted whole and the next one fails in the second part. -/
theorem failsAt_append {s : State} {xs : List Byte} {n : Nat} (h : FailsAt s n) (hn : xs.length ≤ n) :
    Accepts s xs.length ∧ FailsAt (afterAccepted s xs) (n - xs.length) := by
  obtain ⟨ha, hf⟩ := h
  simp only [FailsAt, Accepts, afterAccepted] at ha ⊢
  refine ⟨?_, ?_, ?_⟩
  · have := congrArg (List.take xs.length) ha
    simpa [List.take_take, Nat.min_eq_left hn] using this
  · have := congrArg (List.drop xs.length) ha
    simpa [List.drop_take] using this
  · simpa [Nat.add_sub_cancel' hn] using hf

/-- SEND whose byte n the transport fails (R104, R107). -/
theorem sendFrame_failsAt {p : List Byte} {now n : Nat} {s : State} (hs : s.link.hs ≠ .unused)
    (hp : p.length ≤ s.cfg.maxPayload) (hn : n < (sendBytes s p).length) (hf : FailsAt s n) :
    sendFrame p now s = .ok (statusTransportError,
      if n < preambleLength s then afterFailed s (sendBytes s p) n
      else (afterFailed s (sendBytes s p) n).setLink { s.link with hs := .pending }) := by
  have resolved : s.link.hs ≠ .pending → (match emitAll preamble s with
      | (.fail, t) => .ok (statusTransportError, t)
      | (.ok, t) => transmit p now t) = Except.ok (ε := Fault) (statusTransportError,
        if n < preambleLength s then afterFailed s (sendBytes s p) n
        else (afterFailed s (sendBytes s p) n).setLink { s.link with hs := .pending }) := by
    intro h
    have hb : sendBytes s p = preamble ++ frameBytes s.cfg p := by simp [sendBytes, h]
    have hl : preambleLength s = preamble.length := by simp [preambleLength, h, preamble]
    rw [hb] at hn ⊢
    rw [hl]
    by_cases hlt : n < preamble.length
    · rw [emitAll_failsAt _ n _ hlt hf, if_pos hlt]
      simp [afterFailed, List.take_append_of_le_length hlt.le, List.drop_append_of_le_length hlt.le, List.take_append_of_le_length (l₁ := preamble.drop n) (i := 1) (by simp; omega)]
    · obtain ⟨h1, h2⟩ := failsAt_append (xs := preamble) hf (Nat.le_of_not_lt hlt)
      rw [emitAll_accepts _ _ h1, if_neg hlt]
      simp only [transmit]
      rw [emitAll_failsAt _ (n - preamble.length) (markPending (afterAccepted s preamble)) (by simp [afterAccepted] at hn ⊢; omega) h2]
      have hle := Nat.le_of_not_lt hlt
      simp [afterFailed, markPending, afterAccepted, acceptedEvents, State.setLink, List.take_append, List.drop_append, List.take_of_length_le hle, List.drop_of_length_le hle]
      omega
  unfold sendFrame
  rw [if_neg (Nat.not_lt.mpr hp)]
  split
  next h => exact absurd h hs
  next h =>
    have hb : sendBytes s p = frameBytes s.cfg p := by simp [sendBytes, h]
    have hl : preambleLength s = 0 := by simp [preambleLength, h]
    rw [hb] at hn ⊢
    rw [hl, if_neg (Nat.not_lt_zero n)]
    simp only [transmit]
    rw [emitAll_failsAt _ n (markPending s) hn hf]
    rfl
  next h => exact resolved (by simp [h])
  next h => exact resolved (by simp [h])

/-- RESEND is SEND of the recorded payload (R110). -/
theorem resendFrame_cases {now : Nat} {s t : State} {c : Status} (h : resendFrame now s = .ok (c, t)) :
    s.link.rtLen.toNat ≤ s.link.rtBuf.length ∧ sendFrame (s.link.rtBuf.take s.link.rtLen.toNat) now s = .ok (c, t) := by
  obtain ⟨p, hp, hs⟩ := except_bind_ok h
  obtain ⟨hl, rfl⟩ := readFirst_cases hp
  exact ⟨hl, hs⟩

/-! ### DRAIN and SUBMIT (R176, R171) -/

/-- Everything DRAIN's send can do (R179). -/
theorem sendHead_cases {now : Nat} {s t : State} (h : sendHead now s = .ok t) :
    ∃ slot c, s.queue.slots[s.queue.head]? = some slot ∧ slot.len.toNat ≤ slot.data.length
      ∧ sendFrame (slot.data.take slot.len.toNat) now (attach (countAttempt slot s)) = .ok (c, t) := by
  obtain ⟨slot, hs, h⟩ := except_bind_ok h
  obtain ⟨p, hp, h⟩ := except_bind_ok h
  obtain ⟨hl, rfl⟩ := readFirst_cases hp
  obtain ⟨sent, hsent, ht⟩ := except_bind_ok h
  cases ht
  exact ⟨slot, sent.1, readAt_cases hs, hl, hsent⟩

/-- Everything DRAIN can do: nothing on an empty queue or a busy codec, HANDLE(OUT_TIMEOUT), or one send. -/
theorem drainQueue_cases {now : Nat} {s t : State} (h : drainQueue now s = .ok t) :
    (s.queue.head = s.queue.tail ∧ t = s)
      ∨ (s.queue.head ≠ s.queue.tail ∧ ∃ r, readiness s.cfg (timeOperand s.cfg now) s.link = .ok r
        ∧ ((r = .busy ∧ t = s)
          ∨ (r = .timedOut ∧ s.link.listener = true ∧ handleOutcome .outTimeout s = .ok t)
          ∨ ((r = .ready ∨ r = .negative ∨ (r = .timedOut ∧ s.link.listener = false)) ∧ sendHead now s = .ok t))) := by
  unfold drainQueue at h
  split at h
  next he => cases h; exact .inl ⟨by simpa [isEmpty] using he, rfl⟩
  next he =>
    obtain ⟨r, hr, h⟩ := except_bind_ok h
    refine .inr ⟨by simpa [isEmpty] using he, r, hr, ?_⟩
    cases r
    · exact .inr (.inr ⟨.inl rfl, h⟩)
    · exact .inr (.inr ⟨.inr (.inl rfl), h⟩)
    · cases h; exact .inl ⟨rfl, rfl⟩
    · simp only at h
      split at h
      next hl => exact .inr (.inl ⟨rfl, hl, h⟩)
      next hl => exact .inr (.inr ⟨.inr (.inr ⟨rfl, by simpa using hl⟩), h⟩)

/-- Everything enqueueing can do: one slot and the tail. -/
theorem enqueue_cases {p : List Byte} {tag ctx : Nat} {s t : State} (h : enqueue p tag ctx s = .ok t) :
    ∃ old, s.queue.slots[s.queue.tail]? = some old ∧ p.length ≤ old.data.length
      ∧ t = s.setQueue { s.queue with
        slots := s.queue.slots.set s.queue.tail {
          len := lengthByte p, data := p ++ old.data.drop p.length, attempts := 0
          tag := tagOperand s.cfg tag, ctx := ctxOperand s.cfg ctx }
        tail := nextIndex s.cfg s.queue.tail } := by
  obtain ⟨old, ho, h⟩ := except_bind_ok h
  obtain ⟨data, hd, h⟩ := except_bind_ok h
  obtain ⟨hl, rfl⟩ := writeFirst_cases hd
  cases h
  exact ⟨old, readAt_cases ho, hl, rfl⟩

/-- Everything SUBMIT can do: reject, or enqueue and drain once. -/
theorem submitEntry_cases {p : List Byte} {tag ctx now : Nat} {s t : State} {c : Status}
    (h : submitEntry p tag ctx now s = .ok (c, t)) :
    (s.cfg.maxPayload < p.length ∧ c = statusPayloadTooLarge ∧ t = s)
      ∨ (p.length ≤ s.cfg.maxPayload ∧ isFull s.cfg s.queue = true ∧ c = statusQueueFull ∧ t = s)
      ∨ (p.length ≤ s.cfg.maxPayload ∧ isFull s.cfg s.queue = false ∧ c = statusOk
          ∧ ∃ u, enqueue p tag ctx s = .ok u ∧ drainQueue now u = .ok t) := by
  unfold submitEntry at h
  split at h
  next hp => cases h; exact .inl ⟨hp, rfl, rfl⟩
  next hp =>
    split at h
    next hf => cases h; exact .inr (.inl ⟨Nat.le_of_not_lt hp, hf, rfl, rfl⟩)
    next hf =>
      obtain ⟨u, hu, h⟩ := except_bind_ok h
      obtain ⟨v, hv, h⟩ := except_bind_ok h
      cases h
      exact .inr (.inr ⟨Nat.le_of_not_lt hp, by simpa using hf, rfl, u, hu, hv⟩)

/-! ### FEED (R130) -/

/-- Everything a handshake byte can do (R134). -/
theorem handshakeByte_cases {r : Handshake} {o : HandshakeOutcome} {s t : State} {c : Status}
    (h : handshakeByte r o s = .ok (c, t)) : c = statusOk ∧
    ((s.link.hs = .pending ∧ s.link.listener = true ∧ handleOutcome o (s.setLink { s.link with hs := r }) = .ok t)
      ∨ (s.link.hs = .pending ∧ s.link.listener = false ∧ t = s.setLink { s.link with hs := r })
      ∨ ((s.link.hs = .acked ∨ s.link.hs = .naked) ∧ t = s)) := by
  unfold handshakeByte at h
  split at h
  next => cases h
  next hs =>
    simp only at h
    split at h
    next hl =>
      obtain ⟨u, hu, h⟩ := except_bind_ok h
      cases h
      exact ⟨rfl, .inl ⟨hs, hl, hu⟩⟩
    next hl => cases h; exact ⟨rfl, .inr (.inl ⟨hs, by simpa using hl, rfl⟩)⟩
  next hs => cases h; exact ⟨rfl, .inr (.inr ⟨.inl hs, rfl⟩)⟩
  next hs => cases h; exact ⟨rfl, .inr (.inr ⟨.inr hs, rfl⟩)⟩

/-- Everything the terminal byte can do: a failed reply, a delivery after ACK_BYTE, or a rejection after NAK_BYTE. -/
theorem takeTerminal_cases {v : Byte} {s t : State} {c : Status} (h : takeTerminal v s = .ok (c, t)) :
    (v = s.link.rxSum ∧ ((emit s.cfg.ackByte s = (.fail, t) ∧ c = statusTransportError)
        ∨ ∃ u, emit s.cfg.ackByte s = (.ok, u) ∧ u.link.frameLen.toNat - 1 ≤ u.link.rxBuf.length
          ∧ deliver (u.link.rxBuf.take (u.link.frameLen.toNat - 1)) u = (c, t)))
      ∨ (v ≠ s.link.rxSum ∧ ((emit s.cfg.nakByte s = (.fail, t) ∧ c = statusTransportError)
        ∨ (emit s.cfg.nakByte s = (.ok, t) ∧ c = statusBadChecksum))) := by
  unfold takeTerminal at h
  split at h
  next hv =>
    refine .inl ⟨hv, ?_⟩
    split at h
    next heq => cases h; exact .inl ⟨heq, rfl⟩
    next heq =>
      obtain ⟨p, hp, h⟩ := except_bind_ok h
      obtain ⟨hl, rfl⟩ := readFirst_cases hp
      cases h
      exact .inr ⟨_, heq, hl, rfl⟩
  next hv =>
    refine .inr ⟨hv, ?_⟩
    split at h
    next heq => cases h; exact .inl ⟨heq, rfl⟩
    next heq => cases h; exact .inr ⟨heq, rfl⟩

/-- Everything a byte after the length field can do: it is stored and counted, and then it is terminal or summed. -/
theorem takeData_cases {v : Byte} {s t : State} {c : Status} (h : takeData v s = .ok (c, t)) :
    s.link.rxCount.toNat < s.link.rxBuf.length ∧
    ((s.link.rxCount + 1#8 = s.link.frameLen ∧ takeTerminal v (s.setLink { s.link with
        rxBuf := s.link.rxBuf.set s.link.rxCount.toNat v, rxCount := s.link.rxCount + 1#8, reading := false }) = .ok (c, t))
      ∨ (s.link.rxCount + 1#8 ≠ s.link.frameLen ∧ c = statusOk ∧ t = s.setLink { s.link with
        rxBuf := s.link.rxBuf.set s.link.rxCount.toNat v, rxCount := s.link.rxCount + 1#8
        rxSum := s.link.rxSum + v })) := by
  obtain ⟨buf, hb, h⟩ := except_bind_ok h
  obtain ⟨hl, rfl⟩ := writeAt_cases hb
  refine ⟨hl, ?_⟩
  simp only at h
  split at h
  next he => exact .inl ⟨he, h⟩
  next he => cases h; exact .inr ⟨he, rfl, rfl⟩

/-- Everything a hex digit mid-frame can do. -/
theorem takeDigit_cases {d : Nibble} {s t : State} {c : Status} (h : takeDigit d s = .ok (c, t)) :
    (s.link.nibValid = false ∧ c = statusOk ∧ t = s.setLink (bufferNibble d s.link))
      ∨ (s.link.nibValid = true
        ∧ takeByte (pairNibbles s.link.nibVal d) (s.setLink { s.link with nibValid := false }) = .ok (c, t)) := by
  unfold takeDigit at h
  split at h
  next hn => exact .inr ⟨hn, h⟩
  next hn => cases h; exact .inl ⟨by simpa using hn, rfl, rfl⟩

/-- Everything FEED can do, by the byte's class (R79). -/
theorem feedByte_cases {b : Byte} {s t : State} {c : Status} (h : feedByte b s = .ok (c, t)) :
    (classify s.cfg s.link.reading b = .sof ∧ c = statusOk ∧ t = s.setLink (startFrame s.link))
      ∨ (classify s.cfg s.link.reading b = .ack ∧ handshakeByte .acked .outAck s = .ok (c, t))
      ∨ (classify s.cfg s.link.reading b = .nak ∧ handshakeByte .naked .outNak s = .ok (c, t))
      ∨ (classify s.cfg s.link.reading b = .junkIdle ∧ c = statusJunkByte ∧ t = s)
      ∨ (∃ d, classify s.cfg s.link.reading b = .hex d ∧ takeDigit d s = .ok (c, t))
      ∨ (classify s.cfg s.link.reading b = .junkFrame ∧ c = statusJunkByte ∧ t = s.setLink (abandonFrame s.link)) := by
  unfold feedByte at h
  split at h
  next hc => cases h; exact .inl ⟨hc, rfl, rfl⟩
  next hc => exact .inr (.inl ⟨hc, h⟩)
  next hc => exact .inr (.inr (.inl ⟨hc, h⟩))
  next hc => cases h; exact .inr (.inr (.inr (.inl ⟨hc, rfl, rfl⟩)))
  next d hc => exact .inr (.inr (.inr (.inr (.inl ⟨d, hc, h⟩))))
  next hc => cases h; exact .inr (.inr (.inr (.inr (.inr ⟨hc, rfl, rfl⟩))))

end Sys2Proof.Machine
end

