-- ==== Sys2Proof/Laws/PerInstr.lean ====
section
/-! SUPPORT. Statements for all instructions, one lemma per constructor: the size of each instruction's encoding (R81). -/

namespace Sys2Proof.Laws.EncodingLength

/-- How many bits reach the block: a command's whole bit string, or one inbound byte. -/
def arrivalSize : Arrival → Nat
  | .command bits => bits.length
  | .inbound _ => 8
  | .overlapping bits => bits.length

/-- The sizes R81 and R82 give: a 16-bit header, then payload, tag, ctx and now in order; a byte class is one byte; the
internal procedures have no encoding. -/
def expectedSize (cfg : Config) : Instr → Option Nat
  | .codecInit | .feed _ | .queueInit | .reserved _ => some 16
  | .readiness _ | .resend _ | .update _ => some (16 + cfg.timeW)
  | .send p _ => some (16 + (8 * p.length + cfg.timeW))
  | .submit p _ _ _ => some (16 + (8 * p.length + (cfg.tagW + (cfg.ctxW + cfg.timeW))))
  | .handle _ | .drain _ => none
  | _ => some 8

/-- Every instruction is encoded in the bits its format gives it. -/
def Statement (i : Instr) : Prop := ∀ cfg : Config, (encode cfg i).map arrivalSize = expectedSize cfg i

theorem codecInit : Statement (.codecInit) := fun _ => by
  simp [encode, arrivalSize, expectedSize, commandBits]
theorem feed (b : Byte) : Statement (.feed b) := fun _ => by
  simp [encode, arrivalSize, expectedSize, commandBits]
theorem readiness (now : Nat) : Statement (.readiness now) := fun _ => by
  simp [encode, arrivalSize, expectedSize, commandBits]
theorem send (p : List Byte) (now : Nat) : Statement (.send p now) := fun _ => by
  simp [encode, arrivalSize, expectedSize, commandBits]
theorem resend (now : Nat) : Statement (.resend now) := fun _ => by
  simp [encode, arrivalSize, expectedSize, commandBits]
theorem queueInit : Statement (.queueInit) := fun _ => by
  simp [encode, arrivalSize, expectedSize, commandBits]
theorem submit (p : List Byte) (tag : Nat) (ctx : Nat) (now : Nat) : Statement (.submit p tag ctx now) := fun _ => by
  simp [encode, arrivalSize, expectedSize, commandBits]
theorem update (now : Nat) : Statement (.update now) := fun _ => by
  simp [encode, arrivalSize, expectedSize, commandBits]
theorem reserved (h : BitVec 16) : Statement (.reserved h) := fun _ => by
  simp [encode, arrivalSize, expectedSize]
theorem handle (o : HandshakeOutcome) : Statement (.handle o) := fun _ => rfl
theorem drain (now : Nat) : Statement (.drain now) := fun _ => rfl
theorem sof : Statement (.sof) := fun _ => rfl
theorem ack : Statement (.ack) := fun _ => rfl
theorem nak : Statement (.nak) := fun _ => rfl
theorem junkIdle (b : Byte) : Statement (.junkIdle b) := fun _ => rfl
theorem hexDigit0 : Statement (.hexDigit0) := fun _ => rfl
theorem hexDigit1 : Statement (.hexDigit1) := fun _ => rfl
theorem hexDigit2 : Statement (.hexDigit2) := fun _ => rfl
theorem hexDigit3 : Statement (.hexDigit3) := fun _ => rfl
theorem hexDigit4 : Statement (.hexDigit4) := fun _ => rfl
theorem hexDigit5 : Statement (.hexDigit5) := fun _ => rfl
theorem hexDigit6 : Statement (.hexDigit6) := fun _ => rfl
theorem hexDigit7 : Statement (.hexDigit7) := fun _ => rfl
theorem hexDigit8 : Statement (.hexDigit8) := fun _ => rfl
theorem hexDigit9 : Statement (.hexDigit9) := fun _ => rfl
theorem hexDigitUpperA : Statement (.hexDigitUpperA) := fun _ => rfl
theorem hexDigitUpperB : Statement (.hexDigitUpperB) := fun _ => rfl
theorem hexDigitUpperC : Statement (.hexDigitUpperC) := fun _ => rfl
theorem hexDigitUpperD : Statement (.hexDigitUpperD) := fun _ => rfl
theorem hexDigitUpperE : Statement (.hexDigitUpperE) := fun _ => rfl
theorem hexDigitUpperF : Statement (.hexDigitUpperF) := fun _ => rfl
theorem hexDigitLowerA : Statement (.hexDigitLowerA) := fun _ => rfl
theorem hexDigitLowerB : Statement (.hexDigitLowerB) := fun _ => rfl
theorem hexDigitLowerC : Statement (.hexDigitLowerC) := fun _ => rfl
theorem hexDigitLowerD : Statement (.hexDigitLowerD) := fun _ => rfl
theorem hexDigitLowerE : Statement (.hexDigitLowerE) := fun _ => rfl
theorem hexDigitLowerF : Statement (.hexDigitLowerF) := fun _ => rfl
theorem junkFrame (b : Byte) : Statement (.junkFrame b) := fun _ => rfl

end Sys2Proof.Laws.EncodingLength
end

