-- ==== Sys2Proof/Tests/Slice0.lean ====
section
/-! SUPPORT. Tests: well-formedness, decoding words written out from the spec's encodings, single steps with the results of
95_test_vectors.md, and for each statement with hypotheses a state and operands that meet them. -/

namespace Sys2Proof.Tests

open Sys2Proof Sys2Proof.Machine

/-! ### Small states, all in the reference configuration -/

/-- After CODEC_INIT and QUEUE_INIT, with a transport that accepts 64 bytes. -/
def ready : State :=
  { State.reset with
    link := { LinkState.powerOn Config.reference with hs := .acked }
    codecInit := true
    queueInit := true
    answers := List.replicate 64 .ok
    statuses := [0#4] }

/-- A handshake pending since tick 10. -/
def pending : State := { ready with link := { ready.link with hs := .pending, sentAt := 10 } }

/-- Mid-frame: length field L, n bytes decoded, sum so far, first digit held if any. -/
def midFrame (len count sum : Byte) (nib : Option Nibble) (buf : List Byte) : State :=
  { ready with link := { ready.link with
      reading := true
      nibValid := nib.isSome
      nibVal := nib.getD 0#4
      frameLen := len
      rxCount := count
      rxSum := sum
      rxBuf := buf ++ List.replicate (64 - buf.length) 0#8 } }

/-- One entry [05] with tag 4 and ctx 9, sent `attempts` times, in the state s. -/
def withEntry (s : State) (attempts : Nat) (listener : Bool) : State :=
  { s with
    link := { s.link with listener := listener }
    queue := {
      head := 0
      tail := 1
      slots := { len := 1#8, data := 5#8 :: List.replicate 62 0#8, attempts := attempts, tag := 4, ctx := 9 }
        :: List.replicate 7 (Slot.powerOn Config.reference) } }

/-- A state whose transport gives these answers. -/
def answering (s : State) (answers : List Answer) : State := { s with answers := answers }

/-- The bytes of an all-accepted transmission. -/
def accepted (bytes : List Byte) : List Event := bytes.map fun b => .tx b .ok

/-- A next state with a property. -/
def nextHas (o : Host.Outcome State Fault Refusal) (f : State → Bool) : Bool :=
  match o with
  | .next t => f t
  | .fault _ => false
  | .refused _ => false

/-! ### Well-formedness: an ill-formed term for each check (R81 to R84, R79) -/

theorem test_wellFormed_accepts : wellFormed Config.reference (.submit [1#8, 2#8] 1 7 100) = true := by decide
theorem test_wellFormed_now : wellFormed Config.reference (.readiness (2 ^ 32)) = false := by decide
theorem test_wellFormed_resend_now : wellFormed Config.reference (.resend (2 ^ 32)) = false := by decide
theorem test_wellFormed_update_now : wellFormed Config.reference (.update (2 ^ 32)) = false := by decide
theorem test_wellFormed_drain_now : wellFormed Config.reference (.drain (2 ^ 32)) = false := by decide
theorem test_wellFormed_send_now : wellFormed Config.reference (.send [] (2 ^ 32)) = false := by decide
theorem test_wellFormed_send_length : wellFormed Config.reference (.send (List.replicate 256 0#8) 0) = false := by
  rw [wellFormed, payloadFits, List.length_replicate]; rfl
theorem test_wellFormed_submit_length : wellFormed Config.reference (.submit (List.replicate 256 0#8) 0 0 0) = false := by
  rw [wellFormed, payloadFits, List.length_replicate]; rfl
theorem test_wellFormed_tag : wellFormed Config.reference (.submit [] (2 ^ 16) 0 0) = false := by decide
theorem test_wellFormed_ctx : wellFormed Config.reference (.submit [] 0 (2 ^ 16) 0) = false := by decide
theorem test_wellFormed_submit_now : wellFormed Config.reference (.submit [] 0 0 (2 ^ 32)) = false := by decide
theorem test_wellFormed_reserved : wellFormed Config.reference (.reserved 0x100A#16) = false := by decide
theorem test_wellFormed_junkIdle : wellFormed Config.reference (.junkIdle 0x06#8) = false := by decide
theorem test_wellFormed_junkFrame_control : wellFormed Config.reference (.junkFrame 0x15#8) = false := by decide
theorem test_wellFormed_junkFrame_hex : wellFormed Config.reference (.junkFrame 0x41#8) = false := by decide

/-! ### Decoding words written out from R81, R82 and R79 -/

/-- `0000`: op 0. -/
theorem test_decode_codecInit : decodeCommand Config.reference (toBits 16 0x0000) = .ok .codecInit := by decide
/-- `100A`, bit by bit: op 0001, rsv 0000, imm8 00001010 (K2). -/
theorem test_decode_feed :
    decodeCommand Config.reference [false, false, false, true, false, false, false, false,
      false, false, false, false, true, false, true, false] = .ok (.feed 0x0A#8) := by decide
/-- `2000 0000000B` (K3). -/
theorem test_decode_readiness : decodeCommand Config.reference (toBits 48 0x20000000000B) = .ok (.readiness 11) := by decide
/-- `3002 01 02 00000064` (K4). -/
theorem test_decode_send :
    decodeCommand Config.reference (toBits 64 0x3002010200000064) = .ok (.send [1#8, 2#8] 100) := by decide
/-- `4000 00000065` (K5). -/
theorem test_decode_resend : decodeCommand Config.reference (toBits 48 0x400000000065) = .ok (.resend 101) := by decide
/-- `5000` (K6). -/
theorem test_decode_queueInit : decodeCommand Config.reference (toBits 16 0x5000) = .ok .queueInit := by decide
/-- `6002 01 02 0001 0007 00000064` (K7). -/
theorem test_decode_submit :
    decodeCommand Config.reference (toBits 96 0x600201020001000700000064) = .ok (.submit [1#8, 2#8] 1 7 100) := by decide
/-- `7000 0000000D` (K8). -/
theorem test_decode_update : decodeCommand Config.reference (toBits 48 0x70000000000D) = .ok (.update 13) := by decide
/-- `8000`, `0100`, `0001`, `2005` (K9). -/
theorem test_decode_reserved :
    [0x8000, 0x0100, 0x0001, 0x2005].map (fun h => (decodeCommand Config.reference (toBits 16 h)).toOption)
      = [some (.reserved 0x8000#16), some (.reserved 0x0100#16), some (.reserved 0x0001#16), some (.reserved 0x2005#16)] := by
  decide
/-- A bit string that is too short or too long for its header is no command. -/
theorem test_decode_malformed :
    decodeCommand Config.reference (toBits 15 0) = .error .truncatedHeader
      ∧ decodeCommand Config.reference (toBits 47 0x200000000000) = .error .truncatedOperands
      ∧ decodeCommand Config.reference (toBits 17 0) = .error .trailingBits := by decide
/-- The control bytes in any phase, and junk in and out of a frame. -/
theorem test_decode_control :
    decodeInbound Config.reference false 0x0A#8 = .sof ∧ decodeInbound Config.reference true 0x06#8 = .ack
      ∧ decodeInbound Config.reference true 0x15#8 = .nak ∧ decodeInbound Config.reference false 0x30#8 = .junkIdle 0x30#8
      ∧ decodeInbound Config.reference true 0x47#8 = .junkFrame 0x47#8 := by decide
/-- '0' to '9' are 0x30 to 0x39 (R70). -/
theorem test_decode_digits :
    [0x30#8, 0x31#8, 0x32#8, 0x33#8, 0x34#8, 0x35#8, 0x36#8, 0x37#8, 0x38#8, 0x39#8].map
        (decodeInbound Config.reference true)
      = [.hexDigit0, .hexDigit1, .hexDigit2, .hexDigit3, .hexDigit4, .hexDigit5, .hexDigit6, .hexDigit7, .hexDigit8,
        .hexDigit9] := by decide
/-- 'A' to 'F' are 0x41 to 0x46, 'a' to 'f' 0x61 to 0x66 (R71). -/
theorem test_decode_letters :
    [0x41#8, 0x42#8, 0x43#8, 0x44#8, 0x45#8, 0x46#8, 0x61#8, 0x62#8, 0x63#8, 0x64#8, 0x65#8, 0x66#8].map
        (decodeInbound Config.reference true)
      = [.hexDigitUpperA, .hexDigitUpperB, .hexDigitUpperC, .hexDigitUpperD, .hexDigitUpperE, .hexDigitUpperF,
        .hexDigitLowerA, .hexDigitLowerB, .hexDigitLowerC, .hexDigitLowerD, .hexDigitLowerE, .hexDigitLowerF] := by decide
/-- The internal procedures have no encoding (R82). -/
theorem test_encode_internal :
    encode Config.reference (.handle .outAck) = none ∧ encode Config.reference (.drain 5) = none := by decide
/-- An opcode-table word is decoded and fetched as the same instruction. -/
theorem test_table_word :
    decodeTableWord 16 0x3000 = some (.send [] 0) ∧ decodeTableWord 8 0x61 = some .hexDigitLowerA
      ∧ nextHas (step (State.reset.withFetchWord 16 0x0000)) (fun t => t.codecInit) = true := by decide

/-! ### Single steps, with the results of 95_test_vectors.md -/

/-- R100: after CODEC_INIT the handshake is ACKED, whatever it was. -/
theorem test_codecInit :
    nextHas (exec .codecInit pending) (fun t => t.link.hs == .acked && t.link.sentAt == 0 && t.events == []) = true := by
  decide
/-- T2: 9 - 10 wraps. -/
theorem test_readiness_wraps :
    nextHas (exec (.readiness 9) pending) (fun t => t.responses == [.readiness .timedOut]) = true := by decide
/-- T2: the same tick is under the timeout. -/
theorem test_readiness_busy :
    nextHas (exec (.readiness 10) pending) (fun t => t.responses == [.readiness .busy]) = true := by decide
/-- X1: SEND [01 02]. -/
theorem test_send :
    nextHas (exec (.send [1#8, 2#8] 100) ready) (fun t =>
      t.events == accepted [0x0D, 0x0A, 0x0A, 0x30, 0x33, 0x30, 0x31, 0x30, 0x32, 0x30, 0x36]
        && t.link.sentAt == 100 && t.link.rtLen == 2#8) = true := by decide
/-- E9: the third answer fails. -/
theorem test_send_fails :
    nextHas (exec (.send [1#8, 2#8] 100) (answering ready [.ok, .ok, .fail])) (fun t =>
      t.events == [.tx 0x0D#8 .ok, .tx 0x0A#8 .ok, .tx 0x0A#8 .fail] && t.link.hs == .pending && t.link.rtLen == 0#8
        && t.responses == [.status statusTransportError]) = true := by decide
/-- E11: RESEND with nothing recorded. -/
theorem test_resend :
    nextHas (exec (.resend 3) ready) (fun t =>
      t.events == accepted [0x0D, 0x0A, 0x0A, 0x30, 0x31, 0x30, 0x31]) = true := by decide
/-- R170: QUEUE_INIT drops a live entry. -/
theorem test_queueInit :
    nextHas (exec .queueInit (withEntry pending 1 true)) (fun t =>
      t.queue.head == t.queue.tail && !t.link.listener && t.events == []) = true := by decide
/-- Q1. -/
theorem test_submit :
    nextHas (exec (.submit [1#8] 1 2 10) ready) (fun t =>
      t.events == accepted [0x0D, 0x0A, 0x0A, 0x30, 0x32, 0x30, 0x31, 0x30, 0x33] && t.queue.tail == 1
        && t.link.listener && t.queue.slots.map (·.attempts) == [1, 0, 0, 0, 0, 0, 0, 0]) = true := by decide
/-- Q3: an oversized payload. -/
theorem test_submit_oversized :
    nextHas (exec (.submit (List.replicate 64 0#8) 1 0 10) ready) (fun t =>
      t.responses == [.status statusPayloadTooLarge] && t.queue == ready.queue) = true := by decide
/-- P4, command 9: the third timeout retires. -/
theorem test_update_exhausted :
    nextHas (exec (.update 13) (withEntry pending 3 true)) (fun t =>
      t.events == [.complete 4 9 .retriesExhausted] && t.queue.head == 1 && !t.link.listener) = true := by decide
/-- P4, command 6: the second send has no preamble. -/
theorem test_drain_resends :
    nextHas (exec (.drain 11) (withEntry pending 1 false)) (fun t =>
      t.events == accepted [0x0A, 0x30, 0x32, 0x30, 0x35, 0x30, 0x37]
        && t.queue.slots.map (·.attempts) == [2, 0, 0, 0, 0, 0, 0, 0]) = true := by decide
/-- R180's example: a third-attempt NAK is NEGATIVE_FINAL. -/
theorem test_handle :
    nextHas (exec (.handle .outNak) (withEntry pending 3 true)) (fun t =>
      t.events == [.complete 4 9 .negativeFinal] && t.queue.head == 1) = true := by decide
/-- D1's last byte. -/
theorem test_feed_delivers :
    nextHas (exec (.feed 0x36#8) (midFrame 3#8 2#8 6#8 (some 0#4) [1#8, 2#8])) (fun t =>
      t.events == [.tx 0x06#8 .ok, .deliver [1#8, 2#8] 0#4] && !t.link.reading && t.link.rxCount == 3#8) = true := by decide
/-- D7's last byte. -/
theorem test_feed_badChecksum :
    nextHas (exec (.feed 0x37#8) (midFrame 3#8 2#8 6#8 (some 0#4) [1#8, 2#8])) (fun t =>
      t.events == [.tx 0x15#8 .ok] && t.responses == [.status statusBadChecksum]) = true := by decide
/-- R131's example: a SOF_BYTE mid-nibble. -/
theorem test_sof :
    nextHas (exec .sof (midFrame 3#8 1#8 4#8 (some 3#4) [1#8])) (fun t =>
      phase t.link == .lenHi && t.responses == [.status statusOk]) = true := by decide
/-- P1, step 6. -/
theorem test_ack :
    nextHas (exec .ack (withEntry pending 1 true)) (fun t =>
      t.events == [.complete 4 9 .acknowledged] && t.link.hs == .acked) = true := by decide
/-- Q5: a first-attempt NAK keeps the entry. -/
theorem test_nak :
    nextHas (exec .nak (withEntry pending 1 true)) (fun t =>
      t.events == [] && t.link.hs == .naked && t.queue.head == 0 && !t.link.listener) = true := by decide
/-- R135: a hex digit is junk in IDLE. -/
theorem test_junkIdle :
    nextHas (exec (.junkIdle 0x30#8) ready) (fun t => t.responses == [.status statusJunkByte] && t.link == ready.link)
      = true := by decide
/-- D12: 'G' mid-frame. -/
theorem test_junkFrame :
    nextHas (exec (.junkFrame 0x47#8) (midFrame 3#8 0#8 3#8 (some 0#4) [])) (fun t =>
      phase t.link == .idle && t.responses == [.status statusJunkByte]) = true := by decide
/-- R137's example: 'a' buffers 0xA. -/
theorem test_hexDigitLowerA :
    nextHas (exec .hexDigitLowerA (midFrame 0#8 0#8 0#8 none [])) (fun t =>
      phase t.link == .lenLo && t.link.nibVal == 0xA#4) = true := by decide
/-- D4: length 0x41 is too big. -/
theorem test_hexDigit1 :
    nextHas (exec .hexDigit1 (midFrame 0#8 0#8 0#8 (some 4#4) [])) (fun t =>
      t.responses == [.status statusMessageTooBig] && phase t.link == .idle) = true := by decide
/-- D6: length 0x40 is taken. -/
theorem test_hexDigit0 :
    nextHas (exec .hexDigit0 (midFrame 0#8 0#8 0#8 (some 4#4) [])) (fun t =>
      t.link.frameLen == 64#8 && t.link.rxSum == 0x40#8) = true := by decide
/-- K9: a reserved header sets the refusal mark alone. -/
theorem test_reserved :
    nextHas (exec (.reserved 0x8000#16) ready) (fun t => t.refused && t.events == [] && t.responses == []) = true := by decide
/-- K10: FEED before any CODEC_INIT. -/
theorem test_feed_before_init :
    nextHas (exec (.feed 0x30#8) State.reset) (fun t => t.refused && t.responses == []) = true := by decide
/-- R89: FEEDFRAME [01 02], and WIRE without the failed byte. -/
theorem test_pseudo :
    feedFrame Config.reference [1#8, 2#8]
        = [.feed 0x0A, .feed 0x30, .feed 0x33, .feed 0x30, .feed 0x31, .feed 0x30, .feed 0x32, .feed 0x30, .feed 0x36]
      ∧ wire 1 [.tx 1#8 .ok, .tx 2#8 .ok, .tx 3#8 .fail] = [.feed 2#8] := by decide
/-- R88: `SEND [01 02] now=100` = `3002 01 02 00000064`. -/
theorem test_text :
    encodingText Config.reference (.send [1#8, 2#8] 100)
      = some ['3', '0', '0', '2', ' ', '0', '1', ' ', '0', '2', ' ', '0', '0', '0', '0', '0', '0', '6', '4'] := by decide

/-! ### Witnesses: for each statement with hypotheses, a state and operands that meet all of them -/

/-- The invariant holds at reset, before anything arrives. -/
theorem witness_StepKeepsInvariant : Inv State.reset ∧ step State.reset = .next State.reset :=
  ⟨⟨by decide, by decide, by decide, by decide⟩, rfl⟩
/-- The invariant holds in an initialised instance too. -/
theorem witness_Inv_initialised : Inv ready := ⟨by decide, by decide, by decide, by decide⟩
/-- And with an entry in flight. -/
theorem witness_Inv_inFlight : Inv (withEntry pending 1 true) := ⟨by decide, by decide, by decide, by decide⟩
theorem witness_StepKeepsChecksum :
    Inv (midFrame 3#8 1#8 4#8 none [1#8]) ∧ ChecksumInv (midFrame 3#8 1#8 4#8 none [1#8])
      ∧ step (midFrame 3#8 1#8 4#8 none [1#8]) = .next (midFrame 3#8 1#8 4#8 none [1#8]) :=
  ⟨⟨by decide, by decide, by decide, by decide⟩, by decide, rfl⟩
theorem witness_StepNeverFaults : Inv (withEntry pending 3 true) := ⟨by decide, by decide, by decide, by decide⟩
theorem witness_EveryCommandAnswers : Inv ready ∧ isCommand (.update 11) = true :=
  ⟨⟨by decide, by decide, by decide, by decide⟩, rfl⟩
theorem witness_DecodeEncodeAgree :
    configOk Config.reference = true ∧ wellFormed Config.reference (.send [255#8] (2 ^ 32 - 1)) = true
      ∧ inPhase true (.send [255#8] (2 ^ 32 - 1)) = true
      ∧ encode Config.reference (.send [255#8] (2 ^ 32 - 1)) = some (.command (toBits 56 0x3001FFFFFFFFFF)) := by decide
/-- A byte class, in the one phase it belongs to. -/
theorem witness_DecodeEncodeAgree_junkIdle :
    wellFormed Config.reference (.junkIdle 0x30#8) = true ∧ inPhase false (.junkIdle 0x30#8) = true
      ∧ encode Config.reference (.junkIdle 0x30#8) = some (.inbound 0x30#8) := by decide
theorem witness_EncodeDecodeAgree :
    decodeCommand Config.reference (toBits 16 0x10FF) = .ok (.feed 0xFF#8) ∧ ∀ h, Instr.feed 0xFF#8 ≠ .reserved h :=
  ⟨by decide, fun _ => by simp⟩
theorem witness_DecodedIsWellFormed : decode Config.reference true (.inbound 0x66#8) = .ok .hexDigitLowerF := by decide
/-- The three clauses of R84 at their boundary values: op 8, rsv 1, imm8 1. -/
theorem witness_ReservedHeadersRefused :
    (8 ≤ 0x8000 / 4096) ∧ (0x1100 / 256 % 16 ≠ 0) ∧ (0x7001 / 4096 ∈ [0, 2, 4, 5, 7] ∧ 0x7001 % 256 ≠ 0)
      ∧ (0xFFFF : Nat) < 2 ^ 16
      ∧ { ready with arrivals := [.command (toBits 16 0x7001)] }.arrivals = .command (toBits 16 0x7001 ++ []) :: [] := by
  decide
theorem witness_FrameLayout : (List.replicate 2 255#8).length ≤ 254 ∧ (List.replicate 2 255#8)[1]? = some 255#8 := by decide
theorem witness_StepRunsDecodedInstruction :
    { ready with arrivals := [.command (toBits 16 0x100A)] }.arrivals = .command (toBits 16 0x100A) :: []
      ∧ (∀ bits, Arrival.command (toBits 16 0x100A) ≠ .overlapping bits)
      ∧ decode ready.cfg ready.link.reading (.command (toBits 16 0x100A)) = .ok (.feed 0x0A#8) :=
  ⟨rfl, fun _ => by simp, by decide⟩
theorem witness_IdleStepKeepsState : ready.arrivals = [] := rfl
theorem witness_OverlappingCommandRefused :
    { ready with arrivals := [.overlapping []] }.arrivals = .overlapping [] :: [] := rfl
theorem witness_CommandsBeforeCodecInitRefused :
    isCommand .queueInit = true ∧ Instr.queueInit ≠ .codecInit ∧ State.reset.codecInit = false := by decide
theorem witness_QueueCommandsBeforeQueueInitRefused :
    { ready with queueInit := false }.queueInit = false ∧ State.reset.codecInit = false := by decide
theorem witness_IllFormedConfigurationRefused :
    isCommand .codecInit = true
      ∧ configOk (State.powerOn { Config.reference with ackByte := 0x0A#8 }).cfg = false := by decide
theorem witness_MarksAndParametersKept :
    exec (.reserved 0x8000#16) ready = .next { ready with refused := true } ∧ ready.codecInit = true
      ∧ ready.queueInit = true := ⟨rfl, rfl, rfl⟩
theorem witness_CodecInitResult : configOk State.reset.cfg = true := by decide
theorem witness_QueueInitResult : admitsCodec (withEntry pending 1 true) = true := by decide
theorem witness_ReadinessResult :
    admitsCodec ready = true ∧ ready.link.hs = .acked
      ∧ { ready.link with hs := .naked }.hs = .naked
      ∧ pending.link.hs = .pending ∧ ticksSince pending.cfg 10 pending.link.sentAt < pending.cfg.timeoutTicks
      ∧ pending.cfg.timeoutTicks ≤ ticksSince pending.cfg 11 pending.link.sentAt
      ∧ pending.cfg.timeoutTicks ≤ ticksSince pending.cfg 9 pending.link.sentAt := by decide
theorem witness_SendCompletes :
    admitsCodec ready = true ∧ ready.link.hs ≠ .unused ∧ ready.link.rtBuf.length = ready.cfg.maxPayload
      ∧ [1#8, 2#8].length ≤ ready.cfg.maxPayload
      ∧ Accepts ready ((if ready.link.hs = .pending then [] else [0x0D#8, 0x0A#8])
          ++ frameBytes ready.cfg [1#8, 2#8]).length := by decide
/-- The same with a handshake pending: no preamble. -/
theorem witness_SendCompletes_pending :
    pending.link.hs ≠ .unused ∧ Accepts pending ((if pending.link.hs = .pending then [] else [0x0D#8, 0x0A#8])
      ++ frameBytes pending.cfg []).length := by decide
theorem witness_SendRejectsOversizedPayload :
    admitsCodec ready = true ∧ ready.cfg.maxPayload < (List.replicate 64 0#8).length := by decide
/-- A failure in the preamble, and one at the SOF byte. -/
theorem witness_SendStopsAtTransportFailure :
    admitsCodec (answering ready [.ok, .fail]) = true ∧ (answering ready [.ok, .fail]).link.hs ≠ .unused
      ∧ [9#8].length ≤ ready.cfg.maxPayload ∧ (sendBytes (answering ready [.ok, .fail]) [9#8])[1]? = some 0x0A#8
      ∧ FailsAt (answering ready [.ok, .fail]) 1 ∧ FailsAt (answering ready [.ok, .ok, .fail]) 2
      ∧ (sendBytes (answering ready [.ok, .ok, .fail]) [9#8])[2]? = some 0x0A#8 := by decide
/-- A state with [01 02] recorded. -/
def recorded : State :=
  { ready with link := { ready.link with rtBuf := 1#8 :: 2#8 :: List.replicate 61 0#8, rtLen := 2#8 } }
theorem witness_ResendSendsRecordedPayload :
    admitsCodec recorded = true ∧ recorded.link.hs ≠ .unused ∧ recorded.link.rtBuf.length = recorded.cfg.maxPayload
      ∧ recorded.link.rtLen.toNat ≤ recorded.cfg.maxPayload
      ∧ Accepts recorded (sendBytes recorded (recorded.link.rtBuf.take recorded.link.rtLen.toNat)).length := by decide
theorem witness_ResendWithNothingRecorded :
    admitsCodec ready = true ∧ ready.link.hs ≠ .unused ∧ ready.link.rtLen = 0#8 ∧ Accepts ready 7 := by decide
theorem witness_FeedStartOfFrame : admitsCodec (midFrame 3#8 1#8 4#8 (some 3#4) [1#8]) = true := by decide
theorem witness_FeedHandshakeWithoutListener :
    admitsCodec pending = true ∧ pending.link.hs = .pending ∧ pending.link.listener = false ∧ ready.link.hs = .acked := by
  decide
theorem witness_FeedHandshakeRunsHandle :
    admitsCodec (withEntry pending 3 true) = true ∧ (withEntry pending 3 true).link.hs = .pending
      ∧ (withEntry pending 3 true).link.listener = true
      ∧ (withEntry pending 3 true).queue.head ≠ (withEntry pending 3 true).queue.tail
      ∧ (withEntry pending 3 true).queue.slots[(withEntry pending 3 true).queue.head]?
          = some { len := 1#8, data := 5#8 :: List.replicate 62 0#8, attempts := 3, tag := 4, ctx := 9 }
      ∧ (withEntry pending 2 true).queue.slots[(withEntry pending 2 true).queue.head]?
          = some { len := 1#8, data := 5#8 :: List.replicate 62 0#8, attempts := 2, tag := 4, ctx := 9 } := by decide
theorem witness_FeedJunkInIdle :
    admitsCodec ready = true ∧ ready.link.reading = false ∧ 0x0D#8 ≠ ready.cfg.sofByte ∧ 0x0D#8 ≠ ready.cfg.ackByte
      ∧ 0x0D#8 ≠ ready.cfg.nakByte := by decide
theorem witness_FeedJunkMidFrame :
    admitsCodec (midFrame 0#8 0#8 0#8 (some 3#4) []) = true ∧ (midFrame 0#8 0#8 0#8 (some 3#4) []).link.reading = true
      ∧ 0x47#8 ≠ ready.cfg.sofByte ∧ 0x47#8 ≠ ready.cfg.ackByte ∧ 0x47#8 ≠ ready.cfg.nakByte ∧ hexVal 0x47#8 = none := by
  decide
theorem witness_FeedFirstDigit :
    admitsCodec (midFrame 3#8 1#8 4#8 none [1#8]) = true ∧ (midFrame 3#8 1#8 4#8 none [1#8]).link.reading = true
      ∧ (midFrame 3#8 1#8 4#8 none [1#8]).link.nibValid = false ∧ hexVal 0x66#8 = some 15#4 := by decide
/-- Lengths 1, 2, 64 and 65: the boundary values of the three clauses. -/
theorem witness_FeedLengthField :
    admitsCodec (midFrame 0#8 0#8 0#8 (some 4#4) []) = true ∧ (midFrame 0#8 0#8 0#8 (some 4#4) []).link.nibValid = true
      ∧ (midFrame 0#8 0#8 0#8 (some 4#4) []).link.reading = true
      ∧ (midFrame 0#8 0#8 0#8 (some 4#4) []).link.frameLen = 0#8
      ∧ hexVal 0x31#8 = some 1#4 ∧ hexVal 0x30#8 = some 0#4 ∧ hexVal 0x32#8 = some 2#4
      ∧ 0x01#8 = ((0#4).setWidth 8 <<< 4) ||| (1#4).setWidth 8 ∧ (0x01#8).toNat < 2
      ∧ 0x02#8 = ((0#4).setWidth 8 <<< 4) ||| (2#4).setWidth 8 ∧ 2 ≤ (0x02#8).toNat
      ∧ 0x40#8 = ((4#4).setWidth 8 <<< 4) ||| (0#4).setWidth 8 ∧ (0x40#8).toNat ≤ ready.cfg.maxFrame
      ∧ 0x41#8 = ((4#4).setWidth 8 <<< 4) ||| (1#4).setWidth 8 ∧ ready.cfg.maxFrame < (0x41#8).toNat := by decide
theorem witness_FeedDataByte :
    admitsCodec (midFrame 3#8 0#8 3#8 (some 0#4) []) = true ∧ (midFrame 3#8 0#8 3#8 (some 0#4) []).link.reading = true
      ∧ (midFrame 3#8 0#8 3#8 (some 0#4) []).link.nibValid = true
      ∧ (midFrame 3#8 0#8 3#8 (some 0#4) []).link.frameLen ≠ 0#8 ∧ hexVal 0x31#8 = some 1#4
      ∧ 0x01#8 = ((midFrame 3#8 0#8 3#8 (some 0#4) []).link.nibVal.setWidth 8 <<< 4) ||| (1#4).setWidth 8
      ∧ (midFrame 3#8 0#8 3#8 (some 0#4) []).link.rxCount.toNat < (midFrame 3#8 0#8 3#8 (some 0#4) []).link.rxBuf.length
      ∧ (midFrame 3#8 0#8 3#8 (some 0#4) []).link.rxCount + 1#8 ≠ (midFrame 3#8 0#8 3#8 (some 0#4) []).link.frameLen := by
  decide
/-- D1 before its last byte. -/
def beforeTerminal : State := midFrame 3#8 2#8 6#8 (some 0#4) [1#8, 2#8]
theorem witness_FeedGoodChecksumDelivers :
    admitsCodec beforeTerminal = true ∧ beforeTerminal.link.reading = true ∧ beforeTerminal.link.nibValid = true
      ∧ beforeTerminal.link.frameLen ≠ 0#8 ∧ hexVal 0x36#8 = some 6#4
      ∧ 0x06#8 = (beforeTerminal.link.nibVal.setWidth 8 <<< 4) ||| (6#4).setWidth 8
      ∧ beforeTerminal.link.rxCount.toNat < beforeTerminal.link.rxBuf.length
      ∧ beforeTerminal.link.rxCount + 1#8 = beforeTerminal.link.frameLen ∧ 0x06#8 = beforeTerminal.link.rxSum
      ∧ beforeTerminal.answers = .ok :: List.replicate 63 .ok ∧ beforeTerminal.statuses = 0#4 :: [] := by decide
theorem witness_FeedBadChecksumRejects :
    hexVal 0x37#8 = some 7#4 ∧ 0x07#8 = (beforeTerminal.link.nibVal.setWidth 8 <<< 4) ||| (7#4).setWidth 8
      ∧ 0x07#8 ≠ beforeTerminal.link.rxSum ∧ admitsCodec beforeTerminal = true ∧ beforeTerminal.link.reading = true
      ∧ beforeTerminal.link.nibValid = true ∧ beforeTerminal.link.frameLen ≠ 0#8
      ∧ beforeTerminal.link.rxCount.toNat < beforeTerminal.link.rxBuf.length
      ∧ beforeTerminal.link.rxCount + 1#8 = beforeTerminal.link.frameLen
      ∧ beforeTerminal.answers = .ok :: List.replicate 63 .ok := by decide
theorem witness_FeedReplyFailure :
    (answering beforeTerminal [.fail]).answers = .fail :: [] ∧ admitsCodec (answering beforeTerminal [.fail]) = true
      ∧ (answering beforeTerminal [.fail]).link.reading = true ∧ (answering beforeTerminal [.fail]).link.nibValid = true
      ∧ (answering beforeTerminal [.fail]).link.frameLen ≠ 0#8 ∧ hexVal 0x36#8 = some 6#4
      ∧ 0x06#8 = ((answering beforeTerminal [.fail]).link.nibVal.setWidth 8 <<< 4) ||| (6#4).setWidth 8
      ∧ beforeTerminal.link.rxCount.toNat < beforeTerminal.link.rxBuf.length
      ∧ beforeTerminal.link.rxCount + 1#8 = beforeTerminal.link.frameLen := by decide
/-- An empty queue, a last attempt, and an earlier one. -/
theorem witness_HandleResult :
    ready.queue.head = ready.queue.tail ∧ (withEntry pending 3 true).queue.head ≠ (withEntry pending 3 true).queue.tail
      ∧ (withEntry pending 3 true).queue.slots[0]?
          = some { len := 1#8, data := 5#8 :: List.replicate 62 0#8, attempts := 3, tag := 4, ctx := 9 }
      ∧ (withEntry pending 2 true).queue.slots[0]?
          = some { len := 1#8, data := 5#8 :: List.replicate 62 0#8, attempts := 2, tag := 4, ctx := 9 }
      ∧ HandshakeOutcome.outNak ≠ .outAck := by decide
/-- A full queue: 7 of 8 slots. -/
def fullQueue : State := { pending with queue := { pending.queue with head := 1, tail := 0 } }
theorem witness_SubmitRejections :
    admitsQueue fullQueue = true ∧ fullQueue.cfg.maxPayload < (List.replicate 64 0#8).length
      ∧ (List.replicate 63 0#8).length ≤ fullQueue.cfg.maxPayload
      ∧ (((fullQueue.queue.tail : Int) - fullQueue.queue.head) % 2 ^ fullQueue.cfg.qcapLog2).toNat
          = 2 ^ fullQueue.cfg.qcapLog2 - 1 := by decide
theorem witness_SubmitWhileBusyEnqueues :
    Inv (withEntry pending 1 true) ∧ admitsQueue (withEntry pending 1 true) = true
      ∧ [1#8].length ≤ pending.cfg.maxPayload
      ∧ live pending.cfg (withEntry pending 1 true).queue ≠ pending.cfg.qcap - 1
      ∧ (withEntry pending 1 true).queue.slots[(withEntry pending 1 true).queue.tail]?
          = some (Slot.powerOn Config.reference)
      ∧ (withEntry pending 1 true).link.hs = .pending
      ∧ ¬TimedOut pending.cfg 10 (withEntry pending 1 true).link.sentAt :=
  ⟨witness_Inv_inFlight, by decide, by decide, by decide, by decide, by decide, by decide⟩
theorem witness_SubmitSendsAtOnce :
    Inv ready ∧ admitsQueue ready = true ∧ [1#8].length ≤ ready.cfg.maxPayload ∧ ready.queue.head = ready.queue.tail
      ∧ ready.queue.slots[ready.queue.tail]? = some (Slot.powerOn Config.reference) ∧ ready.link.hs ≠ .pending
      ∧ Accepts ready (2 + (frameBytes ready.cfg [1#8]).length) :=
  ⟨witness_Inv_initialised, by decide, by decide, by decide, by decide, by decide, by decide⟩
theorem witness_SubmitAndUpdateAnswerOk :
    Inv ready ∧ admitsQueue ready = true ∧ [1#8].length ≤ ready.cfg.maxPayload
      ∧ live ready.cfg ready.queue ≠ ready.cfg.qcap - 1 :=
  ⟨witness_Inv_initialised, by decide, by decide, by decide⟩
/-- An old head x: resolved; timed out and heard by nobody; timed out with the queue listening, at 3 attempts and below. -/
theorem witness_SubmitServesOldHead :
    Inv (withEntry ready 1 true) ∧ Inv (withEntry pending 1 false) ∧ Inv (withEntry pending 3 true)
      ∧ admitsQueue (withEntry ready 1 true) = true ∧ [1#8].length ≤ ready.cfg.maxPayload
      ∧ live ready.cfg (withEntry ready 1 true).queue ≠ ready.cfg.qcap - 1
      ∧ (withEntry ready 1 true).queue.slots[(withEntry ready 1 true).queue.tail]?
          = some (Slot.powerOn Config.reference)
      ∧ (withEntry ready 1 true).queue.head ≠ (withEntry ready 1 true).queue.tail
      ∧ (withEntry ready 1 true).queue.slots[(withEntry ready 1 true).queue.head]?
          = some { len := 1#8, data := 5#8 :: List.replicate 62 0#8, attempts := 1, tag := 4, ctx := 9 }
      ∧ [5#8] = (5#8 :: List.replicate 62 0#8).take (1#8).toNat
      ∧ (withEntry ready 1 true).link.hs ≠ .pending
      ∧ Accepts (withEntry ready 1 true) (sendBytes (withEntry ready 1 true) [5#8]).length
      ∧ ((withEntry pending 1 false).link.listener = false ∧ TimedOut pending.cfg 11 pending.link.sentAt)
      ∧ ((withEntry pending 3 true).link.hs = .pending ∧ (withEntry pending 3 true).link.listener = true) :=
  ⟨⟨by decide, by decide, by decide, by decide⟩, ⟨by decide, by decide, by decide, by decide⟩,
    ⟨by decide, by decide, by decide, by decide⟩, by decide⟩
/-- An empty queue; and an entry in flight under its timeout. -/
theorem witness_DrainDoesNothing :
    ready.queue.head = ready.queue.tail ∧ admitsQueue ready = true
      ∧ ((withEntry pending 1 true).link.hs = .pending
        ∧ ¬TimedOut pending.cfg 10 (withEntry pending 1 true).link.sentAt) := by decide
theorem witness_DrainHandlesTimeout :
    (withEntry pending 3 true).queue.head ≠ (withEntry pending 3 true).queue.tail
      ∧ (withEntry pending 3 true).queue.slots[(withEntry pending 3 true).queue.head]?
          = some { len := 1#8, data := 5#8 :: List.replicate 62 0#8, attempts := 3, tag := 4, ctx := 9 }
      ∧ (withEntry pending 3 true).link.hs = .pending ∧ (withEntry pending 3 true).link.listener = true
      ∧ TimedOut pending.cfg 11 (withEntry pending 3 true).link.sentAt ∧ admitsQueue (withEntry pending 3 true) = true := by
  decide
/-- A resolved handshake; and a timed-out one with nobody listening. -/
theorem witness_DrainSendsHead :
    (withEntry ready 0 false).queue.head ≠ (withEntry ready 0 false).queue.tail
      ∧ (withEntry ready 0 false).queue.slots[(withEntry ready 0 false).queue.head]?
          = some { len := 1#8, data := 5#8 :: List.replicate 62 0#8, attempts := 0, tag := 4, ctx := 9 }
      ∧ (1#8).toNat ≤ (5#8 :: List.replicate 62 0#8).length ∧ (1#8).toNat ≤ ready.cfg.maxPayload
      ∧ [5#8] = (5#8 :: List.replicate 62 0#8).take (1#8).toNat
      ∧ (withEntry ready 0 false).link.rtBuf.length = ready.cfg.maxPayload ∧ (withEntry ready 0 false).link.hs = .acked
      ∧ Accepts (withEntry ready 0 false) (sendBytes (withEntry ready 0 false) [5#8]).length
      ∧ ((withEntry pending 1 false).link.hs = .pending ∧ (withEntry pending 1 false).link.listener = false
        ∧ TimedOut pending.cfg 11 (withEntry pending 1 false).link.sentAt) := by decide
/-- A failure at the LF of the preamble, one at the SOF byte after it, and one at the SOF byte of a send without a preamble. -/
theorem witness_PreambleFailureCountsAttempt :
    (withEntry ready 3 false).queue.head ≠ (withEntry ready 3 false).queue.tail
      ∧ (withEntry ready 3 false).queue.slots[(withEntry ready 3 false).queue.head]?
          = some { len := 1#8, data := 5#8 :: List.replicate 62 0#8, attempts := 3, tag := 4, ctx := 9 }
      ∧ (1#8).toNat ≤ (5#8 :: List.replicate 62 0#8).length ∧ (1#8).toNat ≤ ready.cfg.maxPayload
      ∧ [5#8] = (5#8 :: List.replicate 62 0#8).take (1#8).toNat ∧ ready.link.hs = .acked
      ∧ (sendBytes ready [5#8])[1]? = some 0x0A#8 ∧ FailsAt (withEntry (answering ready [.ok, .fail]) 3 false) 1
      ∧ (sendBytes ready [5#8])[2]? = some 0x0A#8 ∧ FailsAt (withEntry (answering ready [.ok, .ok, .fail]) 3 false) 2
      ∧ (pending.link.hs = .pending ∧ pending.link.listener = false ∧ TimedOut pending.cfg 11 pending.link.sentAt)
      ∧ (sendBytes pending [5#8])[0]? = some 0x0A#8 ∧ FailsAt (withEntry (answering pending [.fail]) 3 false) 0
      ∧ admitsQueue (withEntry ready 3 false) = true := by decide
/-- The nine SUBMITs of Q2 at now = 10. -/
def nineSubmits : List Instr := (List.range 9).map fun k => .submit [BitVec.ofNat 8 (k + 1)] (k + 1) 0 10
theorem nineSubmits_are : ∀ i ∈ nineSubmits, ∃ p tag ctx, i = .submit p tag ctx 10 ∧ p.length ≤ ready.cfg.maxPayload := by
  intro i hi
  obtain ⟨k, -, rfl⟩ := List.mem_map.mp hi
  exact ⟨_, _, _, rfl, show 1 ≤ 63 by decide⟩
/-- Q2: the start with the handshake resolved, and the same with one pending under its timeout. -/
theorem witness_QueueHoldsCapacityLessOne :
    Inv ready ∧ admitsQueue ready = true ∧ ready.queue.head = ready.queue.tail ∧ ready.link.hs ≠ .pending
      ∧ (∀ p tag ctx, nineSubmits.head? = some (.submit p tag ctx 10) →
          Accepts ready (2 + (frameBytes ready.cfg p).length))
      ∧ Inv pending ∧ pending.queue.head = pending.queue.tail ∧ pending.link.hs = .pending
      ∧ ¬TimedOut pending.cfg 10 pending.link.sentAt := by
  refine ⟨witness_Inv_initialised, by decide, by decide, by decide, ?_, ⟨by decide, by decide, by decide, by decide⟩, by decide,
    by decide, by decide⟩
  intro p tag ctx h
  have hp : p = [1#8] := (Instr.submit.inj (Option.some.inj h)).1.symm
  subst hp
  decide
/-- A full queue of 7 entries whose head is in flight with the queue listening. -/
def fullInFlight : State :=
  { withEntry pending 1 true with queue := { (withEntry pending 1 true).queue with tail := 7 } }
/-- P5: the full queue, and the FEED of ACK_BYTE that retires its head. -/
theorem witness_QueueHoldsCapacityLessOne_retired :
    Inv fullInFlight ∧ admitsQueue fullInFlight = true ∧ live fullInFlight.cfg fullInFlight.queue = fullInFlight.cfg.qcap - 1
      ∧ fullInFlight.link.hs = .pending ∧ fullInFlight.link.listener = true
      ∧ Instr.feed fullInFlight.cfg.ackByte ≠ .queueInit
      ∧ nextHas (exec (.feed fullInFlight.cfg.ackByte) fullInFlight) (fun u => u.queue.head == 1) = true :=
  ⟨⟨by decide, by decide, by decide, by decide⟩, by decide, by decide, by decide, by decide, by decide, by decide⟩
theorem witness_OnlyHeadEntryRetires :
    Instr.handle .outAck ≠ .queueInit
      ∧ exec (.handle .outAck) (withEntry pending 1 true)
          = .next (detach (retireHead { len := 1#8, data := 5#8 :: List.replicate 62 0#8, attempts := 1, tag := 4, ctx := 9 }
              .outAck (withEntry pending 1 true))) := ⟨by decide, rfl⟩
/-- The first send by UPDATE, from a resolved handshake; from one pending, timed out and heard by nobody; and by SUBMIT. -/
theorem witness_ThreeSendsThenExhausted :
    Inv (withEntry ready 0 false) ∧ Inv (withEntry pending 0 false) ∧ Inv ready
      ∧ admitsQueue (withEntry ready 0 false) = true
      ∧ (withEntry ready 0 false).queue.head ≠ (withEntry ready 0 false).queue.tail
      ∧ (withEntry ready 0 false).queue.slots[(withEntry ready 0 false).queue.head]?
          = some { len := 1#8, data := 5#8 :: List.replicate 62 0#8, attempts := 0, tag := 4, ctx := 9 }
      ∧ [5#8] = (5#8 :: List.replicate 62 0#8).take (1#8).toNat ∧ (withEntry ready 0 false).link.hs ≠ .pending
      ∧ ((withEntry pending 0 false).link.listener = false ∧ TimedOut pending.cfg 11 pending.link.sentAt)
      ∧ (TimedOut ready.cfg 12 11 ∧ TimedOut ready.cfg 13 12 ∧ TimedOut ready.cfg 14 13)
      ∧ Accepts (withEntry ready 0 false)
          ((sendBytes (withEntry ready 0 false) [5#8]).length + 2 * (frameBytes ready.cfg [5#8]).length)
      ∧ Accepts (withEntry pending 0 false)
          ((sendBytes (withEntry pending 0 false) [5#8]).length + 2 * (frameBytes ready.cfg [5#8]).length)
      ∧ (ready.queue.head = ready.queue.tail ∧ [5#8].length ≤ ready.cfg.maxPayload) :=
  ⟨⟨by decide, by decide, by decide, by decide⟩, ⟨by decide, by decide, by decide, by decide⟩, witness_Inv_initialised,
    by decide⟩
/-- The characters of D10, in lower case, the last one apart. -/
theorem witness_FrameResynchronizes :
    admitsCodec beforeTerminal = true ∧ beforeTerminal.link.rxBuf.length = beforeTerminal.cfg.maxFrame
      ∧ 1 ≤ [0xAB#8, 0xCD#8].length ∧ [0xAB#8, 0xCD#8].length ≤ beforeTerminal.cfg.maxPayload
      ∧ decodeDigits ([0x30#8, 0x33#8, 0x61#8, 0x62#8, 0x63#8, 0x64#8, 0x37#8] ++ [0x62#8])
          = some (BitVec.ofNat 8 ([0xAB#8, 0xCD#8].length + 1) :: ([0xAB#8, 0xCD#8] ++ [checksum [0xAB#8, 0xCD#8]]))
      ∧ beforeTerminal.answers = .ok :: List.replicate 63 .ok ∧ beforeTerminal.statuses = 0#4 :: [] := by decide
/-- D8 (a payload byte changed) and D7 (the checksum changed). -/
theorem witness_OneChangedByteIsDetected :
    admitsCodec ready = true ∧ ready.link.rxBuf.length = ready.cfg.maxFrame ∧ [1#8, 2#8].length ≤ ready.cfg.maxPayload
      ∧ ([1#8, 2#8][1]? = some 2#8 ∧ 3#8 ≠ 2#8 ∧ [1#8, 3#8] = [1#8, 2#8].set 1 3#8 ∧ 6#8 = checksum [1#8, 2#8])
      ∧ decodeDigits [0x30#8, 0x33#8, 0x30#8, 0x31#8, 0x30#8, 0x33#8, 0x30#8, 0x36#8]
          = some (BitVec.ofNat 8 ([1#8, 2#8].length + 1) :: ([1#8, 3#8] ++ [6#8]))
      ∧ 7#8 ≠ checksum [1#8, 2#8]
      ∧ decodeDigits [0x30#8, 0x33#8, 0x30#8, 0x31#8, 0x30#8, 0x32#8, 0x30#8, 0x37#8]
          = some (BitVec.ofNat 8 ([1#8, 2#8].length + 1) :: ([1#8, 2#8] ++ [7#8]))
      ∧ ready.answers = .ok :: List.replicate 63 .ok := by decide
/-- A second instance, with an ACK_BYTE and a MAX_FRAME of its own. -/
def peer : State :=
  { State.powerOn { Config.reference with ackByte := 0x07#8, maxFrame := 3 } with
    codecInit := true, answers := [.ok], statuses := [0#4] }
/-- A payload of two bytes, and the empty one, into an instance with an ACK_BYTE and a MAX_FRAME of its own. -/
theorem witness_RoundTripThroughPeer :
    admitsCodec ready = true ∧ ready.link.hs ≠ .unused ∧ ready.link.rtBuf.length = ready.cfg.maxPayload
      ∧ [1#8, 2#8].length ≤ ready.cfg.maxPayload ∧ Accepts ready (sendBytes ready [1#8, 2#8]).length
      ∧ Accepts ready (sendBytes ready []).length ∧ admitsCodec peer = true ∧ peer.cfg.sofByte = ready.cfg.sofByte
      ∧ [1#8, 2#8].length ≤ peer.cfg.maxPayload ∧ peer.link.rxBuf.length = peer.cfg.maxFrame
      ∧ peer.answers = .ok :: [] ∧ peer.statuses = 0#4 :: [] := by decide
theorem witness_CommandsWriteOnlyTheirFields :
    isFeed (.junkIdle 0x30#8) = true
      ∧ exec (.junkIdle 0x30#8) ready = .next (ready.respond (.status statusJunkByte)) := ⟨rfl, rfl⟩
/-- A live entry, and an UPDATE that finds the codec busy. -/
theorem witness_CommandsWriteOnlyTheirFields_live :
    Inv (withEntry pending 1 true) ∧ Instr.update 10 ≠ .queueInit
      ∧ 0 < live pending.cfg (withEntry pending 1 true).queue
      ∧ exec (.update 10) (withEntry pending 1 true) = .next ((withEntry pending 1 true).respond (.status statusOk)) :=
  ⟨witness_Inv_inFlight, by decide, by decide, rfl⟩
/-- A next state for the FEED clause (an ACK_BYTE that retires an entry), the SEND, the RESEND and the DRAIN clause. -/
theorem witness_EventsOfOneCommand :
    isFeed .ack = true
      ∧ nextHas (exec .ack (withEntry pending 1 true)) (fun t => t.events == [.complete 4 9 .acknowledged]) = true
      ∧ nextHas (exec (.send [1#8] 10) ready) (fun t => t.events.length == 9) = true
      ∧ nextHas (exec (.resend 10) recorded) (fun t => t.events.length == 11) = true
      ∧ nextHas (exec (.drain 10) (withEntry ready 0 false)) (fun t => t.events.length == 9) = true := by decide
theorem witness_EveryCommandIsBounded :
    exec (.readiness 10) ready = .next (ready.respond (.readiness .ready)) := rfl

end Sys2Proof.Tests
end

