-- ==== Sys2Proof/Proofs/Scope.lean ====
section
/-! PROOFS. What every command shares, and the scope of the model (R4, R8, R59, R217): admission, the well-formed
configurations, and the step that runs what arrives. -/

namespace Sys2Proof.Machine

/-! ### Admission (R217): every command goes through `command` -/

/-- The admission of each command (R217 (a) to (c), (e)); the two internal procedures are no commands. It is tied to
`exec` by `exec_eq_command`. -/
def admission (s : State) : Instr → Bool
  | .codecInit => admitsAny s
  | .submit _ _ _ _ | .update _ => admitsQueue s
  | .reserved _ => false
  | _ => admitsCodec s

/-- Each row of FEED is FEED of one byte (R79, log 9). -/
theorem exec_of_isFeed {i : Instr} (h : isFeed i = true) (s : State) : ∃ b, exec i s = feedCommand b s := by
  cases i with
  | codecInit | readiness | send | resend | queueInit | submit | update | reserved | handle | drain => nomatch h
  | _ => exact ⟨_, rfl⟩

/-- Every command is one `command`, under its admission. -/
theorem exec_eq_command {i : Instr} (h : isCommand i = true) (s : State) :
    ∃ body, exec i s = command (admission s i) body s := by
  have hfeed : isFeed i = true → ∃ b, exec i s = feedCommand b s := fun hf => exec_of_isFeed hf s
  cases i with
  | handle | drain => nomatch h
  | codecInit | readiness | send | resend | queueInit | submit | update | reserved =>
    dsimp only [exec]
    exact ⟨_, rfl⟩
  | _ =>
    obtain ⟨b, hb⟩ := hfeed rfl
    exact ⟨fun s => withStatus (feedByte b s), hb⟩

/-- A command that is not admitted is refused, whichever it is (R217). -/
theorem exec_refused {i : Instr} {s : State} (hi : isCommand i = true) (ha : admission s i = false) :
    exec i s = .next s.refuse := by
  obtain ⟨body, hbody⟩ := exec_eq_command hi s
  exact hbody.trans (command_refused ha s)

/-- Only a well-formed configuration admits a command (R217 (e)). -/
theorem admission_of_not_configOk {s : State} (h : configOk s.cfg = false) (i : Instr) : admission s i = false := by
  unfold admission
  split
  · exact h
  · simp [admitsQueue, h]
  · simp [admitsQueue, h]
  · rfl
  · simp [admitsCodec, h]

/-! ### Well-formed configurations (R8) -/

/-- A byte is no hex digit exactly when it lies in none of R71's three ranges. -/
theorem hexVal_isNone_iff (b : Byte) :
    (hexVal b).isNone = true ↔
      ¬(0x30 ≤ b.toNat ∧ b.toNat ≤ 0x39) ∧ ¬(0x41 ≤ b.toNat ∧ b.toNat ≤ 0x46)
        ∧ ¬(0x61 ≤ b.toNat ∧ b.toNat ≤ 0x66) := by
  unfold hexVal
  split
  next hdigit => simp [hdigit]
  next hdigit =>
    split
    next hupper => simp [hupper]
    next hupper =>
      split
      next hlower => simp [hlower]
      next hlower => exact iff_of_true rfl ⟨hdigit, hupper, hlower⟩

/-- R8 (a). -/
theorem controlDistinct_iff (c : Config) :
    controlDistinct c = true ↔ c.sofByte ≠ c.ackByte ∧ c.sofByte ≠ c.nakByte ∧ c.ackByte ≠ c.nakByte := by
  simp [controlDistinct, and_assoc]

/-- R8 (b). -/
theorem controlNotHex_iff (c : Config) :
    controlNotHex c = true ↔ ∀ b ∈ [c.sofByte, c.ackByte, c.nakByte],
      ¬(0x30 ≤ b.toNat ∧ b.toNat ≤ 0x39) ∧ ¬(0x41 ≤ b.toNat ∧ b.toNat ≤ 0x46)
        ∧ ¬(0x61 ≤ b.toNat ∧ b.toNat ≤ 0x66) := by
  simp only [controlNotHex, Bool.and_eq_true, hexVal_isNone_iff, List.forall_mem_cons, List.not_mem_nil,
    false_implies, implies_true, and_true, and_assoc]

/-- R8 (c). -/
theorem handshakeNotPreamble_iff (c : Config) :
    handshakeNotPreamble c = true ↔ ∀ b ∈ [c.ackByte, c.nakByte], b.toNat ≠ 0x0D ∧ b.toNat ≠ 0x0A := by
  simp [handshakeNotPreamble, ← BitVec.toNat_inj, List.forall_mem_cons, -List.mem_cons, and_assoc]

/-- R8 (d) to (g). -/
theorem sizesInRange_iff (c : Config) :
    sizesInRange c = true ↔ (2 ≤ c.maxFrame ∧ c.maxFrame ≤ 255) ∧ 1 ≤ c.qcapLog2
      ∧ (1 ≤ c.timeoutTicks ∧ c.timeoutTicks ≤ 2 ^ c.timeW - 1) ∧ 3 ≤ 2 ^ c.attW - 1 := by
  simp only [sizesInRange, Bool.and_eq_true, decide_eq_true_eq, and_assoc]

/-- The well-formed configurations are the ones of R8 (a) to (g). -/
theorem configOk_iff (c : Config) :
    configOk c = true ↔
      controlDistinct c = true ∧ controlNotHex c = true ∧ handshakeNotPreamble c = true ∧ sizesInRange c = true := by
  simp only [configOk, Bool.and_eq_true, and_assoc]

/-- Settles O21: R8 constraint by constraint, and every command's admission needs a well-formed configuration. -/
theorem illFormedConfigurationRefused : Obligations.IllFormedConfigurationRefused := by
  refine ⟨fun c => ?_, fun i s hi hbad => exec_refused hi (admission_of_not_configOk hbad i)⟩
  rw [configOk_iff, controlDistinct_iff, controlNotHex_iff, handshakeNotPreamble_iff, sizesInRange_iff]

/-! ### The step (R4, R59) -/

/-- What an arrival that decodes leaves at the command port: its instruction, and the state with it consumed (log 6). -/
theorem fetch_of_decode {s : State} {a : Arrival} {rest : List Arrival} {i : Instr} (hs : s.arrivals = a :: rest)
    (hover : ∀ bits, a ≠ .overlapping bits) (hdec : decode s.cfg s.link.reading a = .ok i) :
    fetch s = .instr i s.dropArrival := by
  unfold fetch
  rw [hs]
  cases a with
  | overlapping bits => exact absurd rfl (hover bits)
  | command bits => simp only [hdec]
  | inbound b => simp only [hdec]

theorem step_of_instr {s t : State} {i : Instr} (h : fetch s = .instr i t) : step s = exec i t := by
  simp only [step, h]

/-- Consuming the first arrival leaves the others, and changes nothing else. -/
theorem dropArrival_of_cons {s : State} {a : Arrival} {rest : List Arrival} (h : s.arrivals = a :: rest) :
    s.dropArrival = { s with arrivals := rest } := by
  simp only [State.dropArrival, h, List.drop_one, List.tail_cons]

/-- Settles O14: the arrival decodes, so it is fetched, and the step runs it on what the fetch leaves. -/
theorem stepRunsDecodedInstruction : Obligations.StepRunsDecodedInstruction := by
  intro s a rest i hs hover hdec
  rw [step_of_instr (fetch_of_decode hs hover hdec), dropArrival_of_cons hs]

end Sys2Proof.Machine
end

