-- ==== Sys2Proof/Proofs/State.lean ====
section
/-! PROOFS. The state (R20 to R41): what each procedure writes, the invariants every step keeps (R25, R35), the marks and
parameters (R40), and the fields each command leaves alone (R41). -/

namespace Sys2Proof.Machine

/-! ### What a send writes (R104, R106, R107) -/

/-- The Link States a send of a frame can leave: as it was, with the handshake pending, or with the send recorded. -/
inductive SendLink (c : Config) (l : LinkState) : LinkState → Prop
  | kept : SendLink c l l
  | pending : SendLink c l { l with hs := .pending }
  | recorded (p : List Byte) (now : Nat) (hfits : p.length ≤ l.rtBuf.length) : SendLink c l (sentLink c l p now)

/-- What a send writes: the Link State by `SendLink`, the event log, and the transport's store. -/
inductive SendWrites (s : State) : State → Prop
  | intro {l : LinkState} (a : List Answer) (n : Nat) (e : List Event) (hlink : SendLink s.cfg s.link l) :
      SendWrites s { s with link := l, answers := a, freeCount := n, events := e }

/-- Offering bytes writes the event log and the transport's store alone. -/
theorem emitAll_writes {bytes : List Byte} {s t : State} {r : Answer} (h : emitAll bytes s = (r, t)) :
    ∃ a n e, t = { s with answers := a, freeCount := n, events := e } := by
  obtain ⟨a, n, k, -, ⟨-, -, ht⟩ | ⟨b, -, -, ht⟩⟩ := emitAll_frame bytes s
  all_goals
    rw [h] at ht
    exact ⟨a, n, _, ht⟩

theorem transmit_writes {p : List Byte} {now : Nat} {s t : State} {c : Status} (h : transmit p now s = .ok (c, t)) :
    SendWrites s t := by
  obtain ⟨-, hemit⟩ | ⟨-, u, hemit, hrec⟩ := transmit_cases h
  · obtain ⟨a, n, e, rfl⟩ := emitAll_writes hemit
    exact .intro a n e .pending
  · obtain ⟨a, n, e, rfl⟩ := emitAll_writes hemit
    obtain ⟨hfits, rfl⟩ := recordSend_cases hrec
    exact .intro a n e (.recorded p now hfits)

theorem sendFrame_writes {p : List Byte} {now : Nat} {s t : State} {c : Status} (h : sendFrame p now s = .ok (c, t)) :
    SendWrites s t := by
  obtain ⟨-, -, rfl⟩ | ⟨-, -, htransmit⟩ | ⟨-, -, ⟨hfail, -⟩ | ⟨u, hpreamble, htransmit⟩⟩ := sendFrame_cases h
  · exact .intro t.answers t.freeCount t.events .kept
  · exact transmit_writes htransmit
  · obtain ⟨a, n, e, rfl⟩ := emitAll_writes hfail
    exact .intro a n e .kept
  · obtain ⟨a, n, e, rfl⟩ := emitAll_writes hpreamble
    obtain ⟨a', n', e', hlink⟩ := transmit_writes htransmit
    exact .intro a' n' e' hlink

/-! ### What the queue's procedures write (R176, R180) -/

/-- The Queue States HANDLE can leave: as it was, or with the head entry of a queue that is not empty retired. -/
inductive HandledQueue (c : Config) (q : QueueState) : QueueState → Prop
  | kept : HandledQueue c q q
  | retired (hne : q.head ≠ q.tail) : HandledQueue c q { q with head := nextIndex c q.head }

/-- HANDLE drops the listener, retires the head entry or not, and appends to the event log. -/
theorem handleOutcome_writes {o : HandshakeOutcome} {s t : State} (h : handleOutcome o s = .ok t) :
    ∃ q e, HandledQueue s.cfg s.queue q
      ∧ t = { s with link := { s.link with listener := false }, queue := q, events := e } := by
  obtain ⟨-, rfl⟩ | ⟨hne, slot, -, ⟨-, rfl⟩ | ⟨-, rfl⟩⟩ := handleOutcome_cases h
  · exact ⟨_, _, .kept, rfl⟩
  · exact ⟨_, _, .retired hne, rfl⟩
  · exact ⟨_, _, .kept, rfl⟩

/-- What DRAIN writes: nothing, what HANDLE writes, or what its send writes once the head's attempt is counted and the
queue listens. -/
inductive DrainWrites (s : State) : State → Prop
  | unchanged : DrainWrites s s
  | handled {q : QueueState} (e : List Event) (hqueue : HandledQueue s.cfg s.queue q) :
      DrainWrites s { s with link := { s.link with listener := false }, queue := q, events := e }
  | sent {slot : Slot} {t : State} (hne : s.queue.head ≠ s.queue.tail)
      (hslot : s.queue.slots[s.queue.head]? = some slot) (hsend : SendWrites (attach (countAttempt slot s)) t) :
      DrainWrites s t

theorem drainQueue_writes {now : Nat} {s t : State} (h : drainQueue now s = .ok t) : DrainWrites s t := by
  obtain ⟨-, rfl⟩ | ⟨hne, r, -, ⟨-, rfl⟩ | ⟨-, -, hhandle⟩ | ⟨-, hsend⟩⟩ := drainQueue_cases h
  · exact .unchanged
  · exact .unchanged
  · obtain ⟨q, e, hqueue, rfl⟩ := handleOutcome_writes hhandle
    exact .handled e hqueue
  · obtain ⟨slot, c, hslot, -, hframe⟩ := sendHead_cases hsend
    exact .sent hne hslot (sendFrame_writes hframe)

/-! ### What FEED writes (R130) -/

/-- The Link States a byte of a frame can leave (R131, R136 to R142). -/
inductive ReceiveLink (c : Config) (l : LinkState) : LinkState → Prop
  | kept : ReceiveLink c l l
  | started : ReceiveLink c l (startFrame l)
  | abandoned : ReceiveLink c l (abandonFrame l)
  | firstDigit (d : Nibble) (hreading : l.reading = true) : ReceiveLink c l (bufferNibble d l)
  | length (v : Byte) (hunknown : l.frameLen = 0#8) : ReceiveLink c l (takeLength c v { l with nibValid := false }).2
  | terminal (v : Byte) (hlast : l.rxCount + 1#8 = l.frameLen) :
      ReceiveLink c l { l with
        nibValid := false, rxBuf := l.rxBuf.set l.rxCount.toNat v, rxCount := l.rxCount + 1#8, reading := false }
  | data (v : Byte) (hreading : l.reading = true) (hknown : l.frameLen ≠ 0#8) (hbuf : l.rxCount.toNat < l.rxBuf.length)
      (hmore : l.rxCount + 1#8 ≠ l.frameLen) :
      ReceiveLink c l { l with
        nibValid := false, rxBuf := l.rxBuf.set l.rxCount.toNat v, rxCount := l.rxCount + 1#8, rxSum := l.rxSum + v }

/-- What FEED writes: the Link State of a byte of a frame, or a resolved handshake with what HANDLE writes. -/
inductive FeedWrites (s : State) : State → Prop
  | received {l : LinkState} (a : List Answer) (st : List Status) (n : Nat) (e : List Event)
      (hlink : ReceiveLink s.cfg s.link l) :
      FeedWrites s { s with link := l, answers := a, statuses := st, freeCount := n, events := e }
  | resolved {r : Handshake} {q : QueueState} (e : List Event) (hr : r ≠ .unused)
      (hqueue : HandledQueue s.cfg s.queue q) :
      FeedWrites s { s with link := { s.link with hs := r, listener := false }, queue := q, events := e }

/-- A FEED that writes the Link State alone. -/
theorem FeedWrites.setLink {s : State} {l : LinkState} (h : ReceiveLink s.cfg s.link l) : FeedWrites s (s.setLink l) :=
  .received s.answers s.statuses s.freeCount s.events h

theorem handshakeByte_writes {r : Handshake} {o : HandshakeOutcome} {s t : State} {c : Status} (hr : r ≠ .unused)
    (h : handshakeByte r o s = .ok (c, t)) : FeedWrites s t := by
  obtain ⟨-, ⟨-, -, hhandle⟩ | ⟨-, hlistener, rfl⟩ | ⟨-, rfl⟩⟩ := handshakeByte_cases h
  · obtain ⟨q, e, hqueue, rfl⟩ := handleOutcome_writes hhandle
    exact .resolved e hr hqueue
  · have hkept : s.setLink { s.link with hs := r } = s.setLink { s.link with hs := r, listener := false } := by
      rw [← hlistener]
    rw [hkept]
    exact .resolved s.events hr .kept
  · exact .setLink .kept

/-- The terminal byte writes the event log and the environment's store alone. -/
theorem takeTerminal_writes {v : Byte} {s t : State} {c : Status} (h : takeTerminal v s = .ok (c, t)) :
    ∃ a st n e, t = { s with answers := a, statuses := st, freeCount := n, events := e } := by
  have emitted : ∀ {b r u}, emit b s = (r, u) → ∃ a n e, u = { s with answers := a, freeCount := n, events := e } := by
    intro b r u hemit
    obtain ⟨a, n, hu⟩ := emit_frame b s
    exact ⟨a, n, _, by rw [hemit] at hu; exact hu⟩
  obtain ⟨-, ⟨hemit, -⟩ | ⟨u, hemit, -, hdeliver⟩⟩ | ⟨-, ⟨hemit, -⟩ | ⟨hemit, -⟩⟩ := takeTerminal_cases h
  · obtain ⟨a, n, e, rfl⟩ := emitted hemit
    exact ⟨_, _, _, _, rfl⟩
  · obtain ⟨a, n, e, rfl⟩ := emitted hemit
    obtain ⟨st, n', hdraw⟩ := drawStatus_frame { s with answers := a, freeCount := n, events := e }
    simp only [deliver, hdraw, Prod.mk.injEq] at hdeliver
    obtain ⟨-, rfl⟩ := hdeliver
    exact ⟨_, _, _, _, rfl⟩
  · obtain ⟨a, n, e, rfl⟩ := emitted hemit
    exact ⟨_, _, _, _, rfl⟩
  · obtain ⟨a, n, e, rfl⟩ := emitted hemit
    exact ⟨_, _, _, _, rfl⟩

/-- A hex digit belongs to the mid-frame phases (R79). -/
theorem reading_of_classify_hex {cfg : Config} {reading : Bool} {b : Byte} {d : Nibble}
    (h : classify cfg reading b = .hex d) : reading = true := by
  cases reading with
  | true => rfl
  | false =>
    unfold classify at h
    split_ifs at h with hsof hack hnak hidle
    exact absurd rfl hidle

theorem takeDigit_writes {d : Nibble} {s t : State} {c : Status} (hreading : s.link.reading = true)
    (h : takeDigit d s = .ok (c, t)) : FeedWrites s t := by
  obtain ⟨-, -, rfl⟩ | ⟨-, hbyte⟩ := takeDigit_cases h
  · exact .setLink (.firstDigit d hreading)
  · unfold takeByte at hbyte
    split at hbyte
    next hunknown =>
      cases hbyte
      exact .setLink (.length _ hunknown)
    next hknown =>
      obtain ⟨hbuf, ⟨hlast, hterminal⟩ | ⟨hmore, -, rfl⟩⟩ := takeData_cases hbyte
      · obtain ⟨a, st, n, e, rfl⟩ := takeTerminal_writes hterminal
        exact .received a st n e (.terminal _ hlast)
      · exact .setLink (.data _ hreading hknown hbuf hmore)

theorem feedByte_writes {b : Byte} {s t : State} {c : Status} (h : feedByte b s = .ok (c, t)) : FeedWrites s t := by
  obtain ⟨-, -, rfl⟩ | ⟨-, hack⟩ | ⟨-, hnak⟩ | ⟨-, -, rfl⟩ | ⟨d, hclass, hdigit⟩ | ⟨-, -, rfl⟩ := feedByte_cases h
  · exact .setLink .started
  · exact handshakeByte_writes (by decide) hack
  · exact handshakeByte_writes (by decide) hnak
  · exact .setLink .kept
  · exact takeDigit_writes (reading_of_classify_hex hclass) hdigit
  · exact .setLink .abandoned

/-! ### What an instruction writes, and what a step runs -/

/-- Everything an instruction can do: a command is refused, or it runs under its admission and gives its response; a
procedure runs. -/
inductive ExecWrites (s : State) : Instr → State → Prop
  | refused {i : Instr} : ExecWrites s i s.refuse
  | codecInit (hadm : admitsAny s = true) (r : Response) : ExecWrites s .codecInit ((initCodec s).respond r)
  | feed {i : Instr} {t : State} (hfeed : isFeed i = true) (hadm : admitsCodec s = true) (r : Response)
      (hwrites : FeedWrites s t) : ExecWrites s i (t.respond r)
  | readiness {now : Nat} (r : Response) : ExecWrites s (.readiness now) (s.respond r)
  | send {p : List Byte} {now : Nat} {t : State} (hadm : admitsCodec s = true) (r : Response) (hwrites : SendWrites s t) :
      ExecWrites s (.send p now) (t.respond r)
  | resend {now : Nat} {t : State} (hadm : admitsCodec s = true) (r : Response) (hwrites : SendWrites s t) :
      ExecWrites s (.resend now) (t.respond r)
  | queueInit (hadm : admitsCodec s = true) (r : Response) : ExecWrites s .queueInit ((initQueue s).respond r)
  | rejected {p : List Byte} {tag ctx now : Nat} (r : Response) : ExecWrites s (.submit p tag ctx now) (s.respond r)
  | submit {p : List Byte} {tag ctx now : Nat} {old : Slot} {t : State} (hadm : admitsQueue s = true) (r : Response)
      (hfits : p.length ≤ s.cfg.maxPayload) (hroom : isFull s.cfg s.queue = false)
      (hold : s.queue.slots[s.queue.tail]? = some old) (hwrites : DrainWrites (afterEnqueue s old p tag ctx) t) :
      ExecWrites s (.submit p tag ctx now) (t.respond r)
  | update {now : Nat} {t : State} (hadm : admitsQueue s = true) (r : Response) (hwrites : DrainWrites s t) :
      ExecWrites s (.update now) (t.respond r)
  | handle {o : HandshakeOutcome} {q : QueueState} (e : List Event) (hqueue : HandledQueue s.cfg s.queue q) :
      ExecWrites s (.handle o) { s with link := { s.link with listener := false }, queue := q, events := e }
  | drain {now : Nat} {t : State} (hwrites : DrainWrites s t) : ExecWrites s (.drain now) t

/-- A command that answers is refused, or its body ran under its admission. -/
theorem ExecWrites.of_command {i : Instr} {adm : Bool} {body : State → Except Fault (Response × State)} {s t : State}
    (h : command adm body s = .next t)
    (hran : ∀ r u, adm = true → body s = .ok (r, u) → ExecWrites s i (u.respond r)) : ExecWrites s i t := by
  obtain ⟨-, rfl⟩ | ⟨hadm, r, u, hbody, rfl⟩ := command_next h
  · exact .refused
  · exact hran r u hadm hbody

theorem exec_feed_writes {i : Instr} {s t : State} (hfeed : isFeed i = true) (h : exec i s = .next t) :
    ExecWrites s i t := by
  obtain ⟨b, hb⟩ := exec_of_isFeed hfeed s
  refine .of_command (hb.symm.trans h) fun r u hadm hbody => ?_
  obtain ⟨c, hbyte, rfl⟩ := withStatus_ok hbody
  exact .feed hfeed hadm _ (feedByte_writes hbyte)

theorem execSubmit_writes {p : List Byte} {tag ctx now : Nat} {s t : State} (h : execSubmit p tag ctx now s = .next t) :
    ExecWrites s (.submit p tag ctx now) t := by
  refine .of_command h fun r u hadm hbody => ?_
  obtain ⟨c, hentry, rfl⟩ := withStatus_ok hbody
  obtain ⟨-, -, rfl⟩ | ⟨-, -, -, rfl⟩ | ⟨hfits, hroom, -, v, henqueue, hdrain⟩ := submitEntry_cases hentry
  · exact .rejected _
  · exact .rejected _
  · obtain ⟨old, hold, -, rfl⟩ := enqueue_cases henqueue
    exact .submit hadm _ hfits hroom hold (drainQueue_writes hdrain)

theorem exec_writes {i : Instr} {s t : State} (h : exec i s = .next t) : ExecWrites s i t := by
  cases i with
  | codecInit =>
    refine .of_command (show execCodecInit s = .next t from h) fun r u hadm hbody => ?_
    cases hbody
    exact .codecInit hadm _
  | readiness now =>
    refine .of_command (show execReadiness now s = .next t from h) fun r u hadm hbody => ?_
    obtain ⟨v, -, hv⟩ := except_bind_ok hbody
    cases hv
    exact .readiness _
  | send p now =>
    refine .of_command (show execSend p now s = .next t from h) fun r u hadm hbody => ?_
    obtain ⟨c, hframe, rfl⟩ := withStatus_ok hbody
    exact .send hadm _ (sendFrame_writes hframe)
  | resend now =>
    refine .of_command (show execResend now s = .next t from h) fun r u hadm hbody => ?_
    obtain ⟨c, hframe, rfl⟩ := withStatus_ok hbody
    exact .resend hadm _ (sendFrame_writes (resendFrame_cases hframe).2)
  | queueInit =>
    refine .of_command (show execQueueInit s = .next t from h) fun r u hadm hbody => ?_
    cases hbody
    exact .queueInit hadm _
  | submit p tag ctx now => exact execSubmit_writes h
  | update now =>
    refine .of_command (show execUpdate now s = .next t from h) fun r u hadm hbody => ?_
    exact .update hadm _ (drainQueue_writes (thenOk_ok hbody).1)
  | reserved header => cases h; exact .refused
  | handle o =>
    obtain ⟨q, e, hqueue, rfl⟩ := handleOutcome_writes (runProcedure_next h)
    exact .handle e hqueue
  | drain now => exact .drain (drainQueue_writes (runProcedure_next h))
  | _ => exact exec_feed_writes rfl h

/-- Whatever is decoded is a command: the internal procedures have no opcode (R82). -/
theorem isCommand_of_decode {cfg : Config} {reading : Bool} {a : Arrival} {i : Instr}
    (h : decode cfg reading a = .ok i) : isCommand i = true := by
  have command_port : ∀ {bits}, decodeCommand cfg bits = .ok i → isCommand i = true := by
    intro bits hbits
    unfold decodeCommand at hbits
    split_ifs at hbits
    · cases hbits; rfl
    · cases hbits
      unfold operandForm
      split <;> rfl
  cases a with
  | command bits => exact command_port h
  | overlapping bits => exact command_port h
  | inbound b =>
    cases h
    unfold decodeInbound
    split
    case h_5 =>
      cases hrow : hexDigitRows.lookup b with
      | none => rfl
      | some row =>
        obtain ⟨before, after, hrows, -⟩ := List.lookup_eq_some_iff.mp hrow
        have hall : ∀ x ∈ hexDigitRows, isCommand x.2 = true := by decide
        exact hall (b, row) (by simp [hrows])
    all_goals rfl

/-- What is fetched is a command or its refusal, and the state with its arrival consumed. -/
theorem fetch_instr {s t : State} {i : Instr} (h : fetch s = .instr i t) : t = s.dropArrival ∧ isCommand i = true := by
  unfold fetch at h
  split at h
  next => cases h
  next => cases h
  next =>
    split at h
    next hdecode => cases h; exact ⟨rfl, isCommand_of_decode hdecode⟩
    next => cases h

theorem fetch_overlap {s t : State} (h : fetch s = .overlap t) : t = s.dropArrival := by
  unfold fetch at h
  split at h
  next => cases h
  next => cases h; rfl
  next => split at h <;> cases h

/-- What a step can do: nothing, a refusal, or a command; the last two with their arrival consumed. -/
theorem step_cases {s t : State} (h : step s = .next t) :
    t = s ∨ t = s.dropArrival.refuse ∨ ∃ i, isCommand i = true ∧ exec i s.dropArrival = .next t := by
  unfold step at h
  split at h
  next => cases h; exact .inl rfl
  next i u hfetch =>
    obtain ⟨rfl, hi⟩ := fetch_instr hfetch
    exact .inr (.inr ⟨i, hi, h⟩)
  next u hfetch =>
    cases h
    exact .inr (.inl (congrArg State.refuse (fetch_overlap hfetch)))
  next => cases h

/-! ### Marks and parameters (R40, R217) -/

/-- The parameters and the marks are the same in two states. -/
structure SameMarks (s t : State) : Prop where
  cfg : t.cfg = s.cfg
  refused : t.refused = s.refused
  codecInit : t.codecInit = s.codecInit
  queueInit : t.queueInit = s.queueInit

/-- What stays the same is not cleared. -/
theorem SameMarks.kept {s t : State} (h : SameMarks s t) :
    t.cfg = s.cfg ∧ (s.refused = true → t.refused = true) ∧ (s.codecInit = true → t.codecInit = true)
      ∧ (s.queueInit = true → t.queueInit = true) :=
  ⟨h.cfg, h.refused.trans, h.codecInit.trans, h.queueInit.trans⟩

theorem SendWrites.sameMarks {s t : State} (h : SendWrites s t) : SameMarks s t := by
  obtain ⟨a, n, e, -⟩ := h
  exact ⟨rfl, rfl, rfl, rfl⟩

theorem DrainWrites.sameMarks {s t : State} (h : DrainWrites s t) : SameMarks s t := by
  cases h with
  | unchanged | handled => exact ⟨rfl, rfl, rfl, rfl⟩
  | sent hne hslot hsend => exact { hsend.sameMarks with }

theorem FeedWrites.sameMarks {s t : State} (h : FeedWrites s t) : SameMarks s t := by
  cases h <;> exact ⟨rfl, rfl, rfl, rfl⟩

/-- Settles O22: of all the writes only a refusal and the two initialisations touch a mark, and they set it. -/
theorem marksAndParametersKept : Obligations.MarksAndParametersKept := by
  intro i s t h
  cases exec_writes h with
  | refused => exact ⟨rfl, fun _ => rfl, id, id⟩
  | codecInit hadm r => exact ⟨rfl, id, fun _ => rfl, id⟩
  | queueInit hadm r => exact ⟨rfl, id, id, fun _ => rfl⟩
  | readiness | rejected | handle => exact ⟨rfl, id, id, id⟩
  | feed hfeed hadm r hwrites => exact hwrites.sameMarks.kept
  | send hadm r hwrites | resend hadm r hwrites => exact hwrites.sameMarks.kept
  | submit hadm r hfits hroom hold hwrites => exact hwrites.sameMarks.kept
  | update hadm r hwrites => exact hwrites.sameMarks.kept
  | drain hwrites => exact hwrites.sameMarks.kept

/-! ### The ring of slots (R32, R34) -/

/-- live(S) is the one distance below QCAP from S.head round to S.tail. -/
theorem live_eq_iff {c : Config} {q : QueueState} (htail : q.tail < c.qcap) (k : Nat) :
    live c q = k ↔ k < c.qcap ∧ (q.head + k) % c.qcap = q.tail := by
  have hspec : live c q < c.qcap ∧ (q.head + live c q) % c.qcap = q.tail := by
    refine ⟨subMod_lt _ _ _, ?_⟩
    have hhead : q.head % c.qcap < c.qcap := Nat.mod_lt _ (by omega)
    have hround : (q.head % c.qcap + (q.tail + (c.qcap - q.head % c.qcap))) % c.qcap = q.tail := by
      rw [show q.head % c.qcap + (q.tail + (c.qcap - q.head % c.qcap)) = q.tail + c.qcap by omega, Nat.add_mod_right,
        Nat.mod_eq_of_lt htail]
    rw [show live c q = (q.tail + (c.qcap - q.head % c.qcap)) % c.qcap from rfl, Nat.add_mod_mod, ← Nat.mod_add_mod,
      hround]
  refine ⟨fun h => h ▸ hspec, fun ⟨hk, hround⟩ => ?_⟩
  have hmod : (q.head + live c q) % c.qcap = (q.head + k) % c.qcap := hspec.2.trans hround.symm
  exact Nat.ModEq.eq_of_lt_of_lt (Nat.ModEq.add_left_cancel' q.head hmod) hspec.1 hk

/-- S.tail is free: no live entry stands there. -/
theorem live_index_ne_tail {c : Config} {q : QueueState} (htail : q.tail < c.qcap) {k : Nat} (hk : k < live c q) :
    (q.head + k) % c.qcap ≠ q.tail := by
  intro hround
  have hlive : live c q < c.qcap := subMod_lt _ _ _
  have := (live_eq_iff htail k).mpr ⟨by omega, hround⟩
  omega

/-! ### What each command leaves alone (R41) -/

/-- A send never touches the receive fields, the listener or the queue. -/
theorem SendWrites.frame {s t : State} (h : SendWrites s t) :
    SameReceive s t ∧ t.link.listener = s.link.listener ∧ t.queue = s.queue ∧ t.statuses = s.statuses := by
  obtain ⟨a, n, e, hlink⟩ := h
  cases hlink <;> exact ⟨⟨rfl, rfl, rfl, rfl, rfl, rfl, rfl⟩, rfl, rfl, rfl⟩

theorem SendWrites.queue_eq {s t : State} (h : SendWrites s t) : t.queue = s.queue := by
  obtain ⟨-, -, hqueue, -⟩ := h.frame
  exact hqueue

/-- DRAIN never touches the receive fields or the consumer's statuses. -/
theorem DrainWrites.frame {s t : State} (h : DrainWrites s t) : SameReceive s t ∧ t.statuses = s.statuses := by
  cases h with
  | unchanged | handled => exact ⟨⟨rfl, rfl, rfl, rfl, rfl, rfl, rfl⟩, rfl⟩
  | sent hne hslot hsend =>
    obtain ⟨hreceive, -, -, hstatuses⟩ := hsend.frame
    exact ⟨hreceive, hstatuses⟩

/-- HANDLE moves the head alone. -/
theorem HandledQueue.tail_eq {c : Config} {q q' : QueueState} (h : HandledQueue c q q') : q'.tail = q.tail := by
  cases h <;> rfl

theorem HandledQueue.slots_eq {c : Config} {q q' : QueueState} (h : HandledQueue c q q') : q'.slots = q.slots := by
  cases h <;> rfl

/-- A byte of a frame never touches what was sent or the listener. -/
theorem ReceiveLink.frame {c : Config} {l l' : LinkState} (h : ReceiveLink c l l') :
    l'.sentAt = l.sentAt ∧ l'.rtBuf = l.rtBuf ∧ l'.rtLen = l.rtLen ∧ l'.listener = l.listener := by
  cases h with
  | length v hunknown => unfold takeLength; split_ifs <;> exact ⟨rfl, rfl, rfl, rfl⟩
  | _ => exact ⟨rfl, rfl, rfl, rfl⟩

/-- FEED never touches what was sent, the tail or a slot. -/
theorem FeedWrites.frame {s t : State} (h : FeedWrites s t) :
    SameSent s t ∧ t.queue.tail = s.queue.tail ∧ t.queue.slots = s.queue.slots := by
  cases h with
  | resolved e hr hqueue => exact ⟨⟨rfl, rfl, rfl⟩, hqueue.tail_eq, hqueue.slots_eq⟩
  | received a st n e hlink =>
    obtain ⟨hsentAt, hrtBuf, hrtLen, -⟩ := hlink.frame
    exact ⟨⟨hsentAt, hrtBuf, hrtLen⟩, rfl, rfl⟩

theorem FeedWrites.slots_eq {s t : State} (h : FeedWrites s t) : t.queue.slots = s.queue.slots := by
  obtain ⟨-, -, hslots⟩ := h.frame
  exact hslots

/-- Of the slots DRAIN writes the head's attempts alone (R179). -/
theorem DrainWrites.headAttemptsAlone {s t : State} (h : DrainWrites s t) (j : Nat) : HeadAttemptsAlone s t j := by
  cases h with
  | unchanged => exact .inl rfl
  | handled e hqueue => exact .inl (congrArg (·[j]?) hqueue.slots_eq)
  | sent hne hslot hsend =>
    rw [HeadAttemptsAlone, hsend.queue_eq]
    by_cases hj : j = s.queue.head
    · subst hj
      obtain ⟨hlt, -⟩ := List.getElem?_eq_some_iff.mp hslot
      exact .inr ⟨rfl, _, hslot, List.getElem?_set_self hlt⟩
    · exact .inl (List.getElem?_set_ne (Ne.symm hj))

/-- SUBMIT's own write is the tail's slot (R171). -/
theorem afterEnqueue_slot_of_ne (s : State) (old : Slot) (p : List Byte) (tag ctx : Nat) {j : Nat}
    (hj : j ≠ s.queue.tail) : (afterEnqueue s old p tag ctx).queue.slots[j]? = s.queue.slots[j]? :=
  List.getElem?_set_ne (Ne.symm hj)

/-- Of the slots other than the tail's, every instruction but QUEUE_INIT writes the head's attempts alone. -/
theorem ExecWrites.headAttemptsAlone {i : Instr} {s t : State} (h : ExecWrites s i t) (hi : i ≠ .queueInit) {j : Nat}
    (hj : j ≠ s.queue.tail) : HeadAttemptsAlone s t j := by
  cases h with
  | queueInit => exact absurd rfl hi
  | refused | codecInit | readiness | rejected => exact .inl rfl
  | feed hfeed hadm r hwrites => exact .inl (congrArg (·[j]?) hwrites.slots_eq)
  | send hadm r hwrites | resend hadm r hwrites => exact .inl (congrArg (·.slots[j]?) hwrites.queue_eq)
  | submit hadm r hfits hroom hold hwrites =>
    have hdrain := hwrites.headAttemptsAlone j
    rwa [HeadAttemptsAlone, afterEnqueue_slot_of_ne _ _ _ _ _ hj] at hdrain
  | update hadm r hwrites => exact hwrites.headAttemptsAlone j
  | drain hwrites => exact hwrites.headAttemptsAlone j
  | handle e hqueue => exact .inl (congrArg (·[j]?) hqueue.slots_eq)

/-- An entry whose attempts alone are written is the same entry, and its attempts do not fall: the count saturates at the
largest number of its width. -/
theorem HeadAttemptsAlone.sameEntry {s t : State} {j : Nat} {x : Slot} (h : HeadAttemptsAlone s t j)
    (hx : s.queue.slots[j]? = some x) (hwidth : x.attempts < 2 ^ s.cfg.attW) :
    ∃ y, t.queue.slots[j]? = some y ∧ SameEntry x y ∧ x.attempts ≤ y.attempts := by
  obtain hsame | ⟨-, x', hx', hy⟩ := h
  · exact ⟨x, hsame.trans hx, ⟨rfl, rfl, rfl, rfl⟩, Nat.le_refl _⟩
  · cases hx.symm.trans hx'
    exact ⟨_, hy, ⟨rfl, rfl, rfl, rfl⟩, by dsimp only; omega⟩

/-- A live entry stays the same entry, its attempts raised or not, under every instruction but QUEUE_INIT (R35, I7). -/
theorem ExecWrites.live_sameEntry {i : Instr} {s t : State} (h : ExecWrites s i t) (hinv : Inv s) (hi : i ≠ .queueInit)
    {k : Nat} (hk : k < live s.cfg s.queue) :
    ∃ x y, s.queue.slots[(s.queue.head + k) % s.cfg.qcap]? = some x
      ∧ t.queue.slots[(s.queue.head + k) % s.cfg.qcap]? = some y ∧ SameEntry x y ∧ x.attempts ≤ y.attempts := by
  obtain ⟨⟨-, -, hslots, -⟩, ⟨-, -, htail, hwidths⟩, -⟩ := hinv
  have hj : (s.queue.head + k) % s.cfg.qcap < s.queue.slots.length := hslots ▸ Nat.mod_lt _ (by omega)
  have hx := List.getElem?_eq_getElem hj
  obtain ⟨y, hy, hsame⟩ := (h.headAttemptsAlone hi (live_index_ne_tail htail hk)).sameEntry hx
    (hwidths _ (List.getElem_mem hj)).1
  exact ⟨_, y, hx, hy, hsame⟩

/-! ### The clauses of R41, one command each -/

theorem ExecWrites.feed_frame {i : Instr} {s t : State} (h : ExecWrites s i t) (hi : isFeed i = true) :
    SameSent s t ∧ t.queue.tail = s.queue.tail ∧ t.queue.slots = s.queue.slots
      ∧ t.codecInit = s.codecInit ∧ t.queueInit = s.queueInit := by
  cases h with
  | refused => exact ⟨⟨rfl, rfl, rfl⟩, rfl, rfl, rfl, rfl⟩
  | feed hfeed hadm r hwrites =>
    obtain ⟨hsent, htail, hslots⟩ := hwrites.frame
    exact ⟨hsent, htail, hslots, hwrites.sameMarks.codecInit, hwrites.sameMarks.queueInit⟩
  | _ => nomatch hi

theorem ExecWrites.readiness_frame {now : Nat} {s t : State} (h : ExecWrites s (.readiness now) t) :
    t.link = s.link ∧ t.queue = s.queue ∧ t.events = s.events ∧ t.answers = s.answers := by
  cases h with
  | refused | readiness => exact ⟨rfl, rfl, rfl, rfl⟩
  | feed hfeed => nomatch hfeed

theorem ExecWrites.send_frame {i : Instr} {p : List Byte} {now : Nat} {s t : State} (h : ExecWrites s i t)
    (hi : i = .send p now ∨ i = .resend now) :
    SameReceive s t ∧ t.link.listener = s.link.listener ∧ t.queue = s.queue ∧ t.statuses = s.statuses := by
  cases h with
  | refused => exact ⟨⟨rfl, rfl, rfl, rfl, rfl, rfl, rfl⟩, rfl, rfl, rfl⟩
  | send hadm r hwrites | resend hadm r hwrites => exact hwrites.frame
  | feed hfeed => obtain rfl | rfl := hi <;> nomatch hfeed
  | _ => simp at hi

theorem ExecWrites.drain_frame {i : Instr} {p : List Byte} {tag ctx now : Nat} {s t : State} (h : ExecWrites s i t)
    (hi : i = .submit p tag ctx now ∨ i = .update now ∨ i = .drain now) :
    SameReceive s t ∧ t.statuses = s.statuses ∧ t.queueInit = s.queueInit ∧ t.codecInit = s.codecInit := by
  have of_drain : ∀ {u v}, DrainWrites u v →
      SameReceive u v ∧ v.statuses = u.statuses ∧ v.queueInit = u.queueInit ∧ v.codecInit = u.codecInit := by
    intro u v hwrites
    obtain ⟨hreceive, hstatuses⟩ := hwrites.frame
    exact ⟨hreceive, hstatuses, hwrites.sameMarks.queueInit, hwrites.sameMarks.codecInit⟩
  cases h with
  | refused | rejected => exact ⟨⟨rfl, rfl, rfl, rfl, rfl, rfl, rfl⟩, rfl, rfl, rfl⟩
  | submit hadm r hfits hroom hold hwrites => exact (of_drain hwrites :)
  | update hadm r hwrites => exact (of_drain hwrites :)
  | drain hwrites => exact of_drain hwrites
  | feed hfeed => obtain rfl | rfl | rfl := hi <;> nomatch hfeed
  | _ => simp at hi

theorem ExecWrites.update_slots {i : Instr} {now : Nat} {s t : State} (h : ExecWrites s i t)
    (hi : i = .update now ∨ i = .drain now) (j : Nat) : HeadAttemptsAlone s t j := by
  cases h with
  | refused => exact .inl rfl
  | update hadm r hwrites => exact hwrites.headAttemptsAlone j
  | drain hwrites => exact hwrites.headAttemptsAlone j
  | feed hfeed => obtain rfl | rfl := hi <;> nomatch hfeed
  | _ => simp at hi

theorem ExecWrites.handle_frame {o : HandshakeOutcome} {s t : State} (h : ExecWrites s (.handle o) t) :
    SameReceive s t ∧ SameSent s t ∧ t.link.hs = s.link.hs ∧ t.queue.tail = s.queue.tail
      ∧ t.queue.slots = s.queue.slots ∧ t.responses = s.responses ∧ t.answers = s.answers
      ∧ t.statuses = s.statuses := by
  cases h with
  | refused =>
    exact ⟨⟨rfl, rfl, rfl, rfl, rfl, rfl, rfl⟩, ⟨rfl, rfl, rfl⟩, rfl, rfl, rfl, rfl, rfl, rfl⟩
  | handle e hqueue =>
    exact ⟨⟨rfl, rfl, rfl, rfl, rfl, rfl, rfl⟩, ⟨rfl, rfl, rfl⟩, rfl, hqueue.tail_eq, hqueue.slots_eq, rfl, rfl, rfl⟩
  | feed hfeed => nomatch hfeed

theorem ExecWrites.codecInit_frame {s t : State} (h : ExecWrites s .codecInit t) :
    t.queue = s.queue ∧ t.queueInit = s.queueInit ∧ t.events = s.events := by
  cases h with
  | refused | codecInit => exact ⟨rfl, rfl, rfl⟩
  | feed hfeed => nomatch hfeed

theorem ExecWrites.queueInit_frame {s t : State} (h : ExecWrites s .queueInit t) :
    SameReceive s t ∧ SameSent s t ∧ t.link.hs = s.link.hs ∧ t.events = s.events := by
  cases h with
  | refused | queueInit => exact ⟨⟨rfl, rfl, rfl, rfl, rfl, rfl, rfl⟩, ⟨rfl, rfl, rfl⟩, rfl, rfl⟩
  | feed hfeed => nomatch hfeed

theorem ExecWrites.reserved_frame {header : BitVec 16} {s t : State} (h : ExecWrites s (.reserved header) t) :
    t.link = s.link ∧ t.queue = s.queue ∧ t.events = s.events ∧ t.responses = s.responses := by
  cases h with
  | refused => exact ⟨rfl, rfl, rfl, rfl⟩
  | feed hfeed => nomatch hfeed

/-- Settles O57: each clause reads off what its command writes. -/
theorem commandsWriteOnlyTheirFields : Obligations.CommandsWriteOnlyTheirFields := by
  intro i s t h
  have hwrites := exec_writes h
  refine ⟨hwrites.feed_frame, ?_, fun p now hi => hwrites.send_frame hi, fun p tag ctx now hi => hwrites.drain_frame hi,
    fun now hi => hwrites.update_slots hi, fun p tag ctx now hi j => hwrites.headAttemptsAlone (by simp [hi]), ?_, ?_, ?_,
    ?_, fun hinv hi k => hwrites.live_sameEntry hinv hi⟩
  · rintro now rfl; exact hwrites.readiness_frame
  · rintro o rfl; exact hwrites.handle_frame
  · rintro rfl; exact hwrites.codecInit_frame
  · rintro rfl; exact hwrites.queueInit_frame
  · rintro header rfl; exact hwrites.reserved_frame

/-! ### The invariant, part by part (R35) -/

/-- The sizes, the width and I1 to I5 and I8: what the invariant says of an initialised Link State. -/
structure LinkGood (c : Config) (l : LinkState) : Prop where
  rxBuf : l.rxBuf.length = c.maxFrame
  rtBuf : l.rtBuf.length = c.maxPayload
  sentAt : l.sentAt < 2 ^ c.timeW
  frameLen : l.frameLen = 0#8 ∨ (2 ≤ l.frameLen.toNat ∧ l.frameLen.toNat ≤ c.maxFrame)
  rxCount : l.rxCount.toNat ≤ l.frameLen.toNat
  rxCount_lt : l.reading = true → l.frameLen ≠ 0#8 → l.rxCount.toNat < l.frameLen.toNat
  nibValid : l.nibValid = true → l.reading = true
  rtLen : l.rtLen.toNat ≤ c.maxPayload
  hs : l.hs ≠ .unused

/-- A slot's size and widths (R33). -/
structure SlotSized (c : Config) (x : Slot) : Prop where
  data : x.data.length = c.maxPayload
  attempts : x.attempts < 2 ^ c.attW
  tag : x.tag < 2 ^ c.tagW
  ctx : x.ctx < 2 ^ c.ctxW

/-- The sizes and widths of a Queue State (R32, R33). -/
structure QueueSized (c : Config) (q : QueueState) : Prop where
  head : q.head < c.qcap
  tail : q.tail < c.qcap
  count : q.slots.length = c.qcap
  slot : ∀ x ∈ q.slots, SlotSized c x

/-- I7 of the live entries: `LiveSlotsInv`, said of a Queue State. -/
def LiveFit (c : Config) (q : QueueState) : Prop :=
  ∀ k, k < live c q → ∀ x ∈ q.slots[(q.head + k) % c.qcap]?, x.len.toNat ≤ c.maxPayload

/-- What the invariant says once the codec is initialised; `running_of_inv` and `Running.inv` tie it to `Inv`. -/
structure Running (s : State) : Prop where
  config : configOk s.cfg = true
  link : LinkGood s.cfg s.link
  listener : ListenerInv s
  queue : QueueSized s.cfg s.queue
  live : s.queueInit = true → LiveFit s.cfg s.queue

theorem queueSized_of_inv {s : State} (h : Inv s) : QueueSized s.cfg s.queue := by
  obtain ⟨⟨-, -, hcount, hdata⟩, ⟨-, hhead, htail, hwidths⟩, -⟩ := h
  refine ⟨hhead, htail, hcount, fun x hx => ?_⟩
  obtain ⟨hattempts, htag, hctx⟩ := hwidths x hx
  exact ⟨hdata x hx, hattempts, htag, hctx⟩

theorem running_of_inv {s : State} (h : Inv s) (hcodec : s.codecInit = true) : Running s := by
  have hqueue := queueSized_of_inv h
  obtain ⟨⟨hrx, hrt, -⟩, ⟨hsent, -⟩, hinit, hlive⟩ := h
  obtain ⟨hconfig, ⟨hlen, hcount, hlt, hnib, hrtLen, hhs⟩, hlistener⟩ := hinit hcodec
  exact ⟨hconfig, ⟨hrx, hrt, hsent, hlen, hcount, hlt, hnib, hrtLen, hhs⟩, hlistener, hqueue, fun hq => (hlive hq).2⟩

theorem Running.inv {s : State} (h : Running s) (hcodec : s.codecInit = true) : Inv s := by
  obtain ⟨hconfig, ⟨hrx, hrt, hsent, hlen, hcount, hlt, hnib, hrtLen, hhs⟩, hlistener, hqueue, hlive⟩ := h
  exact ⟨⟨hrx, hrt, hqueue.count, fun x hx => (hqueue.slot x hx).data⟩,
    ⟨hsent, hqueue.head, hqueue.tail,
      fun x hx => ⟨(hqueue.slot x hx).attempts, (hqueue.slot x hx).tag, (hqueue.slot x hx).ctx⟩⟩,
    fun _ => ⟨hconfig, ⟨hlen, hcount, hlt, hnib, hrtLen, hhs⟩, hlistener⟩, fun hq => ⟨hcodec, hlive hq⟩⟩

/-! ### The Link State -/

/-- The listener token is no part of the Link State's invariants. -/
theorem LinkGood.setListener {c : Config} {l : LinkState} (h : LinkGood c l) (b : Bool) :
    LinkGood c { l with listener := b } := { h with }

theorem LinkGood.setHs {c : Config} {l : LinkState} {r : Handshake} (h : LinkGood c l) (hr : r ≠ .unused) :
    LinkGood c { l with hs := r } := { h with hs := hr }

/-- The length of a payload never reads longer than it is. -/
theorem lengthByte_toNat_le (p : List Byte) : (lengthByte p).toNat ≤ p.length := by
  simpa [lengthByte] using Nat.mod_le p.length 256

theorem SendLink.linkGood {c : Config} {l l' : LinkState} (h : SendLink c l l') (hl : LinkGood c l) : LinkGood c l' := by
  cases h with
  | kept => exact hl
  | pending => exact hl.setHs (by decide)
  | recorded p now hfits =>
    refine { hl with
      rtBuf := ?_, sentAt := Nat.mod_lt _ (Nat.two_pow_pos _), rtLen := ?_, hs := by simp [sentLink] }
    · simp only [sentLink, List.length_append, List.length_drop]
      have := hl.rtBuf
      omega
    · exact (lengthByte_toNat_le p).trans (hfits.trans_eq hl.rtBuf)

/-- One more byte received, where the count is below the length field, is counted without wrapping. -/
theorem rxCount_succ_toNat {count len : Byte} (h : count.toNat < len.toNat) :
    (count + 1#8).toNat = count.toNat + 1 := by
  bv_omega

/-- The length field's three cases (R139). -/
theorem takeLength_linkGood {c : Config} {l : LinkState} (v : Byte) (hl : LinkGood c l) (hnib : l.nibValid = false) :
    LinkGood c (takeLength c v l).2 := by
  unfold takeLength
  split_ifs with hsmall hbig
  · exact { hl with nibValid := by simp [hnib], rxCount_lt := by simp }
  · exact { hl with nibValid := by simp [hnib], rxCount_lt := by simp }
  · have hmin : 2 ≤ v.toNat := Nat.le_of_not_lt hsmall
    exact { hl with
      frameLen := .inr ⟨hmin, Nat.le_of_not_lt hbig⟩
      rxCount := Nat.zero_le _
      rxCount_lt := fun _ _ => by simpa using by omega }

theorem ReceiveLink.linkGood {c : Config} {l l' : LinkState} (h : ReceiveLink c l l') (hl : LinkGood c l) :
    LinkGood c l' := by
  cases h with
  | kept => exact hl
  | started =>
    exact { hl with
      frameLen := .inl rfl, rxCount := Nat.le_refl 0, rxCount_lt := fun _ h => absurd rfl h, nibValid := nofun }
  | abandoned => exact { hl with rxCount_lt := nofun, nibValid := nofun }
  | firstDigit d hreading => exact { hl with nibValid := fun _ => hreading }
  | length v hunknown => exact takeLength_linkGood v { hl with nibValid := nofun } rfl
  | terminal v hlast =>
    exact { hl with
      rxBuf := by simp [hl.rxBuf], rxCount := by simp [hlast], rxCount_lt := nofun, nibValid := nofun }
  | data v hreading hknown hbuf hmore =>
    have hlt := hl.rxCount_lt hreading hknown
    have hsucc := rxCount_succ_toNat hlt
    have hne : (l.rxCount + 1#8).toNat ≠ l.frameLen.toNat := fun heq => hmore (BitVec.eq_of_toNat_eq heq)
    exact { hl with
      rxBuf := by simp [hl.rxBuf]
      rxCount := by dsimp only; omega
      rxCount_lt := fun _ _ => by dsimp only; omega
      nibValid := nofun }

/-! ### The receive sum (R25) -/

theorem byteSum_concat (p : List Byte) (v : Byte) : byteSum (p ++ [v]) = byteSum p + v := by
  simp [byteSum]

/-- Storing a byte behind the first n adds it to their sum. -/
theorem byteSum_take_set {buf : List Byte} {n : Nat} (hn : n < buf.length) (v : Byte) :
    byteSum ((buf.set n v).take (n + 1)) = byteSum (buf.take n) + v := by
  rw [List.take_add_one, List.take_set_of_le (Nat.le_refl n), List.getElem?_set_self hn, Option.toList_some,
    byteSum_concat]

/-- What S.rx_sum holds mid-frame, said of a Link State (R25). -/
def SumKept (l : LinkState) : Prop :=
  l.reading = true → (l.frameLen = 0#8 → l.rxSum = 0#8)
    ∧ (l.frameLen ≠ 0#8 → l.rxSum = l.frameLen + byteSum (l.rxBuf.take l.rxCount.toNat))

theorem checksumInv_iff (s : State) : ChecksumInv s ↔ (s.codecInit = true → SumKept s.link) := Iff.rfl

theorem ReceiveLink.sumKept {c : Config} {l l' : LinkState} (h : ReceiveLink c l l') (hl : LinkGood c l)
    (hsum : SumKept l) : SumKept l' := by
  cases h with
  | kept => exact hsum
  | started => exact fun _ => ⟨fun _ => rfl, fun hknown => absurd rfl hknown⟩
  | abandoned => exact nofun
  | firstDigit d hreading => exact hsum
  | terminal v hlast => exact nofun
  | length v hunknown =>
    unfold takeLength
    split_ifs with hsmall hbig
    · exact nofun
    · exact nofun
    · intro hreading
      have hzero : l.rxSum = 0#8 := (hsum hreading).1 hunknown
      refine ⟨fun hv => ?_, fun _ => ?_⟩
      · exact absurd (by rw [show v = 0#8 from hv]; decide) hsmall
      · simp [hzero, byteSum]
  | data v hreading hknown hbuf hmore =>
    refine fun _ => ⟨fun h => absurd h hknown, fun _ => ?_⟩
    dsimp only
    rw [rxCount_succ_toNat (hl.rxCount_lt hreading hknown), byteSum_take_set hbuf, (hsum hreading).2 hknown,
      BitVec.add_assoc]

/-- The receive sum is kept where the receive fields are. -/
theorem ChecksumInv.of_sameReceive {s t : State} (h : ChecksumInv s) (hreceive : SameReceive s t)
    (hcodec : t.codecInit = s.codecInit) : ChecksumInv t := by
  obtain ⟨hreading, -, -, hlen, hcount, hsum, hbuf⟩ := hreceive
  rwa [ChecksumInv, hreading, hlen, hcount, hsum, hbuf, hcodec]

theorem FeedWrites.checksumInv {s t : State} (h : FeedWrites s t) (hs : Running s) (hsum : ChecksumInv s)
    (hcodec : s.codecInit = true) : ChecksumInv t := by
  cases h with
  | received a st n e hlink => exact (checksumInv_iff _).mpr fun _ => hlink.sumKept hs.link (hsum hcodec)
  | resolved e hr hqueue => exact hsum

/-- An admitted command finds what it needs initialised (R217). -/
theorem codecInit_of_admitsCodec {s : State} (h : admitsCodec s = true) : s.codecInit = true := by
  simp only [admitsCodec, Bool.and_eq_true] at h
  exact h.2

theorem marks_of_admitsQueue {s : State} (h : admitsQueue s = true) : s.codecInit = true ∧ s.queueInit = true := by
  simp only [admitsQueue, Bool.and_eq_true] at h
  exact ⟨h.1.2, h.2⟩

theorem ExecWrites.checksumInv {i : Instr} {s t : State} (h : ExecWrites s i t) (hinv : Inv s) (hsum : ChecksumInv s) :
    ChecksumInv t := by
  cases h with
  | codecInit hadm r => exact nofun
  | feed hfeed hadm r hwrites =>
    have hcodec := codecInit_of_admitsCodec hadm
    exact hwrites.checksumInv (running_of_inv hinv hcodec) hsum hcodec
  | refused | readiness | queueInit | rejected | handle => exact hsum
  | send hadm r hwrites | resend hadm r hwrites => exact hsum.of_sameReceive hwrites.frame.1 hwrites.sameMarks.codecInit
  | submit hadm r hfits hroom hold hwrites => exact hsum.of_sameReceive hwrites.frame.1 hwrites.sameMarks.codecInit
  | update hadm r hwrites => exact hsum.of_sameReceive hwrites.frame.1 hwrites.sameMarks.codecInit
  | drain hwrites => exact hsum.of_sameReceive hwrites.frame.1 hwrites.sameMarks.codecInit

/-- Settles O3: FEED alone writes the receive fields, and each of its writes keeps the sum. -/
theorem stepKeepsChecksum : Obligations.StepKeepsChecksum := by
  intro s t hinv hsum h
  obtain rfl | rfl | ⟨i, -, hexec⟩ := step_cases h
  · exact hsum
  · exact hsum
  · exact (exec_writes hexec).checksumInv hinv hsum

/-! ### The Queue State -/

theorem nextIndex_lt (c : Config) (i : Nat) : nextIndex c i < c.qcap := Nat.mod_lt _ (Nat.two_pow_pos _)

theorem HandledQueue.queueSized {c : Config} {q q' : QueueState} (h : HandledQueue c q q') (hq : QueueSized c q) :
    QueueSized c q' := by
  cases h with
  | kept => exact hq
  | retired hne => exact { hq with head := nextIndex_lt c q.head }

theorem QueueSized.setSlot {c : Config} {q : QueueState} (h : QueueSized c q) (i : Nat) {x : Slot} (hx : SlotSized c x) :
    QueueSized c { q with slots := q.slots.set i x } :=
  { h with
    count := by simp [h.count]
    slot := fun y hy => (List.mem_or_eq_of_mem_set hy).elim (h.slot y) fun hyx => hyx ▸ hx }

/-- Retiring the head entry takes the first live entry away. -/
theorem live_retired {c : Config} {q : QueueState} (hq : QueueSized c q) (hne : q.head ≠ q.tail) :
    live c q = live c { q with head := nextIndex c q.head } + 1 := by
  obtain ⟨hlt, hround⟩ := (live_eq_iff hq.tail (live c q)).mp rfl
  have hpos : live c q ≠ 0 := by
    intro hzero
    rw [hzero, Nat.add_zero, Nat.mod_eq_of_lt hq.head] at hround
    exact hne hround
  have hnext : live c { q with head := nextIndex c q.head } = live c q - 1 := by
    refine (live_eq_iff (q := { q with head := nextIndex c q.head }) hq.tail _).mpr ⟨by omega, ?_⟩
    rw [show nextIndex c q.head = (q.head + 1) % c.qcap from rfl, Nat.mod_add_mod,
      show q.head + 1 + (live c q - 1) = q.head + live c q by omega, hround]
  omega

theorem HandledQueue.liveFit {c : Config} {q q' : QueueState} (h : HandledQueue c q q') (hq : QueueSized c q)
    (hlive : LiveFit c q) : LiveFit c q' := by
  cases h with
  | kept => exact hlive
  | retired hne =>
    intro k hk
    have hindex : (nextIndex c q.head + k) % c.qcap = (q.head + (k + 1)) % c.qcap := by
      rw [show nextIndex c q.head = (q.head + 1) % c.qcap from rfl, Nat.mod_add_mod, Nat.add_assoc, Nat.add_comm 1 k]
    have hlt : k + 1 < live c q := by rw [live_retired hq hne]; omega
    change ∀ x ∈ q.slots[(nextIndex c q.head + k) % c.qcap]?, x.len.toNat ≤ c.maxPayload
    rw [hindex]
    exact hlive (k + 1) hlt

theorem SlotSized.setAttempts {c : Config} {x : Slot} (h : SlotSized c x) {n : Nat} (hn : n < 2 ^ c.attW) :
    SlotSized c { x with attempts := n } := { h with attempts := hn }

/-- Counting an attempt leaves the entry's length. -/
theorem countAttempt_liveFit {s : State} {slot : Slot} (hslot : s.queue.slots[s.queue.head]? = some slot)
    (h : LiveFit s.cfg s.queue) : LiveFit s.cfg (countAttempt slot s).queue := by
  intro k hk x hx
  obtain ⟨hlt, -⟩ := List.getElem?_eq_some_iff.mp hslot
  by_cases hhead : s.queue.head = (s.queue.head + k) % s.cfg.qcap
  · rw [Option.mem_def, show (countAttempt slot s).queue.head = s.queue.head from rfl, ← hhead] at hx
    cases (List.getElem?_set_self hlt).symm.trans hx
    exact h k hk slot (hhead ▸ hslot)
  · exact h k hk x ((List.getElem?_set_ne hhead).symm.trans hx)

/-- Where the queue is not full, SUBMIT's write adds one live entry. -/
theorem live_afterEnqueue {s : State} {old : Slot} {p : List Byte} {tag ctx : Nat} (htail : s.queue.tail < s.cfg.qcap)
    (hroom : isFull s.cfg s.queue = false) :
    live s.cfg (afterEnqueue s old p tag ctx).queue = live s.cfg s.queue + 1 := by
  obtain ⟨hlt, hround⟩ := (live_eq_iff htail (live s.cfg s.queue)).mp rfl
  have hfree : live s.cfg s.queue ≠ s.cfg.qcap - 1 := by simpa [isFull] using hroom
  refine (live_eq_iff (nextIndex_lt s.cfg s.queue.tail) _).mpr ⟨by omega, ?_⟩
  calc (s.queue.head + (live s.cfg s.queue + 1)) % s.cfg.qcap
      = ((s.queue.head + live s.cfg s.queue) % s.cfg.qcap + 1) % s.cfg.qcap := by
        rw [Nat.mod_add_mod, Nat.add_assoc]
    _ = (s.queue.tail + 1) % s.cfg.qcap := by rw [hround]

theorem submittedEntry_sized {c : Config} {old : Slot} {p : List Byte} (tag ctx : Nat) (hold : SlotSized c old)
    (hfits : p.length ≤ c.maxPayload) : SlotSized c (submittedEntry c old p tag ctx) where
  data := by
    have := hold.data
    simp only [submittedEntry, List.length_append, List.length_drop]
    omega
  attempts := Nat.two_pow_pos _
  tag := Nat.mod_lt _ (Nat.two_pow_pos _)
  ctx := Nat.mod_lt _ (Nat.two_pow_pos _)

theorem afterEnqueue_queueSized {s : State} {old : Slot} {p : List Byte} {tag ctx : Nat}
    (hq : QueueSized s.cfg s.queue) (hold : s.queue.slots[s.queue.tail]? = some old)
    (hfits : p.length ≤ s.cfg.maxPayload) : QueueSized s.cfg (afterEnqueue s old p tag ctx).queue :=
  { hq.setSlot s.queue.tail (submittedEntry_sized tag ctx (hq.slot old (List.mem_of_getElem? hold)) hfits) with
    tail := nextIndex_lt s.cfg s.queue.tail }

theorem afterEnqueue_liveFit {s : State} {old : Slot} {p : List Byte} {tag ctx : Nat}
    (hq : QueueSized s.cfg s.queue) (hfits : p.length ≤ s.cfg.maxPayload) (hroom : isFull s.cfg s.queue = false)
    (h : LiveFit s.cfg s.queue) : LiveFit s.cfg (afterEnqueue s old p tag ctx).queue := by
  intro k hk x hx
  rw [live_afterEnqueue hq.tail hroom] at hk
  by_cases hlast : k = live s.cfg s.queue
  · obtain ⟨-, hround⟩ := (live_eq_iff hq.tail k).mp hlast.symm
    rw [Option.mem_def, show (afterEnqueue s old p tag ctx).queue.head = s.queue.head from rfl, hround] at hx
    cases (List.getElem?_set_self (hq.count ▸ hq.tail)).symm.trans hx
    exact (lengthByte_toNat_le p).trans hfits
  · have hk : k < live s.cfg s.queue := by omega
    exact h k hk x ((afterEnqueue_slot_of_ne s old p tag ctx (live_index_ne_tail hq.tail hk)).symm.trans hx)

/-! ### What keeps the invariant -/

theorem SendWrites.running {s t : State} (h : SendWrites s t) (hs : Running s) : Running t := by
  obtain ⟨a, n, e, hlink⟩ := h
  refine { hs with link := hlink.linkGood hs.link, listener := ?_ }
  cases hlink <;> exact hs.listener

/-- HANDLE's writes, whatever they leave in S.hs, keep the invariant: no listener is left. -/
theorem HandledQueue.running {s t : State} (h : HandledQueue s.cfg s.queue t.queue) (hs : Running s)
    (hcfg : t.cfg = s.cfg) (hmark : t.queueInit = s.queueInit) (hlink : LinkGood s.cfg t.link)
    (hlistener : t.link.listener = false) : Running t where
  config := hcfg ▸ hs.config
  link := hcfg ▸ hlink
  listener := fun hl => absurd (hl.symm.trans hlistener) (by decide)
  queue := hcfg ▸ h.queueSized hs.queue
  live := fun hq => hcfg ▸ h.liveFit hs.queue (hs.live (hmark ▸ hq))

theorem FeedWrites.running {s t : State} (h : FeedWrites s t) (hs : Running s) : Running t := by
  cases h with
  | resolved e hr hqueue => exact hqueue.running hs rfl rfl ((hs.link.setHs hr).setListener false) rfl
  | received a st n e hlink =>
    obtain ⟨-, -, -, hlistener⟩ := hlink.frame
    exact { hs with
      link := hlink.linkGood hs.link
      listener := fun hl => hs.listener (hlistener.symm.trans hl) }

/-- One attempt is counted at least where three fit the counter (R8 (g), R184). -/
theorem one_le_bumpAttempts {c : Config} (h : configOk c = true) (n : Nat) : 1 ≤ bumpAttempts c n := by
  obtain ⟨-, -, -, hsizes⟩ := (configOk_iff c).mp h
  obtain ⟨-, -, -, hattW⟩ := (sizesInRange_iff c).mp hsizes
  unfold bumpAttempts
  omega

/-- Counting the head entry's attempt and attaching the listener, as DRAIN does before its send (R179). -/
theorem Running.attach_countAttempt {s : State} (hs : Running s) (hmark : s.queueInit = true)
    (hne : s.queue.head ≠ s.queue.tail) {slot : Slot} (hslot : s.queue.slots[s.queue.head]? = some slot) :
    Running (attach (countAttempt slot s)) where
  config := hs.config
  link := hs.link.setListener true
  listener := by
    refine fun _ => ⟨hmark, hne, fun x hx => ?_⟩
    obtain ⟨hlt, -⟩ := List.getElem?_eq_some_iff.mp hslot
    cases (List.getElem?_set_self hlt).symm.trans hx
    exact one_le_bumpAttempts hs.config slot.attempts
  queue := hs.queue.setSlot _ ((hs.queue.slot slot (List.mem_of_getElem? hslot)).setAttempts (bumpAttempts_lt _ _))
  live := fun _ => countAttempt_liveFit hslot (hs.live hmark)

theorem DrainWrites.running {s t : State} (h : DrainWrites s t) (hs : Running s) (hmark : s.queueInit = true) :
    Running t := by
  cases h with
  | unchanged => exact hs
  | handled e hqueue => exact hqueue.running hs rfl rfl (hs.link.setListener false) rfl
  | sent hne hslot hsend => exact hsend.running (hs.attach_countAttempt hmark hne hslot)

/-- SUBMIT's write before its DRAIN: a listening queue still listens for the head entry it had. -/
theorem running_afterEnqueue {s : State} (hs : Running s) (hmark : s.queueInit = true) {old : Slot} {p : List Byte}
    {tag ctx : Nat} (hfits : p.length ≤ s.cfg.maxPayload) (hroom : isFull s.cfg s.queue = false)
    (hold : s.queue.slots[s.queue.tail]? = some old) : Running (afterEnqueue s old p tag ctx) where
  config := hs.config
  link := hs.link
  listener := by
    intro hlistener
    obtain ⟨-, hne, hsent⟩ := hs.listener hlistener
    refine ⟨hmark, fun hempty => ?_, fun x hx => ?_⟩
    · have hlive := live_afterEnqueue (old := old) (p := p) (tag := tag) (ctx := ctx) hs.queue.tail hroom
      have hzero : live s.cfg (afterEnqueue s old p tag ctx).queue = 0 :=
        (live_eq_iff (nextIndex_lt s.cfg s.queue.tail) 0).mpr
          ⟨Nat.two_pow_pos _, (Nat.mod_eq_of_lt hs.queue.head).trans hempty⟩
      omega
    · exact hsent x ((afterEnqueue_slot_of_ne s old p tag ctx hne).symm.trans hx)
  queue := afterEnqueue_queueSized hs.queue hold hfits
  live := fun _ => afterEnqueue_liveFit hs.queue hfits hroom (hs.live hmark)

/-! ### The initialisations (R100, R170) -/

@[simp] theorem freeBytes_length (k n : Nat) : (freeBytes k n).length = n := by simp [freeBytes]

theorem initialLink_linkGood (c : Config) (k : Nat) : LinkGood c (initialLink c k) where
  rxBuf := freeBytes_length _ _
  rtBuf := freeBytes_length _ _
  sentAt := Nat.two_pow_pos _
  frameLen := .inl rfl
  rxCount := Nat.le_refl 0
  rxCount_lt := nofun
  nibValid := nofun
  rtLen := Nat.zero_le _
  hs := nofun

theorem initCodec_running {s : State} (hconfig : configOk s.cfg = true) (h : Inv s) : Running (initCodec s) where
  config := hconfig
  link := initialLink_linkGood _ _
  listener := nofun
  queue := queueSized_of_inv (s := s) h
  live := fun hq => by obtain ⟨-, -, -, hlive⟩ := h; exact (hlive hq).2

theorem freeSlot_sized (c : Config) (k : Nat) : SlotSized c (freeSlot c k) where
  data := freeBytes_length _ _
  attempts := Nat.mod_lt _ (Nat.two_pow_pos _)
  tag := Nat.mod_lt _ (Nat.two_pow_pos _)
  ctx := Nat.mod_lt _ (Nat.two_pow_pos _)

/-- QUEUE_INIT's ring is empty, its slots unspecified within their sizes and widths. -/
theorem emptyRing_sized (c : Config) (k : Nat) : QueueSized c { head := 0, tail := 0, slots := freeSlots c k } where
  head := Nat.two_pow_pos _
  tail := Nat.two_pow_pos _
  count := by simp [freeSlots]
  slot := by
    intro x hx
    obtain ⟨i, -, rfl⟩ := List.mem_map.mp hx
    exact freeSlot_sized _ _

theorem initQueue_running {s : State} (hs : Running s) : Running (initQueue s) where
  config := hs.config
  link := hs.link.setListener false
  listener := nofun
  queue := emptyRing_sized _ _
  live := by
    intro _ k hk
    have hempty : live s.cfg (initQueue s).queue = 0 :=
      (live_eq_iff (Nat.two_pow_pos _) 0).mpr ⟨Nat.two_pow_pos _, Nat.zero_mod _⟩
    exact absurd (hk.trans_eq hempty) (Nat.not_lt_zero k)

/-! ### Every step keeps the invariant -/

/-- Every command keeps the invariant. A procedure of its own is left out: DRAIN alone, run before QUEUE_INIT, would listen
for a queue that is not initialised. -/
theorem ExecWrites.inv {i : Instr} {s t : State} (h : ExecWrites s i t) (hi : isCommand i = true) (hinv : Inv s) :
    Inv t := by
  cases h with
  | refused | readiness | rejected => exact hinv
  | codecInit hadm r => exact (initCodec_running hadm hinv).inv rfl
  | feed hfeed hadm r hwrites =>
    have hcodec := codecInit_of_admitsCodec hadm
    exact (hwrites.running (running_of_inv hinv hcodec)).inv (hwrites.sameMarks.codecInit.trans hcodec)
  | send hadm r hwrites | resend hadm r hwrites =>
    have hcodec := codecInit_of_admitsCodec hadm
    exact (hwrites.running (running_of_inv hinv hcodec)).inv (hwrites.sameMarks.codecInit.trans hcodec)
  | queueInit hadm r =>
    have hcodec := codecInit_of_admitsCodec hadm
    exact (initQueue_running (running_of_inv hinv hcodec)).inv hcodec
  | submit hadm r hfits hroom hold hwrites =>
    obtain ⟨hcodec, hmark⟩ := marks_of_admitsQueue hadm
    have hs := running_of_inv hinv hcodec
    exact (hwrites.running (running_afterEnqueue hs hmark hfits hroom hold) hmark).inv
      (hwrites.sameMarks.codecInit.trans hcodec)
  | update hadm r hwrites =>
    obtain ⟨hcodec, hmark⟩ := marks_of_admitsQueue hadm
    exact (hwrites.running (running_of_inv hinv hcodec) hmark).inv (hwrites.sameMarks.codecInit.trans hcodec)
  | handle | drain => nomatch hi

/-- Settles O2: whatever a step runs is a command, and every command keeps the invariant. -/
theorem stepKeepsInvariant : Obligations.StepKeepsInvariant := by
  intro s t hinv h
  obtain rfl | rfl | ⟨i, hi, hexec⟩ := step_cases h
  · exact hinv
  · exact hinv
  · exact (exec_writes hexec).inv hi hinv

end Sys2Proof.Machine
end

