-- ==== Sys2Proof/Proofs/Encoding.lean ====
section
/-! PROOFS. The command port and FEED's decode table read back what the encoder writes (R79, R81 to R83). -/

namespace Sys2Proof

/-! ### The fields of a header (R81) -/

@[simp] theorem headerOp_makeHeader (op : BitVec 4) (imm8 : Byte) : headerOp (makeHeader op imm8) = op := by
  unfold headerOp makeHeader
  rw [BitVec.extractLsb'_append_eq_of_le (Nat.le_refl 12)]
  exact BitVec.extractLsb'_eq_self

@[simp] theorem headerRsv_makeHeader (op : BitVec 4) (imm8 : Byte) : headerRsv (makeHeader op imm8) = 0#4 := by
  unfold headerRsv makeHeader
  rw [BitVec.extractLsb'_append_eq_of_add_le (by decide), BitVec.extractLsb'_append_eq_of_le (Nat.le_refl 8)]
  exact BitVec.extractLsb'_eq_self

@[simp] theorem headerImm8_makeHeader (op : BitVec 4) (imm8 : Byte) : headerImm8 (makeHeader op imm8) = imm8 := by
  unfold headerImm8 makeHeader
  rw [BitVec.extractLsb'_append_eq_of_add_le (by decide), BitVec.extractLsb'_append_eq_of_add_le (by decide)]
  exact BitVec.extractLsb'_eq_self

/-- R84 refuses no header of an opcode below 8 that carries an imm8 only where the opcode has one. -/
theorem reservedHeader_makeHeader {op : BitVec 4} {imm8 : Byte} (hop : op.toNat < 8)
    (himm : usesImm8 op = true ∨ imm8 = 0#8) : reservedHeader (makeHeader op imm8) = false := by
  have hop' : ¬8 ≤ op.toNat := Nat.not_le.mpr hop
  obtain huses | rfl := himm
  · simp [reservedHeader, hop', huses]
  · simp [reservedHeader, hop']

/-- The payload's length is read back from imm8 (R83). -/
theorem payloadImm8_toNat {p : List Byte} (hfits : payloadFits p = true) : (payloadImm8 p).toNat = p.length := by
  have hlen : p.length ≤ 255 := of_decide_eq_true hfits
  exact Nat.mod_eq_of_lt (by omega)

/-! ### The operand fields (R81) -/

theorem ofBits_toBits_of_lt {w v : Nat} (h : v < 2 ^ w) : ofBits (toBits w v) = v :=
  (ofBits_toBits w v).trans (Nat.mod_eq_of_lt h)

/-- SUBMIT's three fields after its payload are read back. -/
theorem submitOperands_toBits {cfg : Config} (p : List Byte) {tag ctx now : Nat} (htag : tag < 2 ^ cfg.tagW)
    (hctx : ctx < 2 ^ cfg.ctxW) (hnow : now < 2 ^ cfg.timeW) :
    submitOperands cfg p (toBits cfg.tagW tag ++ (toBits cfg.ctxW ctx ++ toBits cfg.timeW now))
      = .submit p tag ctx now := by
  unfold submitOperands
  rw [List.take_left' (toBits_length _ _), List.drop_left' (toBits_length _ _), List.take_left' (toBits_length _ _),
    List.drop_left' (toBits_length _ _), ofBits_toBits_of_lt htag, ofBits_toBits_of_lt hctx, ofBits_toBits_of_lt hnow]

/-! ### A command's bit string (R81, R82) -/

/-- A header is read back from its 16 bits. -/
@[simp] theorem header_ofBits_toBits (h : BitVec 16) : BitVec.ofNat 16 (ofBits (toBits 16 h.toNat)) = h := by
  rw [ofBits_toBits_of_lt h.isLt, BitVec.ofNat_toNat, BitVec.setWidth_eq]

/-- A reserved header is RESERVED, whatever follows it (R84). -/
theorem decodeCommand_of_reserved (cfg : Config) {h : BitVec 16} (operands : List Bool)
    (hres : reservedHeader h = true) : decodeCommand cfg (toBits 16 h.toNat ++ operands) = .ok (.reserved h) := by
  simp [decodeCommand, hres]

/-- Any other header is its command, where it is followed by as many bits as its operand fields take. -/
theorem decodeCommand_of_operands {cfg : Config} {h : BitVec 16} {operands : List Bool}
    (hres : reservedHeader h = false) (hlen : operands.length = operandBits cfg h) :
    decodeCommand cfg (toBits 16 h.toNat ++ operands) = .ok (operandForm cfg h operands) := by
  have hdrop : (toBits 16 h.toNat ++ operands).drop 16 = operands := List.drop_left' (toBits_length _ _)
  simp [decodeCommand, hdrop, hres, hlen]

/-- The same of a header made of its opcode and its imm8. -/
theorem decodeCommand_commandBits {cfg : Config} {op : BitVec 4} {imm8 : Byte} {operands : List Bool} {i : Instr}
    (hop : op.toNat < 8) (himm : usesImm8 op = true ∨ imm8 = 0#8)
    (hlen : operands.length = operandBits cfg (makeHeader op imm8))
    (hform : operandForm cfg (makeHeader op imm8) operands = i) :
    decodeCommand cfg (commandBits op imm8 operands) = .ok i :=
  hform ▸ decodeCommand_of_operands (reservedHeader_makeHeader hop himm) hlen

/-- READINESS, RESEND and UPDATE: a time stamp is the one operand. -/
theorem operandForm_now {cfg : Config} {now : Nat} (hnow : now < 2 ^ cfg.timeW) :
    operandForm cfg (makeHeader 2#4 0#8) (toBits cfg.timeW now) = .readiness now
      ∧ operandForm cfg (makeHeader 4#4 0#8) (toBits cfg.timeW now) = .resend now
      ∧ operandForm cfg (makeHeader 7#4 0#8) (toBits cfg.timeW now) = .update now := by
  simp [operandForm, ofBits_toBits_of_lt hnow]

theorem operandForm_send {cfg : Config} {p : List Byte} {now : Nat} (hfits : payloadFits p = true)
    (hnow : now < 2 ^ cfg.timeW) :
    operandForm cfg (makeHeader 3#4 (payloadImm8 p)) (bytesToBits p ++ toBits cfg.timeW now) = .send p now := by
  simp [operandForm, payloadImm8_toNat hfits, readBytes_bytesToBits, ofBits_toBits_of_lt hnow]

theorem operandForm_submit {cfg : Config} {p : List Byte} {tag ctx now : Nat} (hfits : payloadFits p = true)
    (htag : tag < 2 ^ cfg.tagW) (hctx : ctx < 2 ^ cfg.ctxW) (hnow : now < 2 ^ cfg.timeW) :
    operandForm cfg (makeHeader 6#4 (payloadImm8 p))
      (bytesToBits p ++ (toBits cfg.tagW tag ++ (toBits cfg.ctxW ctx ++ toBits cfg.timeW now)))
      = .submit p tag ctx now := by
  simp [operandForm, payloadImm8_toNat hfits, readBytes_bytesToBits,
    submitOperands_toBits p htag hctx hnow]

/-! ### FEED's decode table (R79) -/

theorem isControl_eq_false_iff (cfg : Config) (b : Byte) :
    isControl cfg b = false ↔ b ≠ cfg.sofByte ∧ b ≠ cfg.ackByte ∧ b ≠ cfg.nakByte := by
  simp [isControl, and_assoc]

/-- No hex digit character is a control byte (R8 (b)). -/
theorem isControl_of_hexVal {cfg : Config} {b : Byte} (hnothex : Machine.controlNotHex cfg = true)
    (hhex : (hexVal b).isNone = false) : isControl cfg b = false := by
  simp only [Machine.controlNotHex, Bool.and_eq_true, and_assoc] at hnothex
  obtain ⟨hsof, hack, hnak⟩ := hnothex
  refine (isControl_eq_false_iff cfg b).mpr ⟨?_, ?_, ?_⟩
  · rintro rfl; exact absurd hsof (by simp [hhex])
  · rintro rfl; exact absurd hack (by simp [hhex])
  · rintro rfl; exact absurd hnak (by simp [hhex])

/-- The control bytes are told apart (R8 (a)). -/
theorem decodeInbound_control {cfg : Config} (hdistinct : Machine.controlDistinct cfg = true) (reading : Bool) :
    decodeInbound cfg reading cfg.sofByte = .sof ∧ decodeInbound cfg reading cfg.ackByte = .ack
      ∧ decodeInbound cfg reading cfg.nakByte = .nak := by
  obtain ⟨hsofAck, hsofNak, hackNak⟩ := (Machine.controlDistinct_iff cfg).mp hdistinct
  simp [decodeInbound, classify, hsofAck.symm, hsofNak.symm, hackNak.symm]

theorem decodeInbound_junkIdle {cfg : Config} {b : Byte} (hb : isControl cfg b = false) :
    decodeInbound cfg false b = .junkIdle b := by
  obtain ⟨hsof, hack, hnak⟩ := (isControl_eq_false_iff cfg b).mp hb
  simp [decodeInbound, classify, hsof, hack, hnak]

theorem decodeInbound_junkFrame {cfg : Config} {b : Byte} (hb : isControl cfg b = false)
    (hhex : (hexVal b).isNone = true) : decodeInbound cfg true b = .junkFrame b := by
  obtain ⟨hsof, hack, hnak⟩ := (isControl_eq_false_iff cfg b).mp hb
  simp [decodeInbound, classify, hsof, hack, hnak, Option.isNone_iff_eq_none.mp hhex]

/-- Each row of the 22 is one hex digit character, and it is the row its byte finds. -/
theorem hexDigitRows_spec : ∀ r ∈ hexDigitRows, (hexVal r.1).isNone = false ∧ hexDigitRows.lookup r.1 = some r.2 := by
  decide

theorem decodeInbound_hexDigit {cfg : Config} {b : Byte} {i : Instr} (hnothex : Machine.controlNotHex cfg = true)
    (hrow : (b, i) ∈ hexDigitRows) : decodeInbound cfg true b = i := by
  obtain ⟨hhex, hlookup⟩ := hexDigitRows_spec (b, i) hrow
  obtain ⟨hsof, hack, hnak⟩ := (isControl_eq_false_iff cfg b).mp (isControl_of_hexVal hnothex hhex)
  obtain ⟨d, hd⟩ := Option.isSome_iff_exists.mp (Option.isNone_eq_false_iff.mp hhex)
  simp [decodeInbound, classify, hsof, hack, hnak, hd, hlookup]

/-! ### Decoding an encoding -/

/-- Settles O6, instruction by instruction: a command by the port's fields, a byte class by its row of FEED's table. -/
theorem decodeEncodeAgree : Obligations.DecodeEncodeAgree := by
  intro cfg reading i a hcfg hwf hphase henc
  obtain ⟨hdistinct, hnothex, -, -⟩ := (Machine.configOk_iff cfg).mp hcfg
  cases i with
  | handle | drain => nomatch henc
  | codecInit | queueInit =>
    cases henc
    exact decodeCommand_commandBits (by decide) (.inr rfl) rfl rfl
  | feed b =>
    cases henc
    exact decodeCommand_commandBits (by decide) (.inl rfl) (by simp [operandBits]) (by simp [operandForm])
  | readiness now | resend now | update now =>
    cases henc
    obtain ⟨hreadiness, hresend, hupdate⟩ := operandForm_now (of_decide_eq_true hwf)
    exact decodeCommand_commandBits (by decide) (.inr rfl) (toBits_length _ _) ‹_›
  | send p now =>
    cases henc
    simp only [wellFormed, Bool.and_eq_true, decide_eq_true_eq] at hwf
    obtain ⟨hfits, hnow⟩ := hwf
    exact decodeCommand_commandBits (by decide) (.inl rfl) (by simp [operandBits, payloadImm8_toNat hfits])
      (operandForm_send hfits hnow)
  | submit p tag ctx now =>
    cases henc
    simp only [wellFormed, Bool.and_eq_true, decide_eq_true_eq, and_assoc] at hwf
    obtain ⟨hfits, htag, hctx, hnow⟩ := hwf
    exact decodeCommand_commandBits (by decide) (.inl rfl) (by simp [operandBits, payloadImm8_toNat hfits])
      (operandForm_submit hfits htag hctx hnow)
  | reserved h =>
    cases henc
    simpa [decode] using decodeCommand_of_reserved cfg [] hwf
  | sof | ack | nak =>
    cases henc
    obtain ⟨hsof, hack, hnak⟩ := decodeInbound_control hdistinct reading
    exact congrArg Except.ok ‹_›
  | junkIdle b =>
    cases henc
    cases (Bool.not_eq_true' reading).mp hphase
    exact congrArg Except.ok (decodeInbound_junkIdle ((Bool.not_eq_true' _).mp hwf))
  | junkFrame b =>
    cases henc
    cases (show reading = true from hphase)
    simp only [wellFormed, Bool.and_eq_true, Bool.not_eq_true'] at hwf
    obtain ⟨hcontrol, hhex⟩ := hwf
    exact congrArg Except.ok (decodeInbound_junkFrame hcontrol hhex)
  | _ =>
    cases henc
    cases (show reading = true from hphase)
    exact congrArg Except.ok (decodeInbound_hexDigit hnothex (by decide))

end Sys2Proof
end

section
/-! PROOFS. The command port and FEED's decode table the other way round (R79, R81 to R84): what is decoded, and that the
encoder writes it back. -/

namespace Sys2Proof

/-! ### The fields of a header (R81) -/

/-- A header is its opcode and its imm8, where rsv is 0. -/
theorem makeHeader_fields {h : BitVec 16} (hrsv : headerRsv h = 0#4) : makeHeader (headerOp h) (headerImm8 h) = h := by
  unfold makeHeader
  rw [← hrsv, headerRsv, headerImm8, BitVec.extractLsb'_append_extractLsb'_eq_extractLsb' (show 8 = 0 + 8 from rfl),
    headerOp, BitVec.extractLsb'_append_extractLsb'_eq_extractLsb' (show 12 = 0 + 12 from rfl)]
  exact BitVec.extractLsb'_eq_self

/-- The headers that R84 does not refuse: an opcode below 8, and an imm8 only where the opcode has one. -/
theorem exists_makeHeader_of_not_reserved {h : BitVec 16} (hres : reservedHeader h = false) :
    ∃ op imm8, h = makeHeader op imm8 ∧ op.toNat < 8 ∧ (usesImm8 op = true ∨ imm8 = 0#8) := by
  simp only [reservedHeader, Bool.or_eq_false_iff, decide_eq_false_iff_not, Nat.not_le, bne_eq_false_iff_eq,
    Bool.and_eq_false_iff, Bool.not_eq_false'] at hres
  obtain ⟨⟨hop, hrsv⟩, himm⟩ := hres
  exact ⟨headerOp h, headerImm8 h, (makeHeader_fields hrsv).symm, hop, himm⟩

/-- The opcodes of R82 by their operands: a payload (SEND, SUBMIT), a byte (FEED), nothing, a time stamp alone. -/
theorem opcode_cases : ∀ op : BitVec 4, op.toNat < 8 →
    op = 3#4 ∨ op = 6#4 ∨ op = 1#4 ∨ (op = 0#4 ∨ op = 5#4) ∨ (op = 2#4 ∨ op = 4#4 ∨ op = 7#4) := by
  decide

/-! ### The operand fields (R81) -/

/-- Writing back a field that was read gives its bits. -/
theorem toBits_ofBits_of_length {w : Nat} {bits : List Bool} (h : bits.length = w) : toBits w (ofBits bits) = bits :=
  h ▸ toBits_ofBits bits

theorem ofBits_lt_of_length {w : Nat} {bits : List Bool} (h : bits.length = w) : ofBits bits < 2 ^ w :=
  h ▸ ofBits_lt bits

/-- Writing back the bytes that were read gives their bits. -/
theorem bytesToBits_readBytes {n : Nat} {bits : List Bool} (h : 8 * n ≤ bits.length) :
    bytesToBits (readBytes n bits) = bits.take (8 * n) := by
  induction n generalizing bits with
  | zero => rfl
  | succ n ih =>
    have hbyte : (bits.take 8).length = 8 := by simp; omega
    rw [readBytes, bytesToBits, ih (by simp; omega), BitVec.toNat_ofNat, Nat.mod_eq_of_lt (ofBits_lt_of_length hbyte),
      toBits_ofBits_of_length hbyte, Nat.mul_succ, Nat.add_comm, List.take_add]

/-- The payload that was read has the length that imm8 says (R83). -/
@[simp] theorem payloadImm8_readBytes (imm8 : Byte) (bits : List Bool) :
    payloadImm8 (readBytes imm8.toNat bits) = imm8 := by
  simp [payloadImm8]

/-- A payload's bits and the bits after it. -/
theorem bytesToBits_readBytes_append {n w : Nat} {bits : List Bool} (h : bits.length = 8 * n + w) :
    bytesToBits (readBytes n bits) ++ bits.drop (8 * n) = bits ∧ (bits.drop (8 * n)).length = w := by
  rw [bytesToBits_readBytes (by omega), List.length_drop]
  exact ⟨List.take_append_drop _ _, by omega⟩

/-- SUBMIT's three fields after its payload, read from their bits, are written back and fit their widths. -/
theorem submitOperands_eq {cfg : Config} (p : List Byte) {bits : List Bool}
    (h : bits.length = cfg.tagW + (cfg.ctxW + cfg.timeW)) :
    ∃ tag ctx now, submitOperands cfg p bits = .submit p tag ctx now
      ∧ (tag < 2 ^ cfg.tagW ∧ ctx < 2 ^ cfg.ctxW ∧ now < 2 ^ cfg.timeW)
      ∧ toBits cfg.tagW tag ++ (toBits cfg.ctxW ctx ++ toBits cfg.timeW now) = bits := by
  have htag : (bits.take cfg.tagW).length = cfg.tagW := by simp; omega
  have hctx : ((bits.drop cfg.tagW).take cfg.ctxW).length = cfg.ctxW := by simp; omega
  have hnow : ((bits.drop cfg.tagW).drop cfg.ctxW).length = cfg.timeW := by simp; omega
  refine ⟨_, _, _, rfl, ⟨ofBits_lt_of_length htag, ofBits_lt_of_length hctx, ofBits_lt_of_length hnow⟩, ?_⟩
  rw [toBits_ofBits_of_length htag, toBits_ofBits_of_length hctx, toBits_ofBits_of_length hnow,
    List.take_append_drop, List.take_append_drop]

/-! ### A command's bit string (R81, R82) -/

/-- Everything that decodes: a header and its operand bits, the header reserved (R84) or followed by as many bits as its
operand fields take. -/
theorem decodeCommand_cases {cfg : Config} {bits : List Bool} {i : Instr} (h : decodeCommand cfg bits = .ok i) :
    ∃ hd operands, bits = toBits 16 hd.toNat ++ operands ∧
      ((reservedHeader hd = true ∧ i = .reserved hd)
        ∨ (reservedHeader hd = false ∧ operands.length = operandBits cfg hd ∧ i = operandForm cfg hd operands)) := by
  unfold decodeCommand at h
  split at h
  next => cases h
  next hshort =>
    have hheader : (bits.take 16).length = 16 := by simp; omega
    refine ⟨BitVec.ofNat 16 (ofBits (bits.take 16)), bits.drop 16, ?_, ?_⟩
    · rw [BitVec.toNat_ofNat, Nat.mod_eq_of_lt (ofBits_lt_of_length hheader), toBits_ofBits_of_length hheader,
        List.take_append_drop]
    split at h
    next hres => cases h; exact .inl ⟨hres, rfl⟩
    next hres =>
      split at h
      next => cases h
      next hfew =>
        split at h
        next => cases h
        next hmany =>
          cases h
          exact .inr ⟨(Bool.not_eq_true _).mp hres, by omega, rfl⟩

/-- The command of an opcode, an imm8 and operand bits of the right number is well-formed, and its encoding is these. -/
theorem operandForm_spec {cfg : Config} {op : BitVec 4} {imm8 : Byte} {operands : List Bool} (hop : op.toNat < 8)
    (himm : usesImm8 op = true ∨ imm8 = 0#8) (hlen : operands.length = operandBits cfg (makeHeader op imm8)) :
    wellFormed cfg (operandForm cfg (makeHeader op imm8) operands) = true
      ∧ (∀ reading, inPhase reading (operandForm cfg (makeHeader op imm8) operands) = true)
      ∧ encode cfg (operandForm cfg (makeHeader op imm8) operands) = some (.command (commandBits op imm8 operands)) := by
  have hbyte : imm8.toNat ≤ 255 := Nat.le_of_lt_succ imm8.isLt
  obtain rfl | rfl | rfl | hnone | htime := opcode_cases op hop
  · have hsend : operands.length = 8 * imm8.toNat + cfg.timeW := by simpa [operandBits] using hlen
    obtain ⟨hbits, hnow⟩ := bytesToBits_readBytes_append hsend
    simp [operandForm, wellFormed, inPhase, encode, payloadFits, hbyte, ofBits_lt_of_length hnow,
      toBits_ofBits_of_length hnow, hbits]
  · have hsubmit : operands.length = 8 * imm8.toNat + (cfg.tagW + (cfg.ctxW + cfg.timeW)) := by
      simpa [operandBits] using hlen
    obtain ⟨hbits, hfields⟩ := bytesToBits_readBytes_append hsubmit
    obtain ⟨tag, ctx, now, hform, ⟨htag, hctx, hnow⟩, hwritten⟩ :=
      submitOperands_eq (readBytes imm8.toNat operands) hfields
    simp [operandForm, hform, wellFormed, inPhase, encode, payloadFits, hbyte, htag, hctx, hnow, hwritten, hbits]
  · obtain rfl : operands = [] := by simpa [operandBits] using hlen
    simp [operandForm, wellFormed, inPhase, encode]
  · obtain rfl | rfl := hnone
    all_goals
      obtain rfl : imm8 = 0#8 := himm.resolve_left (by decide)
      obtain rfl : operands = [] := List.length_eq_zero_iff.mp hlen
      exact ⟨rfl, fun _ => rfl, rfl⟩
  · obtain rfl | rfl | rfl := htime
    all_goals
      obtain rfl : imm8 = 0#8 := himm.resolve_left (by decide)
      have hnow : operands.length = cfg.timeW := hlen
      simp [operandForm, wellFormed, inPhase, encode, ofBits_lt_of_length hnow, toBits_ofBits_of_length hnow]

/-- Settles O7: a header that is not reserved is made of its opcode and its imm8, and each operand field is written back
as it was read. -/
theorem encodeDecodeAgree : Obligations.EncodeDecodeAgree := by
  intro cfg bits i hdec hnotres
  obtain ⟨hd, operands, rfl, ⟨-, hi⟩ | ⟨hres, hlen, rfl⟩⟩ := decodeCommand_cases hdec
  · exact absurd hi (hnotres hd)
  · obtain ⟨op, imm8, rfl, hop, himm⟩ := exists_makeHeader_of_not_reserved hres
    obtain ⟨-, -, hencode⟩ := operandForm_spec hop himm hlen
    exact hencode

/-! ### FEED's decode table (R79) -/

/-- A character is a hex digit exactly where one of the 22 rows is its own. -/
theorem lookup_hexDigitRows : ∀ b : Byte, (hexDigitRows.lookup b).isSome = (hexVal b).isSome := by
  decide

/-- Mid-frame, a hex digit that is no control byte is decoded to its own row. -/
theorem decodeInbound_hexVal {cfg : Config} {b : Byte} {d : Nibble} (hb : isControl cfg b = false)
    (hd : hexVal b = some d) : (b, decodeInbound cfg true b) ∈ hexDigitRows := by
  obtain ⟨hsof, hack, hnak⟩ := (isControl_eq_false_iff cfg b).mp hb
  obtain ⟨i, hi⟩ := Option.isSome_iff_exists.mp ((lookup_hexDigitRows b).trans (by simp [hd]))
  have hrow : decodeInbound cfg true b = i := by simp [decodeInbound, classify, hsof, hack, hnak, hd, hi]
  obtain ⟨before, after, hrows, -⟩ := List.lookup_eq_some_iff.mp hi
  simp [hrow, hrows]

/-- The rows of R79 that an inbound byte can be decoded to. -/
theorem decodeInbound_cases (cfg : Config) (reading : Bool) (b : Byte) :
    (decodeInbound cfg reading b = .sof ∧ b = cfg.sofByte)
      ∨ (decodeInbound cfg reading b = .ack ∧ b = cfg.ackByte)
      ∨ (decodeInbound cfg reading b = .nak ∧ b = cfg.nakByte)
      ∨ (isControl cfg b = false ∧
        ((reading = false ∧ decodeInbound cfg reading b = .junkIdle b)
          ∨ (reading = true ∧ (b, decodeInbound cfg reading b) ∈ hexDigitRows)
          ∨ (reading = true ∧ hexVal b = none ∧ decodeInbound cfg reading b = .junkFrame b))) := by
  by_cases hsof : b = cfg.sofByte
  · exact .inl ⟨by simp [decodeInbound, classify, hsof], hsof⟩
  by_cases hack : b = cfg.ackByte
  · exact .inr (.inl ⟨by simp [decodeInbound, classify, hsof, ← hack], hack⟩)
  by_cases hnak : b = cfg.nakByte
  · exact .inr (.inr (.inl ⟨by simp [decodeInbound, classify, hsof, hack, ← hnak], hnak⟩))
  have hb : isControl cfg b = false := (isControl_eq_false_iff cfg b).mpr ⟨hsof, hack, hnak⟩
  refine .inr (.inr (.inr ⟨hb, ?_⟩))
  cases reading with
  | false => exact .inl ⟨rfl, decodeInbound_junkIdle hb⟩
  | true =>
    cases hhex : hexVal b with
    | some d => exact .inr (.inl ⟨rfl, decodeInbound_hexVal hb hhex⟩)
    | none => exact .inr (.inr ⟨rfl, rfl, decodeInbound_junkFrame hb (by simp [hhex])⟩)

/-- A hex digit's row is well-formed, belongs to the mid-frame phases, and is encoded by its byte. -/
theorem wellFormed_encode_of_hexDigitRow (cfg : Config) :
    ∀ r ∈ hexDigitRows, wellFormed cfg r.2 = true ∧ inPhase true r.2 = true ∧ encode cfg r.2 = some (.inbound r.1) := by
  intro r hr
  fin_cases hr
  all_goals exact ⟨rfl, rfl, rfl⟩

/-- What an inbound byte is decoded to is well-formed, belongs to its phase, and is encoded by that byte. -/
theorem decodeInbound_spec (cfg : Config) (reading : Bool) (b : Byte) :
    wellFormed cfg (decodeInbound cfg reading b) = true ∧ inPhase reading (decodeInbound cfg reading b) = true
      ∧ encode cfg (decodeInbound cfg reading b) = some (.inbound b) := by
  obtain ⟨hrow, rfl⟩ | ⟨hrow, rfl⟩ | ⟨hrow, rfl⟩ | ⟨hb, ⟨rfl, hrow⟩ | ⟨rfl, hmem⟩ | ⟨rfl, hhex, hrow⟩⟩ :=
    decodeInbound_cases cfg reading b
  · rw [hrow]; exact ⟨rfl, rfl, rfl⟩
  · rw [hrow]; exact ⟨rfl, rfl, rfl⟩
  · rw [hrow]; exact ⟨rfl, rfl, rfl⟩
  · rw [hrow]; exact ⟨by simp [wellFormed, hb], rfl, rfl⟩
  · exact wellFormed_encode_of_hexDigitRow cfg _ hmem
  · rw [hrow]; exact ⟨by simp [wellFormed, hb, hhex], rfl, rfl⟩

/-! ### Whatever is decoded (R79, R83) -/

theorem decodeCommand_wellFormed {cfg : Config} {bits : List Bool} {i : Instr} (h : decodeCommand cfg bits = .ok i)
    (reading : Bool) : wellFormed cfg i = true ∧ inPhase reading i = true := by
  obtain ⟨hd, operands, -, ⟨hres, rfl⟩ | ⟨hres, hlen, rfl⟩⟩ := decodeCommand_cases h
  · exact ⟨hres, rfl⟩
  · obtain ⟨op, imm8, rfl, hop, himm⟩ := exists_makeHeader_of_not_reserved hres
    obtain ⟨hwf, hphase, -⟩ := operandForm_spec hop himm hlen
    exact ⟨hwf, hphase reading⟩

/-- Settles O8: a command's bit string by the port's fields, an inbound byte by its row of FEED's table. -/
theorem decodedIsWellFormed : Obligations.DecodedIsWellFormed := by
  intro cfg reading a i h
  cases a with
  | command bits => exact decodeCommand_wellFormed h reading
  | overlapping bits => exact decodeCommand_wellFormed h reading
  | inbound b =>
    cases h
    obtain ⟨hwf, hphase, -⟩ := decodeInbound_spec cfg reading b
    exact ⟨hwf, hphase⟩

/-! ### Rows of FEED's table are FEED (R79, R130) -/

/-- An instruction that is encoded by an inbound byte is FEED of that byte (log 9). -/
theorem exec_of_encode_inbound {i : Instr} {b : Byte} {s : Machine.State}
    (h : encode s.cfg i = some (.inbound b)) : Machine.exec i s = Machine.exec (.feed b) s := by
  cases i with
  | codecInit | feed | readiness | send | resend | queueInit | submit | update | reserved | handle | drain => nomatch h
  | _ => cases h; rfl

/-- Settles O17: a byte is decoded to a row that is encoded by this byte. -/
theorem inboundByteIsFeed : Obligations.InboundByteIsFeed := by
  intro s b
  obtain ⟨-, -, hencode⟩ := decodeInbound_spec s.cfg s.link.reading b
  exact exec_of_encode_inbound hencode

/-- Settles O18: each row is encoded by its byte. -/
theorem byteClassRowsAreFeed : Obligations.ByteClassRowsAreFeed := by
  refine fun s => ⟨exec_of_encode_inbound rfl, exec_of_encode_inbound rfl, exec_of_encode_inbound rfl,
    fun b => exec_of_encode_inbound rfl, fun b => exec_of_encode_inbound rfl, fun r hr => ?_⟩
  obtain ⟨-, -, hencode⟩ := wellFormed_encode_of_hexDigitRow s.cfg r hr
  exact exec_of_encode_inbound hencode

/-! ### Reserved headers (R84) -/

theorem headerOp_toNat (h : BitVec 16) : (headerOp h).toNat = h.toNat / 4096 := by
  have hlt := h.isLt
  rw [headerOp, BitVec.extractLsb'_toNat, Nat.shiftRight_eq_div_pow]
  omega

theorem headerRsv_toNat (h : BitVec 16) : (headerRsv h).toNat = h.toNat / 256 % 16 := by
  rw [headerRsv, BitVec.extractLsb'_toNat, Nat.shiftRight_eq_div_pow]

theorem headerImm8_toNat (h : BitVec 16) : (headerImm8 h).toNat = h.toNat % 256 := by
  rw [headerImm8, BitVec.extractLsb'_toNat, Nat.shiftRight_zero]

/-- The opcodes below 8 whose imm8 is 0 (R82). -/
theorem usesImm8_of_mem : ∀ op : BitVec 4, op.toNat ∈ [0, 2, 4, 5, 7] → usesImm8 op = false := by
  decide

/-- R84's three cases, on the number of a header. -/
theorem reservedHeader_of_fields {h : BitVec 16} (hcase : 8 ≤ h.toNat / 4096 ∨ h.toNat / 256 % 16 ≠ 0
    ∨ (h.toNat / 4096 ∈ [0, 2, 4, 5, 7] ∧ h.toNat % 256 ≠ 0)) : reservedHeader h = true := by
  rw [← headerOp_toNat, ← headerRsv_toNat, ← headerImm8_toNat] at hcase
  obtain hop | hrsv | ⟨hop, himm⟩ := hcase
  · simp [reservedHeader, hop]
  · have hrsv' : headerRsv h ≠ 0#4 := fun hzero => hrsv (congrArg BitVec.toNat hzero)
    simp [reservedHeader, hrsv']
  · have himm' : headerImm8 h ≠ 0#8 := fun hzero => himm (congrArg BitVec.toNat hzero)
    simp [reservedHeader, usesImm8_of_mem _ hop, himm']

/-- Settles O9: such a header is RESERVED, whatever follows it, and RESERVED is never admitted. -/
theorem reservedHeadersRefused : Obligations.ReservedHeadersRefused := by
  intro s h operands rest hlt harr hcase
  have hnat : (BitVec.ofNat 16 h).toNat = h := Nat.mod_eq_of_lt hlt
  have hdec : decodeCommand s.cfg (toBits 16 h ++ operands) = .ok (.reserved (BitVec.ofNat 16 h)) := by
    have hres := decodeCommand_of_reserved s.cfg operands (reservedHeader_of_fields (hnat.symm ▸ hcase))
    rwa [hnat] at hres
  have hexec : ∀ t, Machine.exec (.reserved (BitVec.ofNat 16 h)) t = .next t.refuse :=
    fun t => Machine.exec_refused rfl rfl
  refine ⟨?_, hexec s⟩
  rw [Machine.stepRunsDecodedInstruction s _ rest _ harr (fun _ => nofun) hdec, hexec]
  rfl

/-! ### Sample encodings (R82, R88) -/

/-- A well-formed command is decoded from its encoding. -/
theorem decodeCommand_of_encode {cfg : Config} {i : Instr} {bits : List Bool} (hcfg : Machine.configOk cfg = true)
    (hwf : wellFormed cfg i = true) (hphase : inPhase false i = true) (henc : encode cfg i = some (.command bits)) :
    decodeCommand cfg bits = .ok i :=
  decodeEncodeAgree cfg false i (.command bits) hcfg hwf hphase henc

/-- Settles O10: each bit string is the encoding of its command, and K9's headers are encodings of RESERVED. -/
theorem sampleEncodingsDecode : Obligations.SampleEncodingsDecode := by
  have hcfg : Machine.configOk Config.reference = true := by decide
  refine ⟨?_, ?_, ?_, ?_, ?_, ?_, ?_, ?_, fun h hmem => ?_, ?_⟩
  on_goal 9 => fin_cases hmem
  all_goals exact decodeCommand_of_encode hcfg rfl rfl rfl

end Sys2Proof
end

section
/-! PROOFS. Hex digits read back, and the layout of a frame (R70 to R75). -/

namespace Sys2Proof.Machine

/-! ### Hex digits (R70 to R72) -/

/-- The first two digits of a string are its first byte. -/
theorem decodeDigits_hexPair_append (v : Byte) (rest : List Byte) :
    decodeDigits (hexPair v ++ rest) = (decodeDigits rest).map (v :: ·) := by
  cases hrest : decodeDigits rest with
  | none => simp [hexPair, decodeDigits, hexVal_hexChar, hrest]
  | some bytes => simp [hexPair, decodeDigits, hexVal_hexChar, pairNibbles_nibbles, hrest]

/-- The digits of a list of bytes spell it. -/
theorem decodeDigits_flatMap_hexPair (bytes : List Byte) :
    decodeDigits (bytes.flatMap hexPair) = some bytes := by
  induction bytes with
  | nil => rfl
  | cons v bytes ih => rw [List.flatMap_cons, decodeDigits_hexPair_append, ih, Option.map_some]

/-- A character that is a digit is an emitted one or the lower-case form of an emitted letter. -/
theorem eq_hexChar_of_mem_hexVal :
    ∀ b : Byte, ∀ d ∈ hexVal b, b = hexChar d ∨ (10 ≤ d.toNat ∧ b = hexChar d + 0x20#8) := by
  decide

theorem hexVal_lowerCase : ∀ d : Nibble, 10 ≤ d.toNat → hexVal (hexChar d + 0x20#8) = some d := by
  decide

/-- Settles O11: a digit's characters are the emitted one and, for a letter, its lower-case form. -/
theorem hexDigitsReadBack : Obligations.HexDigitsReadBack := by
  refine ⟨hexVal_hexChar, fun v => decodeDigits_flatMap_hexPair [v], fun b d => ⟨eq_hexChar_of_mem_hexVal b d, ?_⟩⟩
  rintro (rfl | ⟨hletter, rfl⟩)
  · exact hexVal_hexChar d
  · exact hexVal_lowerCase d hletter

/-! ### Frames (R73 to R75) -/

/-- The bytes that the digits of a frame spell: the length field, the payload and the checksum. -/
def frameFields (p : List Byte) : List Byte := lengthField p :: (p ++ [checksum p])

theorem byteSum_cons (b : Byte) (p : List Byte) : byteSum (b :: p) = b + byteSum p := by
  rw [byteSum, List.foldl_cons, BitVec.add_comm, List.foldl_assoc, byteSum]

/-- The frame's digits after the length field: the payload's, then those of the running sum. -/
theorem frameTail_eq (txSum : Byte) (p : List Byte) :
    frameTail txSum p = (p ++ [txSum + byteSum p]).flatMap hexPair := by
  induction p generalizing txSum with
  | nil => simp [frameTail, byteSum]
  | cons b p ih => simp [frameTail, ih, byteSum_cons, BitVec.add_assoc]

/-- A frame is SOF_BYTE and the digits of its fields. -/
theorem frameBytes_eq (c : Config) (p : List Byte) :
    frameBytes c p = c.sofByte :: (frameFields p).flatMap hexPair := by
  rw [frameBytes, frameTail_eq]
  rfl

/-- Settles O13: the digits of a frame are those of its fields. -/
theorem frameDigitsSpellPayload : Obligations.FrameDigitsSpellPayload := by
  intro c p
  rw [frameBytes_eq]
  exact decodeDigits_flatMap_hexPair (frameFields p)

theorem hexPair_eq (v : Byte) :
    hexPair v = [hexChar (BitVec.ofNat 4 (v.toNat / 16)), hexChar (BitVec.ofNat 4 (v.toNat % 16))] := by
  have hhigh : highNibble v = BitVec.ofNat 4 (v.toNat / 16) := by revert v; decide
  have hlow : lowNibble v = BitVec.ofNat 4 (v.toNat % 16) := by revert v; decide
  rw [hexPair, hhigh, hlow]

theorem flatMap_hexPair_length (bytes : List Byte) : (bytes.flatMap hexPair).length = 2 * bytes.length := by
  induction bytes with
  | nil => rfl
  | cons b bytes ih => simp [hexPair, ih]; omega

/-- The digits of the byte at i stand at 2i and 2i + 1. -/
theorem flatMap_hexPair_getElem? {bytes : List Byte} {i : Nat} {v : Byte} (h : bytes[i]? = some v) :
    (bytes.flatMap hexPair)[2 * i]? = some (hexChar (BitVec.ofNat 4 (v.toNat / 16)))
      ∧ (bytes.flatMap hexPair)[2 * i + 1]? = some (hexChar (BitVec.ofNat 4 (v.toNat % 16))) := by
  induction bytes generalizing i with
  | nil => nomatch h
  | cons b bytes ih =>
    cases i with
    | zero =>
      cases h
      simp [hexPair_eq]
    | succ i => simpa [hexPair, Nat.mul_succ] using ih h

theorem byteSum_toNat (p : List Byte) : (byteSum p).toNat = (p.map BitVec.toNat).sum % 256 := by
  induction p with
  | nil => rfl
  | cons b p ih => simp [byteSum_cons, BitVec.toNat_add, ih]

/-- R75's formula. -/
theorem checksum_toNat (p : List Byte) :
    (checksum p).toNat = (p.length + 1 + (p.map BitVec.toNat).sum) % 256 := by
  simp [checksum, BitVec.toNat_add, byteSum_toNat]

theorem lengthField_toNat {p : List Byte} (hp : p.length ≤ 254) : (lengthField p).toNat = p.length + 1 :=
  Nat.mod_eq_of_lt (by omega)

/-- The digits of field k of a frame stand at 2k + 1 and 2k + 2, after SOF_BYTE. -/
theorem frameBytes_getElem? (c : Config) {p : List Byte} {k : Nat} {v : Byte} (h : (frameFields p)[k]? = some v) :
    (frameBytes c p)[2 * k + 1]? = some (hexChar (BitVec.ofNat 4 (v.toNat / 16)))
      ∧ (frameBytes c p)[2 * k + 1 + 1]? = some (hexChar (BitVec.ofNat 4 (v.toNat % 16))) := by
  rw [frameBytes_eq, List.getElem?_cons_succ, List.getElem?_cons_succ]
  exact flatMap_hexPair_getElem? h

/-- Settles O12: the length field is field 0 of the frame, payload byte i is field i + 1, and the checksum is the last. -/
theorem frameLayout : Obligations.FrameLayout := by
  intro c p hp
  obtain ⟨hlengthHi, hlengthLo⟩ := frameBytes_getElem? c (p := p) (k := 0) (v := lengthField p) rfl
  rw [lengthField_toNat hp] at hlengthHi hlengthLo
  have hchecksum := frameBytes_getElem? c (p := p) (k := p.length + 1) (v := checksum p) (by simp [frameFields])
  rw [checksum_toNat] at hchecksum
  refine ⟨?_, rfl, hlengthHi, hlengthLo, fun i v hv => ?_, ?_⟩
  · rw [frameBytes_eq, List.length_cons, flatMap_hexPair_length]
    simp [frameFields]
    omega
  · have hlt : i < p.length := (List.getElem?_eq_some_iff.mp hv).1
    have hbyte := frameBytes_getElem? c (p := p) (k := i + 1) (v := v)
      (by simpa [frameFields, List.getElem?_append_left hlt] using hv)
    rwa [show 2 * (i + 1) + 1 = 3 + 2 * i by omega, show 3 + 2 * i + 1 = 4 + 2 * i by omega] at hbyte
  · rwa [show 2 * (p.length + 1) + 1 = 3 + 2 * p.length by omega,
      show 3 + 2 * p.length + 1 = 4 + 2 * p.length by omega] at hchecksum

end Sys2Proof.Machine
end

section
/-! PROOFS. CODEC_INIT, SEND and RESEND (R100 to R111): each as the command that answers what its body does. -/

namespace Sys2Proof.Machine

/-! ### CODEC_INIT (R100) -/

theorem exec_codecInit {s : State} (h : configOk s.cfg = true) :
    exec .codecInit s = .next ((initCodec s).respond (.status statusOk)) := by
  show execCodecInit s = _
  exact command_ok h rfl

/-- Settles O23: the unspecified fields are the free values CODEC_INIT draws. -/
theorem codecInitResult : Obligations.CodecInitResult :=
  fun _ h => ⟨_, _, _, _, exec_codecInit h⟩

/-! ### SEND (R102 to R108) -/

/-- An admitted SEND answers the status of its body. -/
theorem exec_send {p : List Byte} {now : Nat} {s t : State} {c : Status} (hadm : admitsCodec s = true)
    (h : sendFrame p now s = .ok (c, t)) : exec (.send p now) s = .next (t.respond (.status c)) := by
  show execSend p now s = _
  exact command_ok hadm (congrArg withStatus h)

theorem sendFrame_oversized {p : List Byte} (now : Nat) {s : State} (h : s.cfg.maxPayload < p.length) :
    sendFrame p now s = .ok (statusPayloadTooLarge, s) := if_pos h

/-- Settles O27: the size check comes first. -/
theorem sendRejectsOversizedPayload : Obligations.SendRejectsOversizedPayload :=
  fun _ _ now hadm hsize => exec_send hadm (sendFrame_oversized now hsize)

/-- Settles O26: every byte accepted, SEND leaves `afterSend`. -/
theorem sendCompletes : Obligations.SendCompletes :=
  fun _ _ _ hadm hhs hbuf hfits haccepts => exec_send hadm (sendFrame_accepts hhs hbuf hfits haccepts)

/-- Where byte number n is b and fails, the bytes before it and its own failure are the events (R107). -/
theorem afterFailed_of_getElem? {bytes : List Byte} {n : Nat} {b : Byte} (s : State) (h : bytes[n]? = some b) :
    afterFailed s bytes n = { s with
      events := s.events ++ acceptedEvents (bytes.take n) ++ [.tx b .fail], answers := s.answers.drop (n + 1) } := by
  have hnext : (bytes.drop n).take 1 = [b] := by rw [List.take_one, List.head?_drop, h, Option.toList_some]
  rw [afterFailed, hnext, List.map_singleton]

/-- Settles O28: the failing byte lies in the preamble, before the handshake mark, or after it. -/
theorem sendStopsAtTransportFailure : Obligations.SendStopsAtTransportFailure := by
  intro s p now n b hadm hhs hfits hbyte hfails
  obtain ⟨hn, -⟩ := List.getElem?_eq_some_iff.mp hbyte
  rw [exec_send hadm (sendFrame_failsAt hhs hfits hn hfails), afterFailed_of_getElem? s hbyte]
  split_ifs with hpreamble
  · rfl
  · rfl

/-! ### RESEND (R110, R111) -/

theorem resendFrame_eq {now : Nat} {s : State} (h : s.link.rtLen.toNat ≤ s.link.rtBuf.length) :
    resendFrame now s = sendFrame (s.link.rtBuf.take s.link.rtLen.toNat) now s := by
  rw [resendFrame, readFirst_ok h, except_ok_bind]

/-- RESEND is the command SEND of the recorded payload (R110). -/
theorem exec_resend {now : Nat} {s : State} (h : s.link.rtLen.toNat ≤ s.link.rtBuf.length) :
    exec (.resend now) s = exec (.send (s.link.rtBuf.take s.link.rtLen.toNat) now) s := by
  show execResend now s = execSend _ now s
  simp only [execResend, execSend, command, resendFrame_eq h]

/-- Recording the recorded payload again leaves S.rt_buf and S.rt_len as they were (R110). -/
theorem sentLink_recorded (c : Config) {l : LinkState} (now : Nat) (h : l.rtLen.toNat ≤ l.rtBuf.length) :
    sentLink c l (l.rtBuf.take l.rtLen.toNat) now = { l with hs := .pending, sentAt := now % 2 ^ c.timeW } := by
  simp [sentLink, Nat.min_eq_left h]

/-- Settles O29: the payload RESEND sends is the one recorded, so the recording changes nothing. -/
theorem resendSendsRecordedPayload : Obligations.ResendSendsRecordedPayload := by
  intro s now hadm hhs hbuf hlen
  have hrecorded : s.link.rtLen.toNat ≤ s.link.rtBuf.length := hbuf ▸ hlen
  have hfits : (s.link.rtBuf.take s.link.rtLen.toNat).length ≤ s.cfg.maxPayload := hbuf ▸ List.length_take_le' _ _
  refine ⟨exec_resend hrecorded, fun haccepts => ?_⟩
  rw [exec_resend hrecorded, exec_send hadm (sendFrame_accepts hhs hbuf hfits haccepts), afterSend,
    sentLink_recorded _ _ hrecorded]
  rfl

/-- A transport that accepts n bytes accepts fewer. -/
theorem Accepts.mono {s : State} {m n : Nat} (h : Accepts s n) (hle : m ≤ n) : Accepts s m := by
  have := congrArg (List.take m) h
  simpa [List.take_take, Nat.min_eq_left hle] using this

theorem sendFrame_of_pending {p : List Byte} {now : Nat} {s : State} (hfits : p.length ≤ s.cfg.maxPayload)
    (hs : s.link.hs = .pending) : sendFrame p now s = transmit p now s := by
  rw [sendFrame, if_neg (Nat.not_lt.mpr hfits), hs]

/-- Where the handshake is resolved, the frame follows an accepted preamble (R103). -/
theorem sendFrame_of_preamble {p : List Byte} {now : Nat} {s u : State} (hfits : p.length ≤ s.cfg.maxPayload)
    (hs : s.link.hs ≠ .unused) (hresolved : s.link.hs ≠ .pending) (hpreamble : emitAll preamble s = (.ok, u)) :
    sendFrame p now s = transmit p now u := by
  rw [sendFrame, if_neg (Nat.not_lt.mpr hfits)]
  split
  next h => exact absurd h hs
  next h => exact absurd h hresolved
  all_goals rw [hpreamble]

/-- `sendFrame_accepts` where S.rt_buf has room for the payload, whatever its size. -/
theorem sendFrame_accepts_of_room {p : List Byte} {now : Nat} {s : State} (hs : s.link.hs ≠ .unused)
    (hroom : p.length ≤ s.link.rtBuf.length) (hfits : p.length ≤ s.cfg.maxPayload)
    (haccepts : Accepts s (sendBytes s p).length) : sendFrame p now s = .ok (statusOk, afterSend s p now) := by
  by_cases hpending : s.link.hs = .pending
  · have hbytes : sendBytes s p = frameBytes s.cfg p := by simp [sendBytes, hpending]
    rw [hbytes] at haccepts
    rw [sendFrame_of_pending hfits hpending, transmit_accepts hroom haccepts, afterSend, hbytes]
  · have hbytes : sendBytes s p = preamble ++ frameBytes s.cfg p := by simp [sendBytes, hpending]
    rw [hbytes] at haccepts
    obtain ⟨hpreamble, hframe⟩ := accepts_append haccepts
    rw [sendFrame_of_preamble hfits hs hpending (emitAll_accepts _ _ hpreamble),
      transmit_accepts (s := afterAccepted s preamble) hroom hframe, afterSend, hbytes, ← afterAccepted_append]
    rfl

theorem frameBytes_nil (c : Config) : frameBytes c [] = [c.sofByte, 0x30#8, 0x31#8, 0x30#8, 0x31#8] := by
  rw [frameBytes_eq]
  rfl

/-- Settles O30: the recorded payload is empty, and its frame takes 5 bytes after at most 2 of preamble. -/
theorem resendWithNothingRecorded : Obligations.ResendWithNothingRecorded := by
  intro s now hadm hhs hlen haccepts
  have hrecorded : s.link.rtLen.toNat ≤ s.link.rtBuf.length := by simp [hlen]
  have hbytes : (sendBytes s []).length ≤ 7 := by
    rw [sendBytes, frameBytes_nil]
    split <;> simp [preamble]
  have hrun : exec (.resend now) s = .next ((afterSend s [] now).respond (.status statusOk)) := by
    rw [exec_resend hrecorded, hlen]
    exact exec_send hadm (sendFrame_accepts_of_room hhs (Nat.zero_le _) (Nat.zero_le _) (haccepts.mono hbytes))
  refine ⟨_, hrun, rfl, rfl, rfl, ?_⟩
  rw [← frameBytes_nil]
  rfl

end Sys2Proof.Machine
end

section
/-! PROOFS. READINESS (R150, R151) and FEED of one byte (R130 to R144): the class of the byte (R79), then what each
class does. -/

namespace Sys2Proof

/-! ### The class of an inbound byte (R79) -/

theorem classify_sofByte (cfg : Config) (reading : Bool) : classify cfg reading cfg.sofByte = .sof := if_pos rfl

theorem classify_ackByte {cfg : Config} (hdistinct : Machine.controlDistinct cfg = true) (reading : Bool) :
    classify cfg reading cfg.ackByte = .ack := by
  obtain ⟨hsofAck, -, -⟩ := (Machine.controlDistinct_iff cfg).mp hdistinct
  simp [classify, hsofAck.symm]

theorem classify_nakByte {cfg : Config} (hdistinct : Machine.controlDistinct cfg = true) (reading : Bool) :
    classify cfg reading cfg.nakByte = .nak := by
  obtain ⟨-, hsofNak, hackNak⟩ := (Machine.controlDistinct_iff cfg).mp hdistinct
  simp [classify, hsofNak.symm, hackNak.symm]

theorem classify_idle {cfg : Config} {b : Byte} (hb : isControl cfg b = false) :
    classify cfg false b = .junkIdle := by
  obtain ⟨hsof, hack, hnak⟩ := (isControl_eq_false_iff cfg b).mp hb
  simp [classify, hsof, hack, hnak]

theorem classify_junkFrame {cfg : Config} {b : Byte} (hb : isControl cfg b = false) (hhex : hexVal b = none) :
    classify cfg true b = .junkFrame := by
  obtain ⟨hsof, hack, hnak⟩ := (isControl_eq_false_iff cfg b).mp hb
  simp [classify, hsof, hack, hnak, hhex]

/-- Mid-frame every hex digit character is a digit, since no control byte is one (R8 (b)). -/
theorem classify_digit {cfg : Config} {b : Byte} {d : Nibble} (hnothex : Machine.controlNotHex cfg = true)
    (hd : hexVal b = some d) : classify cfg true b = .hex d := by
  have hb : isControl cfg b = false := isControl_of_hexVal hnothex (by simp [hd])
  obtain ⟨hsof, hack, hnak⟩ := (isControl_eq_false_iff cfg b).mp hb
  simp [classify, hsof, hack, hnak, hd]

end Sys2Proof

namespace Sys2Proof.Machine

theorem configOk_of_admitsCodec {s : State} (h : admitsCodec s = true) : configOk s.cfg = true := by
  simp only [admitsCodec, Bool.and_eq_true] at h
  exact h.1

theorem controlDistinct_of_admitsCodec {s : State} (h : admitsCodec s = true) : controlDistinct s.cfg = true := by
  obtain ⟨hdistinct, -⟩ := (configOk_iff s.cfg).mp (configOk_of_admitsCodec h)
  exact hdistinct

theorem controlNotHex_of_admitsCodec {s : State} (h : admitsCodec s = true) : controlNotHex s.cfg = true := by
  obtain ⟨-, hnothex, -⟩ := (configOk_iff s.cfg).mp (configOk_of_admitsCodec h)
  exact hnothex

/-! ### READINESS (R150, R151) -/

/-- An admitted READINESS answers and writes nothing. -/
theorem exec_readiness {s : State} {now : Nat} {r : Readiness} (hadm : admitsCodec s = true)
    (h : readiness s.cfg (timeOperand s.cfg now) s.link = .ok r) :
    exec (.readiness now) s = .next (s.respond (.readiness r)) := by
  show execReadiness now s = _
  exact command_ok hadm (by rw [h, except_ok_bind]; rfl)

/-- A pending handshake is busy until TIMEOUT_TICKS have passed, and timed out from then on (R151). -/
theorem readiness_pending {c : Config} {now : Nat} {l : LinkState} (h : l.hs = .pending) :
    readiness c (timeOperand c now) l
      = .ok (if ticksSince c now l.sentAt < c.timeoutTicks then .busy else .timedOut) := by
  rw [readiness, h, ← elapsed_timeOperand]
  split_ifs <;> rfl

/-- Settles O25, by S.hs. -/
theorem readinessResult : Obligations.ReadinessResult := by
  intro s now hadm
  refine ⟨fun hs => ?_, fun hs => ?_, fun hs hbusy => ?_, fun hs hlate => ?_⟩
  · exact exec_readiness hadm (by rw [readiness, hs])
  · exact exec_readiness hadm (by rw [readiness, hs])
  · exact exec_readiness hadm (by rw [readiness_pending hs, if_pos hbusy])
  · exact exec_readiness hadm (by rw [readiness_pending hs, if_neg (Nat.not_lt.mpr hlate)])

/-! ### FEED by the class of its byte (R130) -/

/-- An admitted FEED answers the status of its body. -/
theorem exec_feed {b : Byte} {s t : State} {c : Status} (hadm : admitsCodec s = true)
    (h : feedByte b s = .ok (c, t)) : exec (.feed b) s = .next (t.respond (.status c)) := by
  show feedCommand b s = _
  exact command_ok hadm (congrArg withStatus h)

theorem feedByte_sofByte (s : State) :
    feedByte s.cfg.sofByte s = .ok (statusOk, s.setLink (startFrame s.link)) := by
  rw [feedByte, classify_sofByte]

theorem feedByte_ackByte {s : State} (hadm : admitsCodec s = true) :
    feedByte s.cfg.ackByte s = handshakeByte .acked .outAck s := by
  rw [feedByte, classify_ackByte (controlDistinct_of_admitsCodec hadm)]

theorem feedByte_nakByte {s : State} (hadm : admitsCodec s = true) :
    feedByte s.cfg.nakByte s = handshakeByte .naked .outNak s := by
  rw [feedByte, classify_nakByte (controlDistinct_of_admitsCodec hadm)]

theorem feedByte_junkIdle {b : Byte} {s : State} (hidle : s.link.reading = false) (hb : isControl s.cfg b = false) :
    feedByte b s = .ok (statusJunkByte, s) := by
  rw [feedByte, hidle, classify_idle hb]

theorem feedByte_junkFrame {b : Byte} {s : State} (hreading : s.link.reading = true)
    (hb : isControl s.cfg b = false) (hhex : hexVal b = none) :
    feedByte b s = .ok (statusJunkByte, s.setLink (abandonFrame s.link)) := by
  rw [feedByte, hreading, classify_junkFrame hb hhex]

theorem feedByte_digit {b : Byte} {d : Nibble} {s : State} (hadm : admitsCodec s = true)
    (hreading : s.link.reading = true) (hd : hexVal b = some d) : feedByte b s = takeDigit d s := by
  rw [feedByte, hreading, classify_digit (controlNotHex_of_admitsCodec hadm) hd]

/-- Settles O31: SOF is FEED of SOF_BYTE. -/
theorem feedStartOfFrame : Obligations.FeedStartOfFrame := by
  intro s hadm
  have hfeed := exec_feed hadm (feedByte_sofByte s)
  exact ⟨hfeed, (exec_of_encode_inbound rfl).trans hfeed⟩

/-- Settles O34: JUNK_IDLE is FEED of its byte. -/
theorem feedJunkInIdle : Obligations.FeedJunkInIdle := by
  intro s b hadm hidle hsof hack hnak
  have hb := (isControl_eq_false_iff s.cfg b).mpr ⟨hsof, hack, hnak⟩
  have hfeed := exec_feed hadm (feedByte_junkIdle hidle hb)
  exact ⟨hfeed, (exec_of_encode_inbound rfl).trans hfeed⟩

/-- Settles O35: JUNK_FRAME is FEED of its byte. -/
theorem feedJunkMidFrame : Obligations.FeedJunkMidFrame := by
  intro s b hadm hreading hsof hack hnak hhex
  have hb := (isControl_eq_false_iff s.cfg b).mpr ⟨hsof, hack, hnak⟩
  have hfeed := exec_feed hadm (feedByte_junkFrame hreading hb hhex)
  exact ⟨hfeed, (exec_of_encode_inbound rfl).trans hfeed⟩

/-! ### Handshake bytes (R132 to R134) -/

/-- ACK is FEED of ACK_BYTE, and it answers what the handshake byte does. -/
theorem exec_ack {s t : State} {c : Status} (hadm : admitsCodec s = true)
    (h : handshakeByte .acked .outAck s = .ok (c, t)) : exec .ack s = .next (t.respond (.status c)) :=
  (exec_of_encode_inbound rfl).trans (exec_feed hadm ((feedByte_ackByte hadm).trans h))

/-- NAK is FEED of NAK_BYTE, and it answers what the handshake byte does. -/
theorem exec_nak {s t : State} {c : Status} (hadm : admitsCodec s = true)
    (h : handshakeByte .naked .outNak s = .ok (c, t)) : exec .nak s = .next (t.respond (.status c)) :=
  (exec_of_encode_inbound rfl).trans (exec_feed hadm ((feedByte_nakByte hadm).trans h))

theorem handshakeByte_resolved (r : Handshake) (o : HandshakeOutcome) {s : State}
    (h : s.link.hs = .acked ∨ s.link.hs = .naked) : handshakeByte r o s = .ok (statusOk, s) := by
  rw [handshakeByte]
  obtain hs | hs := h
  all_goals rw [hs]

theorem handshakeByte_unheard (r : Handshake) (o : HandshakeOutcome) {s : State} (hs : s.link.hs = .pending)
    (hlistener : s.link.listener = false) :
    handshakeByte r o s = .ok (statusOk, s.setLink { s.link with hs := r }) := by
  rw [handshakeByte, hs]
  simp only [hlistener, Bool.false_eq_true, if_false]
  rfl

theorem handshakeByte_heard {r : Handshake} {o : HandshakeOutcome} {s t : State} (hs : s.link.hs = .pending)
    (hlistener : s.link.listener = true) (h : handleOutcome o (s.setLink { s.link with hs := r }) = .ok t) :
    handshakeByte r o s = .ok (statusOk, t) := by
  rw [handshakeByte, hs]
  simp only [if_pos hlistener, h, except_ok_bind]
  rfl

/-- HANDLE of a queue that is not empty: the head entry retires or stays, and the listener is dropped (R180). -/
theorem handleOutcome_of_head {s : State} {slot : Slot} (o : HandshakeOutcome) (hne : s.queue.head ≠ s.queue.tail)
    (hslot : s.queue.slots[s.queue.head]? = some slot) :
    handleOutcome o s = .ok (detach (if retires slot o then retireHead slot o s else s)) := by
  have hempty : isEmpty s.queue = false := by simp [isEmpty, hne]
  rw [handleOutcome, hempty, readAt_ok hslot]
  rfl

/-- Settles O32: a handshake byte writes S.hs where it is pending, and nothing where it is resolved. -/
theorem feedHandshakeWithoutListener : Obligations.FeedHandshakeWithoutListener := by
  intro s hadm
  refine ⟨fun hs hlistener => ⟨?_, ?_⟩, fun hs => ⟨?_, ?_⟩, (exec_of_encode_inbound rfl).symm,
    (exec_of_encode_inbound rfl).symm⟩
  · exact exec_ack hadm (handshakeByte_unheard _ _ hs hlistener)
  · exact exec_nak hadm (handshakeByte_unheard _ _ hs hlistener)
  · exact exec_ack hadm (handshakeByte_resolved _ _ hs)
  · exact exec_nak hadm (handshakeByte_resolved _ _ hs)

/-- Settles O33: HANDLE retires the head entry for an ACK_BYTE, or for a NAK_BYTE from the third attempt on. -/
theorem feedHandshakeRunsHandle : Obligations.FeedHandshakeRunsHandle := by
  intro s x hadm hs hlistener hne hx
  refine ⟨?_, fun hspent => ?_, fun hleft => ?_⟩
  · have hretires : retires x .outAck = true := rfl
    have hhandle := handleOutcome_of_head (s := s.setLink { s.link with hs := .acked }) .outAck hne hx
    rw [if_pos hretires] at hhandle
    exact exec_ack hadm (handshakeByte_heard hs hlistener hhandle)
  · have hretires : retires x .outNak = true := by simp [retires, hspent]
    have hhandle := handleOutcome_of_head (s := s.setLink { s.link with hs := .naked }) .outNak hne hx
    rw [if_pos hretires] at hhandle
    exact exec_nak hadm (handshakeByte_heard hs hlistener hhandle)
  · have hstays : ¬retires x .outNak = true := by simp [retires, hleft]
    have hhandle := handleOutcome_of_head (s := s.setLink { s.link with hs := .naked }) .outNak hne hx
    rw [if_neg hstays] at hhandle
    exact exec_nak hadm (handshakeByte_heard hs hlistener hhandle)

/-! ### Hex digits (R137, R138) -/

theorem takeDigit_first (d : Nibble) {s : State} (h : s.link.nibValid = false) :
    takeDigit d s = .ok (statusOk, s.setLink (bufferNibble d s.link)) := by
  simp [takeDigit, h]

/-- The second digit completes the byte v, which is taken with the nibble spent. -/
theorem takeDigit_second {d : Nibble} {v : Byte} {s : State} (h : s.link.nibValid = true)
    (hv : v = (s.link.nibVal.setWidth 8 <<< 4) ||| d.setWidth 8) :
    takeDigit d s = takeByte v (s.setLink { s.link with nibValid := false }) := by
  rw [takeDigit, if_pos h, pairNibbles_eq, hv]

theorem feedByte_second {b : Byte} {d : Nibble} {v : Byte} {s : State} (hadm : admitsCodec s = true)
    (hreading : s.link.reading = true) (hnib : s.link.nibValid = true) (hd : hexVal b = some d)
    (hv : v = (s.link.nibVal.setWidth 8 <<< 4) ||| d.setWidth 8) :
    feedByte b s = takeByte v (s.setLink { s.link with nibValid := false }) :=
  (feedByte_digit hadm hreading hd).trans (takeDigit_second hnib hv)

/-- FEED of the second digit answers what the byte it completes does. -/
theorem exec_feed_second {b : Byte} {d : Nibble} {v : Byte} {s t : State} {c : Status} (hadm : admitsCodec s = true)
    (hreading : s.link.reading = true) (hnib : s.link.nibValid = true) (hd : hexVal b = some d)
    (hv : v = (s.link.nibVal.setWidth 8 <<< 4) ||| d.setWidth 8)
    (h : takeByte v (s.setLink { s.link with nibValid := false }) = .ok (c, t)) :
    exec (.feed b) s = .next (t.respond (.status c)) :=
  exec_feed hadm ((feedByte_second hadm hreading hnib hd hv).trans h)

/-- FEED of the first digit buffers it. -/
theorem exec_feed_first {b : Byte} {d : Nibble} {s : State} (hadm : admitsCodec s = true)
    (hreading : s.link.reading = true) (hnib : s.link.nibValid = false) (hd : hexVal b = some d) :
    exec (.feed b) s = .next ((s.setLink (bufferNibble d s.link)).respond (.status statusOk)) :=
  exec_feed hadm ((feedByte_digit hadm hreading hd).trans (takeDigit_first d hnib))

/-- Settles O36: each hex digit row is encoded by a character of its nibble, so it is FEED of that character. -/
theorem feedFirstDigit : Obligations.FeedFirstDigit := by
  intro s hadm hreading hnib
  refine ⟨fun b d hd => exec_feed_first hadm hreading hnib hd, fun r hr => ?_⟩
  have hrow : ∃ b, encode s.cfg r.1 = some (.inbound b) ∧ hexVal b = some r.2 := by
    fin_cases hr
    all_goals exact ⟨_, rfl, rfl⟩
  obtain ⟨b, hencode, hd⟩ := hrow
  exact (exec_of_encode_inbound hencode).trans (exec_feed_first hadm hreading hnib hd)

/-! ### The length field (R139) -/

theorem takeByte_length {v : Byte} {c : Status} {l : LinkState} {s : State} (hunknown : s.link.frameLen = 0#8)
    (h : takeLength s.cfg v s.link = (c, l)) : takeByte v s = .ok (c, s.setLink l) := by
  rw [takeByte, if_pos hunknown, h]

theorem takeLength_small {v : Byte} (c : Config) (l : LinkState) (h : v.toNat < 2) :
    takeLength c v l = (statusMessageTooSmall, { l with reading := false }) := if_pos h

theorem takeLength_big {c : Config} {v : Byte} (l : LinkState) (hmin : 2 ≤ v.toNat) (hmax : c.maxFrame < v.toNat) :
    takeLength c v l = (statusMessageTooBig, { l with reading := false }) := by
  rw [takeLength, if_neg (Nat.not_lt.mpr hmin), if_pos hmax]

theorem takeLength_fits {c : Config} {v : Byte} (l : LinkState) (hmin : 2 ≤ v.toNat) (hmax : v.toNat ≤ c.maxFrame) :
    takeLength c v l = (statusOk, { l with frameLen := v, rxCount := 0#8, rxSum := l.rxSum + v }) := by
  rw [takeLength, if_neg (Nat.not_lt.mpr hmin), if_neg (Nat.not_lt.mpr hmax)]

/-- A well-formed configuration has room for the smallest frame (R8 (d)). -/
theorem maxFrame_bounds {c : Config} (h : configOk c = true) : 2 ≤ c.maxFrame ∧ c.maxFrame ≤ 255 := by
  obtain ⟨-, -, -, hsizes⟩ := (configOk_iff c).mp h
  obtain ⟨hbounds, -⟩ := (sizesInRange_iff c).mp hsizes
  exact hbounds

/-- Settles O37: the second digit completes a length field, which has three cases. -/
theorem feedLengthField : Obligations.FeedLengthField := by
  intro s b d v hadm hreading hnib hunknown hd hv
  refine ⟨fun hsmall => ?_, fun hbig => ?_, fun hmin hmax => ?_⟩
  · exact exec_feed_second hadm hreading hnib hd hv (takeByte_length hunknown (takeLength_small _ _ hsmall))
  · have hmin : 2 ≤ s.cfg.maxFrame := (maxFrame_bounds (configOk_of_admitsCodec hadm)).1
    exact exec_feed_second hadm hreading hnib hd hv
      (takeByte_length hunknown (takeLength_big _ (hmin.trans hbig.le) hbig))
  · exact exec_feed_second hadm hreading hnib hd hv (takeByte_length hunknown (takeLength_fits _ hmin hmax))

/-! ### The bytes after the length field (R140 to R144) -/

/-- A byte that is not terminal is stored, counted and summed (R140). -/
theorem takeByte_data {s : State} (v : Byte) (hknown : s.link.frameLen ≠ 0#8)
    (hroom : s.link.rxCount.toNat < s.link.rxBuf.length) (hmore : s.link.rxCount + 1#8 ≠ s.link.frameLen) :
    takeByte v s = .ok (statusOk, s.setLink { s.link with
      rxBuf := s.link.rxBuf.set s.link.rxCount.toNat v
      rxCount := s.link.rxCount + 1#8
      rxSum := s.link.rxSum + v }) := by
  rw [takeByte, if_neg hknown, takeData, writeAt_ok v hroom, except_ok_bind]
  exact if_neg hmore

/-- The Link State in which the terminal byte v is compared: stored and counted, the frame over (R141). -/
def endFrame (v : Byte) (l : LinkState) : LinkState :=
  { l with nibValid := false, reading := false, rxBuf := l.rxBuf.set l.rxCount.toNat v, rxCount := l.frameLen }

/-- A terminal byte is compared once the frame is over (R141). -/
theorem takeByte_terminal {s : State} (v : Byte) (hknown : s.link.frameLen ≠ 0#8)
    (hroom : s.link.rxCount.toNat < s.link.rxBuf.length) (hlast : s.link.rxCount + 1#8 = s.link.frameLen)
    (hspent : s.link.nibValid = false) : takeByte v s = takeTerminal v (s.setLink (endFrame v s.link)) := by
  have hended : endFrame v s.link = { s.link with
      rxBuf := s.link.rxBuf.set s.link.rxCount.toNat v, rxCount := s.link.rxCount + 1#8, reading := false } := by
    rw [endFrame, hlast, ← hspent]
  rw [takeByte, if_neg hknown, takeData, writeAt_ok v hroom, except_ok_bind, hended]
  exact if_pos hlast

/-- FEED of the second digit of the terminal byte v answers what its comparison does. -/
theorem exec_feed_terminal {b : Byte} {d : Nibble} {v : Byte} {s t : State} {c : Status} (hadm : admitsCodec s = true)
    (hreading : s.link.reading = true) (hnib : s.link.nibValid = true) (hknown : s.link.frameLen ≠ 0#8)
    (hd : hexVal b = some d) (hv : v = (s.link.nibVal.setWidth 8 <<< 4) ||| d.setWidth 8)
    (hroom : s.link.rxCount.toNat < s.link.rxBuf.length) (hlast : s.link.rxCount + 1#8 = s.link.frameLen)
    (h : takeTerminal v (s.setLink (endFrame v s.link)) = .ok (c, t)) :
    exec (.feed b) s = .next (t.respond (.status c)) :=
  exec_feed_second hadm hreading hnib hd hv
    ((takeByte_terminal (s := s.setLink { s.link with nibValid := false }) v hknown hroom hlast rfl).trans h)

/-- Equal to the sum, and the reply accepted: the payload is delivered, and the consumer's status is the answer (R142,
R144). -/
theorem takeTerminal_delivers {v : Byte} {s : State} {st : Status} {answers : List Answer} {statuses : List Status}
    (hsum : v = s.link.rxSum) (hfits : s.link.frameLen.toNat - 1 ≤ s.link.rxBuf.length)
    (hanswers : s.answers = .ok :: answers) (hstatuses : s.statuses = st :: statuses) :
    takeTerminal v s = .ok (st, { s with
      answers := answers
      statuses := statuses
      events := s.events
        ++ [.tx s.cfg.ackByte .ok, .deliver (s.link.rxBuf.take (s.link.frameLen.toNat - 1)) st] }) := by
  rw [takeTerminal, if_pos hsum, emit_cons hanswers]
  simp only [readFirst_ok hfits, except_ok_bind, deliver, drawStatus, hstatuses]
  simp [State.record, pure, Except.pure]

/-- Unequal to the sum, and the reply accepted: BAD_CHECKSUM (R142, R203). -/
theorem takeTerminal_rejects {v : Byte} {s : State} {answers : List Answer} (hsum : v ≠ s.link.rxSum)
    (hanswers : s.answers = .ok :: answers) :
    takeTerminal v s = .ok (statusBadChecksum, { s with
      answers := answers, events := s.events ++ [.tx s.cfg.nakByte .ok] }) := by
  rw [takeTerminal, if_neg hsum, emit_cons hanswers]

/-- The reply failed: TRANSPORT_ERROR, whichever reply it was (R143). -/
theorem takeTerminal_fails {v : Byte} {s : State} {answers : List Answer} (hanswers : s.answers = .fail :: answers) :
    takeTerminal v s = .ok (statusTransportError, { s with
      answers := answers
      events := s.events ++ [.tx (if v = s.link.rxSum then s.cfg.ackByte else s.cfg.nakByte) .fail] }) := by
  rw [takeTerminal, emit_cons hanswers, emit_cons hanswers]
  split_ifs <;> rfl

/-- Settles O38: the nibble is spent, and the byte is taken. -/
theorem feedDataByte : Obligations.FeedDataByte := by
  intro s b d v hadm hreading hnib hknown hd hv hroom hmore
  exact exec_feed_second hadm hreading hnib hd hv
    (takeByte_data (s := s.setLink { s.link with nibValid := false }) v hknown hroom hmore)

/-- Settles O39: the terminal byte is stored behind the payload that is delivered. -/
theorem feedGoodChecksumDelivers : Obligations.FeedGoodChecksumDelivers := by
  intro s b d v st answers statuses hadm hreading hnib hknown hd hv hroom hlast hsum hanswers hstatuses
  have hcount : s.link.frameLen.toNat - 1 = s.link.rxCount.toNat := by bv_omega
  have hpayload : (endFrame v s.link).rxBuf.take (s.link.frameLen.toNat - 1)
      = s.link.rxBuf.take (s.link.frameLen.toNat - 1) := List.take_set_of_le hcount.le
  have hfits : s.link.frameLen.toNat - 1 ≤ (endFrame v s.link).rxBuf.length := by
    rw [hcount, endFrame, List.length_set]
    exact hroom.le
  rw [← hpayload]
  exact exec_feed_terminal hadm hreading hnib hknown hd hv hroom hlast
    (takeTerminal_delivers hsum hfits hanswers hstatuses)

/-- Settles O40: NAK_BYTE is the one event. -/
theorem feedBadChecksumRejects : Obligations.FeedBadChecksumRejects := by
  intro s b d v answers hadm hreading hnib hknown hd hv hroom hlast hsum hanswers
  exact exec_feed_terminal hadm hreading hnib hknown hd hv hroom hlast (takeTerminal_rejects hsum hanswers)

/-- Settles O41: the frame is over before the reply is offered. -/
theorem feedReplyFailure : Obligations.FeedReplyFailure := by
  intro s b d v answers hadm hreading hnib hknown hd hv hroom hlast hanswers
  exact exec_feed_terminal hadm hreading hnib hknown hd hv hroom hlast (takeTerminal_fails hanswers)

end Sys2Proof.Machine
end

section
/-! PROOFS. Whole frames (R145 to R147): the digits of a frame one by one, and the three claims about its delivery. -/

namespace Sys2Proof.Machine

/-! ### Strings of hex digits (R72) -/

theorem decodeDigits_eq_nil {chars : List Byte} (h : decodeDigits chars = some []) : chars = [] := by
  unfold decodeDigits at h
  split at h
  next => rfl
  next => cases h
  next => split at h <;> cases h

/-- The first byte that a string spells is that of its first two characters. -/
theorem decodeDigits_eq_cons {chars bytes : List Byte} {v : Byte} (h : decodeDigits chars = some (v :: bytes)) :
    ∃ c d rest hi lo, chars = c :: d :: rest ∧ hexVal c = some hi ∧ hexVal d = some lo ∧ pairNibbles hi lo = v
      ∧ decodeDigits rest = some bytes := by
  unfold decodeDigits at h
  split at h
  next => cases h
  next => cases h
  next c d rest =>
    split at h
    next hi lo bytes' hc hd hrest => cases h; exact ⟨c, d, rest, hi, lo, rfl, hc, hd, rfl, hrest⟩
    next => cases h

/-- The last byte that a string spells is that of its last two characters. -/
theorem decodeDigits_eq_concat {chars bytes : List Byte} {v : Byte} (h : decodeDigits chars = some (bytes ++ [v])) :
    ∃ body c d hi lo, chars = body ++ [c, d] ∧ decodeDigits body = some bytes ∧ hexVal c = some hi
      ∧ hexVal d = some lo ∧ pairNibbles hi lo = v := by
  induction bytes generalizing chars with
  | nil =>
    obtain ⟨c, d, rest, hi, lo, rfl, hc, hd, hv, hrest⟩ := decodeDigits_eq_cons h
    obtain rfl := decodeDigits_eq_nil hrest
    exact ⟨[], c, d, hi, lo, rfl, rfl, hc, hd, hv⟩
  | cons w bytes ih =>
    obtain ⟨c', d', rest, hi', lo', rfl, hc', hd', rfl, hrest⟩ := decodeDigits_eq_cons h
    obtain ⟨body, c, d, hi, lo, rfl, hbody, hc, hd, hv⟩ := ih hrest
    exact ⟨c' :: d' :: body, c, d, hi, lo, rfl, by simp [decodeDigits, hc', hd', hbody], hc, hd, hv⟩

/-! ### Runs of FEED that give no event -/

theorem execAll_cons_next {i : Instr} {is : List Instr} {s t : State} (h : exec i s = .next t) :
    execAll (i :: is) s = execAll is t := by
  simp only [execAll, h]

theorem execAll_append_next {is js : List Instr} {s t : State} (h : execAll is s = .next t) :
    execAll (is ++ js) s = execAll js t := by
  induction is generalizing s with
  | nil => cases h; rfl
  | cons i is ih =>
    cases hi : exec i s with
    | next u =>
      rw [execAll_cons_next hi] at h
      rw [List.cons_append, execAll_cons_next hi, ih h]
    | fault | refused => simp [execAll, hi] at h

/-- FEED of the bytes leads from s to t; of what the end of a frame depends on or may write, nothing is touched on the
way but the receive fields and the responses. -/
structure QuietRun (s : State) (bytes : List Byte) (t : State) : Prop where
  run : execAll (bytes.map .feed) s = .next t
  cfg : t.cfg = s.cfg
  codecInit : t.codecInit = s.codecInit
  hs : t.link.hs = s.link.hs
  listener : t.link.listener = s.link.listener
  size : t.link.rxBuf.length = s.link.rxBuf.length
  queue : t.queue = s.queue
  events : t.events = s.events
  responses : s.responses <+: t.responses
  answers : t.answers = s.answers
  statuses : t.statuses = s.statuses

theorem QuietRun.refl (s : State) : QuietRun s [] s :=
  ⟨rfl, rfl, rfl, rfl, rfl, rfl, rfl, rfl, ⟨[], List.append_nil _⟩, rfl, rfl⟩

theorem QuietRun.trans {s t u : State} {xs ys : List Byte} (h : QuietRun s xs t) (h' : QuietRun t ys u) :
    QuietRun s (xs ++ ys) u where
  run := by rw [List.map_append, execAll_append_next h.run, h'.run]
  cfg := h'.cfg.trans h.cfg
  codecInit := h'.codecInit.trans h.codecInit
  hs := h'.hs.trans h.hs
  listener := h'.listener.trans h.listener
  size := h'.size.trans h.size
  queue := h'.queue.trans h.queue
  events := h'.events.trans h.events
  responses := h.responses.trans h'.responses
  answers := h'.answers.trans h.answers
  statuses := h'.statuses.trans h.statuses

theorem QuietRun.admitsCodec {s t : State} {bytes : List Byte} (h : QuietRun s bytes t)
    (hadm : Machine.admitsCodec s = true) : Machine.admitsCodec t = true := by
  rwa [Machine.admitsCodec, h.cfg, h.codecInit]

/-- A byte that writes the Link State alone is a quiet run, where it keeps the handshake and the listener. -/
theorem QuietRun.single {b : Byte} {s : State} {l : LinkState} {c : Status} (hadm : Machine.admitsCodec s = true)
    (h : feedByte b s = .ok (c, s.setLink l)) (hhs : l.hs = s.link.hs) (hlistener : l.listener = s.link.listener)
    (hsize : l.rxBuf.length = s.link.rxBuf.length) :
    QuietRun s [b] ((s.setLink l).respond (.status c)) where
  run := execAll_cons_next (exec_feed hadm h)
  cfg := rfl
  codecInit := rfl
  hs := hhs
  listener := hlistener
  size := hsize
  queue := rfl
  events := rfl
  responses := ⟨_, rfl⟩
  answers := rfl
  statuses := rfl

/-! ### The digits of a frame (R137 to R140) -/

/-- Mid-frame: the pending digit, the length field (0 before it is known), and the data bytes taken so far with their
sum (R25, R36). -/
structure Receiving (nibble : Option Nibble) (len : Byte) (got : List Byte) (s : State) : Prop where
  reading : s.link.reading = true
  nibValid : s.link.nibValid = nibble.isSome
  nibVal : ∀ d ∈ nibble, s.link.nibVal = d
  frameLen : s.link.frameLen = len
  rxCount : s.link.rxCount.toNat = got.length
  rxSum : s.link.rxSum = len + byteSum got
  rxBuf : s.link.rxBuf.take got.length = got

/-- The byte that a second digit completes, in the form of R138. -/
theorem Receiving.pairNibbles_eq {hi lo : Nibble} {len : Byte} {got : List Byte} {s : State}
    (h : Receiving (some hi) len got s) :
    pairNibbles hi lo = (s.link.nibVal.setWidth 8 <<< 4) ||| lo.setWidth 8 := by
  rw [h.nibVal hi rfl, Sys2Proof.pairNibbles_eq]

theorem quietRun_sofByte {s : State} (hadm : admitsCodec s = true) :
    ∃ t, QuietRun s [s.cfg.sofByte] t ∧ Receiving none 0#8 [] t :=
  ⟨_, .single hadm (feedByte_sofByte s) rfl rfl rfl, rfl, rfl, nofun, rfl, rfl, rfl, rfl⟩

theorem quietRun_firstDigit {c : Byte} {hi : Nibble} {len : Byte} {got : List Byte} {s : State}
    (hadm : admitsCodec s = true) (h : Receiving none len got s) (hc : hexVal c = some hi) :
    ∃ t, QuietRun s [c] t ∧ Receiving (some hi) len got t := by
  have hfeed := (feedByte_digit hadm h.reading hc).trans (takeDigit_first hi h.nibValid)
  exact ⟨_, .single hadm hfeed rfl rfl rfl,
    { h with nibValid := rfl, nibVal := fun d hd => Option.some.inj hd }⟩

theorem quietRun_lengthField {d : Byte} {hi lo : Nibble} {s : State} (hadm : admitsCodec s = true)
    (h : Receiving (some hi) 0#8 [] s) (hd : hexVal d = some lo) (hmin : 2 ≤ (pairNibbles hi lo).toNat)
    (hmax : (pairNibbles hi lo).toNat ≤ s.cfg.maxFrame) :
    ∃ t, QuietRun s [d] t ∧ Receiving none (pairNibbles hi lo) [] t := by
  have hfeed := (feedByte_second hadm h.reading h.nibValid hd h.pairNibbles_eq).trans
    (takeByte_length h.frameLen (takeLength_fits _ hmin hmax))
  refine ⟨_, .single hadm hfeed rfl rfl rfl, h.reading, rfl, nofun, rfl, rfl, ?_, rfl⟩
  show s.link.rxSum + _ = _ + byteSum []
  rw [h.rxSum]
  simp [byteSum]

theorem quietRun_dataByte {d : Byte} {hi lo : Nibble} {len : Byte} {got : List Byte} {s : State}
    (hadm : admitsCodec s = true) (h : Receiving (some hi) len got s) (hd : hexVal d = some lo)
    (hmore : got.length + 1 < len.toNat) (hroom : len.toNat ≤ s.link.rxBuf.length) :
    ∃ t, QuietRun s [d] t ∧ Receiving none len (got ++ [pairNibbles hi lo]) t := by
  have hv := h.pairNibbles_eq (lo := lo)
  obtain ⟨hreading, hnibValid, -, rfl, hcount, hsum, hbuf⟩ := h
  have hindex : s.link.rxCount.toNat < s.link.rxBuf.length := by omega
  have hsucc : (s.link.rxCount + 1#8).toNat = s.link.rxCount.toNat + 1 :=
    rxCount_succ_toNat (len := s.link.frameLen) (by omega)
  have hknown : s.link.frameLen ≠ 0#8 := by bv_omega
  have hnotlast : s.link.rxCount + 1#8 ≠ s.link.frameLen := fun hlast => by rw [hlast] at hsucc; omega
  have hfeed := (feedByte_second hadm hreading hnibValid hd hv).trans
    (takeByte_data (s := s.setLink { s.link with nibValid := false }) _ hknown hindex hnotlast)
  refine ⟨_, .single hadm hfeed rfl rfl (List.length_set ..), hreading, rfl, nofun, rfl, ?_, ?_, ?_⟩
  · simpa [hcount] using hsucc
  · show s.link.rxSum + _ = _
    rw [hsum, byteSum_concat, BitVec.add_assoc]
  · show (s.link.rxBuf.set s.link.rxCount.toNat _).take _ = _
    rw [List.length_append, List.length_singleton, List.take_add_one, ← hcount, List.take_set_of_le (Nat.le_refl _),
      List.getElem?_set_self hindex, hcount, hbuf, Option.toList_some]

/-- The data bytes before the terminal one are taken one after the other. -/
theorem quietRun_dataBytes {chars bytes : List Byte} {len : Byte} {got : List Byte} {s : State}
    (hadm : admitsCodec s = true) (h : Receiving none len got s) (hdec : decodeDigits chars = some bytes)
    (hmore : got.length + bytes.length < len.toNat) (hroom : len.toNat ≤ s.link.rxBuf.length) :
    ∃ t, QuietRun s chars t ∧ Receiving none len (got ++ bytes) t := by
  induction bytes generalizing chars got s with
  | nil =>
    obtain rfl := decodeDigits_eq_nil hdec
    exact ⟨s, .refl s, by rwa [List.append_nil]⟩
  | cons v bytes ih =>
    obtain ⟨c, d, rest, hi, lo, rfl, hc, hd, rfl, hrest⟩ := decodeDigits_eq_cons hdec
    rw [List.length_cons] at hmore
    obtain ⟨t, hst, ht⟩ := quietRun_firstDigit hadm h hc
    obtain ⟨u, htu, hu⟩ := quietRun_dataByte (hst.admitsCodec hadm) ht hd (by omega) (by rwa [hst.size])
    have hsu := hst.trans htu
    obtain ⟨w, huw, hw⟩ := ih (hsu.admitsCodec hadm) hu hrest
      (by rw [List.length_append, List.length_singleton]; omega) (by rwa [hsu.size])
    exact ⟨w, hsu.trans huw, by simpa using hw⟩

/-- A frame up to its last character: everything is taken but the second digit of the terminal byte. -/
theorem quietRun_untilLast {body bytes : List Byte} {c : Byte} {hi : Nibble} {len : Byte} {s : State}
    (hadm : admitsCodec s = true) (hsize : s.link.rxBuf.length = s.cfg.maxFrame) (hbytes : 1 ≤ bytes.length)
    (hlen : len.toNat = bytes.length + 1) (hmax : len.toNat ≤ s.cfg.maxFrame)
    (hdec : decodeDigits body = some (len :: bytes)) (hc : hexVal c = some hi) :
    ∃ u, QuietRun s (s.cfg.sofByte :: (body ++ [c])) u ∧ Receiving (some hi) len bytes u := by
  obtain ⟨c', d', rest, hi', lo', rfl, hc', hd', rfl, hrest⟩ := decodeDigits_eq_cons hdec
  obtain ⟨s₁, hrun, h₁⟩ := quietRun_sofByte hadm
  obtain ⟨s₂, hnext, h₂⟩ := quietRun_firstDigit (hrun.admitsCodec hadm) h₁ hc'
  replace hrun := hrun.trans hnext
  obtain ⟨s₃, hnext, h₃⟩ := quietRun_lengthField (hrun.admitsCodec hadm) h₂ hd' (by omega) (by rwa [hrun.cfg])
  replace hrun := hrun.trans hnext
  obtain ⟨s₄, hnext, h₄⟩ := quietRun_dataBytes (hrun.admitsCodec hadm) h₃ hrest (by simp [hlen])
    (by rwa [hrun.size, hsize])
  replace hrun := hrun.trans hnext
  obtain ⟨u, hnext, hu⟩ := quietRun_firstDigit (hrun.admitsCodec hadm) h₄ hc
  exact ⟨u, hrun.trans hnext, hu⟩

/-! ### The terminal byte (R141) -/

/-- Before the last digit of a frame the terminal byte is the next one, and it has its place in S.rx_buf. -/
theorem Receiving.terminal {nibble : Option Nibble} {len : Byte} {bytes : List Byte} {u : State}
    (h : Receiving nibble len bytes u) (hlen : len.toNat = bytes.length + 1) (hroom : len.toNat ≤ u.link.rxBuf.length) :
    u.link.frameLen ≠ 0#8 ∧ u.link.rxCount.toNat < u.link.rxBuf.length ∧ u.link.rxCount + 1#8 = u.link.frameLen := by
  obtain ⟨-, -, -, rfl, hcount, -, -⟩ := h
  have hsucc : (u.link.rxCount + 1#8).toNat = u.link.rxCount.toNat + 1 :=
    rxCount_succ_toNat (len := u.link.frameLen) (by omega)
  exact ⟨by bv_omega, by omega, BitVec.eq_of_toNat_eq (by omega)⟩

/-- The last digit of a frame whose terminal byte is the sum: ACK_BYTE, and the data bytes are delivered. -/
theorem exec_feed_last_good {d : Byte} {hi lo : Nibble} {len : Byte} {bytes : List Byte} {u : State} {st : Status}
    {answers : List Answer} {statuses : List Status} (hadm : admitsCodec u = true)
    (h : Receiving (some hi) len bytes u) (hlen : len.toNat = bytes.length + 1)
    (hroom : len.toNat ≤ u.link.rxBuf.length) (hd : hexVal d = some lo) (hsum : pairNibbles hi lo = len + byteSum bytes)
    (hanswers : u.answers = .ok :: answers) (hstatuses : u.statuses = st :: statuses) :
    ∃ t, exec (.feed d) u = .next t
      ∧ t.events = u.events ++ ([.tx u.cfg.ackByte .ok, .deliver bytes st] : List Event)
      ∧ t.responses = u.responses ++ ([.status st] : List Response) ∧ t.link.reading = false ∧ t.link.hs = u.link.hs
      ∧ t.link.listener = u.link.listener ∧ t.queue = u.queue := by
  obtain ⟨hknown, hindex, hlast⟩ := h.terminal hlen hroom
  have hpayload : u.link.rxBuf.take (u.link.frameLen.toNat - 1) = bytes := by
    rw [h.frameLen, hlen, Nat.add_sub_cancel, h.rxBuf]
  have hexec := feedGoodChecksumDelivers u d lo _ st answers statuses hadm h.reading h.nibValid hknown hd
    h.pairNibbles_eq hindex hlast (hsum.trans h.rxSum.symm) hanswers hstatuses
  rw [hpayload] at hexec
  exact ⟨_, hexec, rfl, rfl, rfl, rfl, rfl, rfl⟩

/-- The last digit of a frame whose terminal byte is not the sum: NAK_BYTE, and nothing is delivered. -/
theorem exec_feed_last_bad {d : Byte} {hi lo : Nibble} {len : Byte} {bytes : List Byte} {u : State}
    {answers : List Answer} (hadm : admitsCodec u = true) (h : Receiving (some hi) len bytes u)
    (hlen : len.toNat = bytes.length + 1) (hroom : len.toNat ≤ u.link.rxBuf.length) (hd : hexVal d = some lo)
    (hsum : pairNibbles hi lo ≠ len + byteSum bytes) (hanswers : u.answers = .ok :: answers) :
    ∃ t, exec (.feed d) u = .next t ∧ t.events = u.events ++ ([.tx u.cfg.nakByte .ok] : List Event)
      ∧ t.responses = u.responses ++ ([.status statusBadChecksum] : List Response) := by
  obtain ⟨hknown, hindex, hlast⟩ := h.terminal hlen hroom
  exact ⟨_, feedBadChecksumRejects u d lo _ answers hadm h.reading h.nibValid hknown hd h.pairNibbles_eq hindex hlast
    (h.rxSum ▸ hsum) hanswers, rfl, rfl⟩

/-! ### Resynchronisation (R145) -/

/-- R8 (c). -/
theorem not_mem_preamble_of_handshakeNotPreamble {c : Config} (h : handshakeNotPreamble c = true) :
    c.ackByte ∉ preamble ∧ c.nakByte ∉ preamble := by
  simpa [handshakeNotPreamble, preamble, and_assoc] using h

/-- A byte of the preamble is SOF_BYTE or junk, in every phase (R8 (b), (c)). -/
theorem quietRun_preambleByte {b : Byte} {s : State} (hadm : admitsCodec s = true) (hb : b ∈ preamble) :
    ∃ t, QuietRun s [b] t := by
  obtain ⟨-, -, hpre, -⟩ := (configOk_iff s.cfg).mp (configOk_of_admitsCodec hadm)
  by_cases hsof : b = s.cfg.sofByte
  · subst hsof
    exact ⟨_, .single hadm (feedByte_sofByte s) rfl rfl rfl⟩
  obtain ⟨hack, hnak⟩ := not_mem_preamble_of_handshakeNotPreamble hpre
  have hcontrol : isControl s.cfg b = false :=
    (isControl_eq_false_iff s.cfg b).mpr ⟨hsof, ne_of_mem_of_not_mem hb hack, ne_of_mem_of_not_mem hb hnak⟩
  cases hreading : s.link.reading with
  | false => exact ⟨_, .single (l := s.link) hadm (feedByte_junkIdle hreading hcontrol) rfl rfl rfl⟩
  | true =>
    have hhex : ∀ b ∈ preamble, hexVal b = none := by decide
    exact ⟨_, .single hadm (feedByte_junkFrame hreading hcontrol (hhex b hb)) rfl rfl rfl⟩

theorem quietRun_front {front : List Byte} {s : State} (hadm : admitsCodec s = true)
    (hfront : front = [] ∨ front = preamble) : ∃ t, QuietRun s front t := by
  obtain rfl | rfl := hfront
  · exact ⟨s, .refl s⟩
  · obtain ⟨t, hst⟩ := quietRun_preambleByte (b := crByte) hadm (by decide)
    obtain ⟨u, htu⟩ := quietRun_preambleByte (b := lfByte) (hst.admitsCodec hadm) (by decide)
    exact ⟨u, hst.trans htu⟩

/-- The length field of a payload that fits names its frame's bytes and fits in S.rx_buf (R74). -/
theorem lengthField_fits {c : Config} {p : List Byte} (hconfig : configOk c = true) (hp : p.length ≤ c.maxPayload) :
    (lengthField p).toNat = p.length + 1 ∧ (lengthField p).toNat ≤ c.maxFrame := by
  obtain ⟨hmin, hmax⟩ := maxFrame_bounds hconfig
  unfold Config.maxPayload at hp
  have hlen : (lengthField p).toNat = p.length + 1 := lengthField_toNat (by omega)
  exact ⟨hlen, by omega⟩

/-- Settles O54: the preamble and the frame up to its last character run quietly, and the last character is that of the
checksum. -/
theorem frameResynchronizes : Obligations.FrameResynchronizes := by
  intro s p most front last st answers statuses hadm hsize hp hfits hfront hdec hanswers hstatuses
  obtain ⟨hlen, hmax⟩ := lengthField_fits (configOk_of_admitsCodec hadm) hfits
  obtain ⟨body, c, d, hi, lo, hchars, hbody, hc, hd, hsum⟩ := decodeDigits_eq_concat (bytes := lengthField p :: p) hdec
  obtain ⟨rfl, hdlast⟩ := List.append_inj' (hchars.trans (List.append_assoc body [c] [d]).symm) rfl
  obtain rfl := List.singleton_inj.mp hdlast
  obtain ⟨r, hsr⟩ := quietRun_front hadm hfront
  obtain ⟨u, hru, hu⟩ := quietRun_untilLast (hsr.admitsCodec hadm) (by rw [hsr.size, hsr.cfg, hsize]) hp hlen
    (by rwa [hsr.cfg]) hbody hc
  rw [hsr.cfg] at hru
  have hsu := hsr.trans hru
  obtain ⟨t, hexec, hevents, hresponses, hreading, hhs, hlistener, hqueue⟩ :=
    exec_feed_last_good (hsu.admitsCodec hadm) hu hlen (by rwa [hsu.size, hsize]) hd hsum (hsu.answers.trans hanswers)
      (hsu.statuses.trans hstatuses)
  refine ⟨u, t, hsu.run, hsu.events, hexec, ?_, ?_, hresponses, hreading, hhs.trans hsu.hs,
    hlistener.trans hsu.listener, hqueue.trans hsu.queue⟩
  · rw [← List.cons_append, ← List.append_assoc, List.map_append, execAll_append_next hsu.run]
    exact execAll_cons_next hexec
  · rw [hevents, hsu.events, hsu.cfg]

/-! ### One changed byte (R146) -/

/-- Changing one byte changes the sum. -/
theorem byteSum_set_ne {p : List Byte} {i : Nat} {v w : Byte} (hv : p[i]? = some v) (hw : w ≠ v) :
    byteSum (p.set i w) ≠ byteSum p := by
  induction p generalizing i with
  | nil => nomatch hv
  | cons b p ih =>
    cases i with
    | zero =>
      cases hv
      simpa [byteSum_cons] using hw
    | succ i => simpa [byteSum_cons] using ih hv

/-- Settles O55: the terminal byte is not the sum of what came before it. -/
theorem oneChangedByteIsDetected : Obligations.OneChangedByteIsDetected := by
  intro s p p' chars c answers hadm hsize hp hfits hchanged hdec hanswers
  obtain ⟨hlen, hmax⟩ := lengthField_fits (configOk_of_admitsCodec hadm) hfits
  have hwrong : p'.length = p.length ∧ c ≠ lengthField p + byteSum p' := by
    obtain ⟨i, v, w, hv, hw, rfl, rfl⟩ | ⟨rfl, hc⟩ := hchanged
    · exact ⟨List.length_set .., fun hsum => byteSum_set_ne hv hw ((BitVec.add_right_inj _).mp hsum).symm⟩
    · exact ⟨rfl, hc⟩
  obtain ⟨hlength, hwrong⟩ := hwrong
  rw [← hlength] at hlen hp
  obtain ⟨body, c', d, hi, lo, rfl, hbody, hc, hd, rfl⟩ := decodeDigits_eq_concat (bytes := lengthField p :: p') hdec
  obtain ⟨u, hsu, hu⟩ := quietRun_untilLast hadm hsize hp hlen hmax hbody hc
  obtain ⟨t, hexec, hevents, hresponses⟩ := exec_feed_last_bad (hsu.admitsCodec hadm) hu hlen
    (by rwa [hsu.size, hsize]) hd hwrong (hsu.answers.trans hanswers)
  refine ⟨t, ?_, ?_, ?_⟩
  · have hsplit : s.cfg.sofByte :: (body ++ [c', d]) = (s.cfg.sofByte :: (body ++ [c'])) ++ [d] := by simp
    rw [hsplit, List.map_append, execAll_append_next hsu.run]
    exact execAll_cons_next hexec
  · rw [hevents, hsu.events, hsu.cfg]
  · rw [hresponses, List.getLast?_concat]

/-! ### Round trip (R147) -/

/-- WIRE feeds what was accepted since its last use (R89). -/
theorem wire_acceptedEvents (before : List Event) (bytes : List Byte) :
    wire before.length (before ++ acceptedEvents bytes) = bytes.map .feed := by
  have haccepted : acceptedBytes (acceptedEvents bytes) = bytes := by
    induction bytes with
    | nil => rfl
    | cons b bytes ih => exact congrArg (b :: ·) ih
  rw [wire, List.drop_left, haccepted]

theorem afterSend_events (s : State) (p : List Byte) (now : Nat) :
    (afterSend s p now).events = s.events ++ acceptedEvents (sendBytes s p) := rfl

/-- What a SEND puts on the wire is a preamble or nothing, and then the frame. -/
theorem sendBytes_eq (s : State) (p : List Byte) :
    ∃ front, (front = [] ∨ front = preamble) ∧ sendBytes s p = front ++ frameBytes s.cfg p := by
  unfold sendBytes
  split_ifs
  · exact ⟨[], .inl rfl, rfl⟩
  · exact ⟨preamble, .inr rfl, rfl⟩

/-- In IDLE every byte but a control byte is junk, one after the other (R135). -/
theorem execAll_junkIdle {bytes : List Byte} {s : State} (hadm : admitsCodec s = true) (hidle : s.link.reading = false)
    (hbytes : ∀ b ∈ bytes, isControl s.cfg b = false) :
    execAll (bytes.map .feed) s = .next { s with
      responses := s.responses ++ List.replicate bytes.length (.status statusJunkByte) } := by
  induction bytes generalizing s with
  | nil => simp [execAll]
  | cons b bytes ih =>
    obtain ⟨hb, hrest⟩ := List.forall_mem_cons.mp hbytes
    rw [List.map_cons, execAll_cons_next (exec_feed hadm (feedByte_junkIdle hidle hb)),
      ih (s := s.respond (.status statusJunkByte)) hadm hidle hrest]
    simp [State.respond, List.replicate_succ]

/-- A frame whose length field is 1 is aborted there (R139). -/
theorem execAll_lengthOne {s : State} (hadm : admitsCodec s = true) :
    execAll ([s.cfg.sofByte, 0x30#8, 0x31#8].map .feed) s = .next { s with
      link := { startFrame s.link with reading := false, nibVal := 0#4 }
      responses := s.responses ++ [.status statusOk, .status statusOk, .status statusMessageTooSmall] } := by
  refine Eq.trans (execAll_cons_next (exec_feed hadm (feedByte_sofByte s))) ?_
  refine Eq.trans (execAll_cons_next (exec_feed_first hadm rfl rfl (show hexVal 0x30#8 = some 0#4 from rfl))) ?_
  refine Eq.trans (execAll_cons_next (exec_feed_second hadm rfl rfl (show hexVal 0x31#8 = some 1#4 from rfl)
    (pairNibbles_eq 0#4 1#4) (takeByte_length rfl (takeLength_small _ _ (by decide))))) ?_
  simp [execAll, State.respond, State.setLink, startFrame, bufferNibble]

/-- The frame of the empty payload: its length field is too small, and its checksum is junk in IDLE. -/
theorem execAll_emptyFrame {s : State} (hadm : admitsCodec s = true) :
    execAll ((frameBytes s.cfg []).map .feed) s = .next { s with
      link := { startFrame s.link with reading := false, nibVal := 0#4 }
      responses := s.responses ++ [.status statusOk, .status statusOk, .status statusMessageTooSmall,
        .status statusJunkByte, .status statusJunkByte] } := by
  have hdigits : ∀ b ∈ [0x30#8, 0x31#8], (hexVal b).isNone = false := by decide
  have hsplit : frameBytes s.cfg [] = [s.cfg.sofByte, 0x30#8, 0x31#8] ++ [0x30#8, 0x31#8] := frameBytes_nil s.cfg
  have hjunk : ∀ b ∈ [0x30#8, 0x31#8], isControl s.cfg b = false :=
    fun b hb => isControl_of_hexVal (controlNotHex_of_admitsCodec hadm) (hdigits b hb)
  rw [hsplit, List.map_append, execAll_append_next (execAll_lengthOne hadm)]
  refine Eq.trans (execAll_junkIdle hadm rfl hjunk) ?_
  simp [List.replicate_succ]

/-- A frame of a payload that fits, fed with or without a preamble in front, is delivered (R145). -/
theorem execAll_frame_delivers {s : State} {p front : List Byte} {st : Status} {answers : List Answer}
    {statuses : List Status} (hadm : admitsCodec s = true) (hsize : s.link.rxBuf.length = s.cfg.maxFrame)
    (hp : 1 ≤ p.length) (hfits : p.length ≤ s.cfg.maxPayload) (hfront : front = [] ∨ front = preamble)
    (hanswers : s.answers = .ok :: answers) (hstatuses : s.statuses = st :: statuses) :
    ∃ t, execAll ((front ++ frameBytes s.cfg p).map .feed) s = .next t
      ∧ t.events = s.events ++ ([.tx s.cfg.ackByte .ok, .deliver p st] : List Event)
      ∧ t.responses.getLast? = some (.status st) := by
  have hdec : decodeDigits ((frameFields p).flatMap hexPair) = some (lengthField p :: p ++ [checksum p]) :=
    decodeDigits_flatMap_hexPair (frameFields p)
  obtain ⟨body, c, d, -, -, hchars, -⟩ := decodeDigits_eq_concat hdec
  rw [← List.singleton_append, ← List.append_assoc] at hchars
  rw [hchars] at hdec
  obtain ⟨u, t, -, -, -, hrun, hevents, hresponses, -⟩ :=
    frameResynchronizes s p _ front d st answers statuses hadm hsize hp hfits hfront hdec hanswers hstatuses
  refine ⟨t, ?_, hevents, by rw [hresponses, List.getLast?_concat]⟩
  rwa [frameBytes_eq, hchars]

/-- The frame of the empty payload, fed with or without a preamble in front, gives no event. -/
theorem execAll_emptyFrame_after {s : State} {front : List Byte} (hadm : admitsCodec s = true)
    (hfront : front = [] ∨ front = preamble) :
    ∃ t, execAll ((front ++ frameBytes s.cfg []).map .feed) s = .next t ∧ t.events = s.events
      ∧ ∃ before, t.responses = s.responses ++ before ++ ([.status statusOk, .status statusOk,
          .status statusMessageTooSmall, .status statusJunkByte, .status statusJunkByte] : List Response) := by
  obtain ⟨u, hsu⟩ := quietRun_front hadm hfront
  obtain ⟨before, hbefore⟩ := hsu.responses
  rw [List.map_append, execAll_append_next hsu.run, ← hsu.cfg, execAll_emptyFrame (hsu.admitsCodec hadm)]
  exact ⟨_, rfl, hsu.events, before, by rw [hbefore]⟩

/-- Settles O56: SEND puts a frame on the wire, with or without a preamble in front. -/
theorem roundTripThroughPeer : Obligations.RoundTripThroughPeer := by
  intro a b p now st answers statuses hadma hhs hbuf hfitsa haccepts hadm hsof hfits hsize hanswers hstatuses
  obtain ⟨front, hfront, hbytes⟩ := sendBytes_eq a p
  have hsend := exec_send hadma (sendFrame_accepts (now := now) hhs hbuf hfitsa haccepts)
  have hwire : wire a.events.length ((afterSend a p now).respond (.status statusOk)).events
      = (front ++ frameBytes b.cfg p).map .feed := by
    rw [State.respond_events, afterSend_events, wire_acceptedEvents, hbytes, frameBytes_eq, frameBytes_eq, hsof]
  refine ⟨(afterSend a p now).respond (.status statusOk), ?_⟩
  rw [hwire]
  rcases Nat.eq_zero_or_pos p.length with hempty | hp
  · obtain rfl := List.eq_nil_of_length_eq_zero hempty
    obtain ⟨t, hrun, hend⟩ := execAll_emptyFrame_after hadm hfront
    exact ⟨t, hsend, hrun, nofun, fun _ => hend⟩
  · obtain ⟨t, hrun, hend⟩ := execAll_frame_delivers hadm hsize hp hfits hfront hanswers hstatuses
    exact ⟨t, hsend, hrun, fun _ => hend, fun hempty => absurd hempty hp.ne'⟩

end Sys2Proof.Machine
end

section
/-! PROOFS. Who retires an entry (R182, R185, R189, R34): the notifications and the head of the queue under each
procedure, and who moves its tail. -/

namespace Sys2Proof.Machine

/-! ### What keeps the head and notifies nobody -/

@[simp] theorem completions_append (xs ys : List Event) : completions (xs ++ ys) = completions xs ++ completions ys :=
  List.filter_append xs ys

@[simp] theorem completions_acceptedEvents (bytes : List Byte) : completions (acceptedEvents bytes) = [] := by
  simp [completions, acceptedEvents]

@[simp] theorem completions_tx (b : Byte) (r : Answer) : completions [.tx b r] = [] := rfl

@[simp] theorem completions_deliver (p : List Byte) (c : Status) : completions [.deliver p c] = [] := rfl

/-- From s to t the head of the queue stays, and nobody is notified. -/
def HeadKept (s t : State) : Prop := t.queue.head = s.queue.head ∧ completions t.events = completions s.events

theorem HeadKept.refl (s : State) : HeadKept s s := ⟨rfl, rfl⟩

theorem HeadKept.trans {s t u : State} (h : HeadKept s t) (h' : HeadKept t u) : HeadKept s u := by
  obtain ⟨hhead, hevents⟩ := h
  obtain ⟨hhead', hevents'⟩ := h'
  exact ⟨hhead'.trans hhead, hevents'.trans hevents⟩

theorem emit_headKept {b : Byte} {s t : State} {r : Answer} (h : emit b s = (r, t)) : HeadKept s t := by
  obtain ⟨a, n, ht⟩ := emit_frame b s
  rw [h] at ht
  dsimp only at ht
  subst ht
  exact ⟨rfl, by simp⟩

theorem emitAll_headKept {bytes : List Byte} {s t : State} {r : Answer} (h : emitAll bytes s = (r, t)) :
    HeadKept s t := by
  obtain ⟨a, n, k, -, ⟨-, -, ht⟩ | ⟨b, -, -, ht⟩⟩ := emitAll_frame bytes s
  all_goals
    rw [h] at ht
    dsimp only at ht
    subst ht
  · exact ⟨rfl, by simp⟩
  · exact ⟨rfl, by simp⟩

theorem deliver_headKept {p : List Byte} {s t : State} {c : Status} (h : deliver p s = (c, t)) : HeadKept s t := by
  obtain ⟨st, n, hdraw⟩ := drawStatus_frame s
  simp only [deliver, hdraw, Prod.mk.injEq] at h
  obtain ⟨-, rfl⟩ := h
  exact ⟨rfl, by simp⟩

theorem transmit_headKept {p : List Byte} {now : Nat} {s t : State} {c : Status} (h : transmit p now s = .ok (c, t)) :
    HeadKept s t := by
  obtain ⟨-, hemit⟩ | ⟨-, u, hemit, hrec⟩ := transmit_cases h
  · exact (emitAll_headKept hemit :)
  · obtain ⟨-, rfl⟩ := recordSend_cases hrec
    exact (emitAll_headKept hemit :)

theorem sendFrame_headKept {p : List Byte} {now : Nat} {s t : State} {c : Status}
    (h : sendFrame p now s = .ok (c, t)) : HeadKept s t := by
  obtain ⟨-, -, rfl⟩ | ⟨-, -, htransmit⟩ | ⟨-, -, ⟨hfail, -⟩ | ⟨u, hpreamble, htransmit⟩⟩ := sendFrame_cases h
  · exact .refl t
  · exact transmit_headKept htransmit
  · exact emitAll_headKept hfail
  · exact (emitAll_headKept hpreamble).trans (transmit_headKept htransmit)

theorem takeTerminal_headKept {v : Byte} {s t : State} {c : Status} (h : takeTerminal v s = .ok (c, t)) :
    HeadKept s t := by
  obtain ⟨-, ⟨hemit, -⟩ | ⟨u, hemit, -, hdeliver⟩⟩ | ⟨-, ⟨hemit, -⟩ | ⟨hemit, -⟩⟩ := takeTerminal_cases h
  · exact emit_headKept hemit
  · exact (emit_headKept hemit).trans (deliver_headKept hdeliver)
  · exact emit_headKept hemit
  · exact emit_headKept hemit

theorem takeDigit_headKept {d : Nibble} {s t : State} {c : Status} (h : takeDigit d s = .ok (c, t)) :
    HeadKept s t := by
  obtain ⟨-, -, rfl⟩ | ⟨-, hbyte⟩ := takeDigit_cases h
  · exact .refl s
  · unfold takeByte at hbyte
    split at hbyte
    next => cases hbyte; exact .refl s
    next =>
      obtain ⟨-, ⟨-, hterminal⟩ | ⟨-, -, rfl⟩⟩ := takeData_cases hbyte
      · exact (takeTerminal_headKept hterminal :)
      · exact .refl s

/-- DRAIN's send keeps the head (R179). -/
theorem sendHead_headKept {now : Nat} {s t : State} (h : sendHead now s = .ok t) : HeadKept s t := by
  obtain ⟨slot, c, -, -, hframe⟩ := sendHead_cases h
  exact (sendFrame_headKept hframe :)

/-! ### What may retire the head entry (R182, R185) -/

/-- From s to t the head is kept, or the head entry of a queue that is not empty retires, with its one notification. -/
def HeadKeptOrRetired (s t : State) : Prop :=
  HeadKept s t
    ∨ ∃ (x : Slot) (o : Completion), s.queue.head ≠ s.queue.tail ∧ s.queue.slots[s.queue.head]? = some x
      ∧ t.queue.head = (s.queue.head + 1) % 2 ^ s.cfg.qcapLog2
      ∧ completions t.events = completions s.events ++ [.complete x.tag x.ctx o]

theorem handleOutcome_head {o : HandshakeOutcome} {s t : State} (h : handleOutcome o s = .ok t) :
    HeadKeptOrRetired s t := by
  obtain ⟨-, rfl⟩ | ⟨hne, slot, hslot, ⟨-, rfl⟩ | ⟨-, rfl⟩⟩ := handleOutcome_cases h
  · exact .inl (.refl s)
  · exact .inr ⟨slot, completionOf o, hne, hslot, rfl, completions_append _ _⟩
  · exact .inl (.refl s)

theorem drainQueue_head {now : Nat} {s t : State} (h : drainQueue now s = .ok t) : HeadKeptOrRetired s t := by
  obtain ⟨-, rfl⟩ | ⟨-, r, -, ⟨-, rfl⟩ | ⟨-, -, hhandle⟩ | ⟨-, hsend⟩⟩ := drainQueue_cases h
  · exact .inl (.refl t)
  · exact .inl (.refl t)
  · exact handleOutcome_head hhandle
  · exact .inl (sendHead_headKept hsend)

/-- DRAIN keeps a head entry that has attempts left: it hands HANDLE nothing but timeouts (R178, R180). -/
theorem drainQueue_keeps_unspent {now : Nat} {s t : State} {x : Slot} (h : drainQueue now s = .ok t)
    (hx : s.queue.slots[s.queue.head]? = some x) (hleft : x.attempts < 3) : HeadKept s t := by
  obtain ⟨-, rfl⟩ | ⟨-, r, -, ⟨-, rfl⟩ | ⟨-, -, hhandle⟩ | ⟨-, hsend⟩⟩ := drainQueue_cases h
  · exact .refl t
  · exact .refl t
  · obtain ⟨-, rfl⟩ | ⟨-, slot, hslot, ⟨hretires, -⟩ | ⟨-, rfl⟩⟩ := handleOutcome_cases hhandle
    · exact .refl s
    · cases hx.symm.trans hslot
      have hspent : 3 ≤ x.attempts := by simpa [retires] using hretires
      omega
    · exact .refl s
  · exact sendHead_headKept hsend

/-- The entry SUBMIT writes stands in the tail slot (R171). -/
theorem afterEnqueue_slot_tail {s : State} {old : Slot} (p : List Byte) (tag ctx : Nat)
    (hold : s.queue.slots[s.queue.tail]? = some old) :
    (afterEnqueue s old p tag ctx).queue.slots[s.queue.tail]? = some (submittedEntry s.cfg old p tag ctx) := by
  obtain ⟨htail, -⟩ := List.getElem?_eq_some_iff.mp hold
  exact List.getElem?_set_self htail

/-- SUBMIT's DRAIN serves the head entry that was there before, or, in an empty queue, the new entry, which has all its
attempts left (R174). -/
theorem submitEntry_head {p : List Byte} {tag ctx now : Nat} {s t : State} {c : Status}
    (h : submitEntry p tag ctx now s = .ok (c, t)) : HeadKeptOrRetired s t := by
  obtain ⟨-, -, rfl⟩ | ⟨-, -, -, rfl⟩ | ⟨-, -, -, u, henqueue, hdrain⟩ := submitEntry_cases h
  · exact .inl (.refl t)
  · exact .inl (.refl t)
  obtain ⟨old, hold, -, rfl⟩ := enqueue_cases henqueue
  by_cases hempty : s.queue.head = s.queue.tail
  · have hentry := afterEnqueue_slot_tail p tag ctx hold
    rw [← hempty] at hentry
    exact .inl (drainQueue_keeps_unspent (s := afterEnqueue s old p tag ctx) hdrain hentry (by decide : 0 < 3))
  · obtain hkept | ⟨x, o, -, hx, hhead, hnotified⟩ := drainQueue_head (s := afterEnqueue s old p tag ctx) hdrain
    · exact .inl hkept
    · exact .inr ⟨x, o, hempty, (afterEnqueue_slot_of_ne s old p tag ctx hempty).symm.trans hx, hhead, hnotified⟩

theorem handshakeByte_head {r : Handshake} {o : HandshakeOutcome} {s t : State} {c : Status}
    (h : handshakeByte r o s = .ok (c, t)) : HeadKeptOrRetired s t := by
  obtain ⟨-, ⟨-, -, hhandle⟩ | ⟨-, -, rfl⟩ | ⟨-, rfl⟩⟩ := handshakeByte_cases h
  · exact (handleOutcome_head hhandle :)
  · exact .inl (.refl s)
  · exact .inl (.refl t)

theorem feedByte_head {b : Byte} {s t : State} {c : Status} (h : feedByte b s = .ok (c, t)) :
    HeadKeptOrRetired s t := by
  obtain ⟨-, -, rfl⟩ | ⟨-, hack⟩ | ⟨-, hnak⟩ | ⟨-, -, rfl⟩ | ⟨d, -, hdigit⟩ | ⟨-, -, rfl⟩ := feedByte_cases h
  · exact .inl (.refl s)
  · exact handshakeByte_head hack
  · exact handshakeByte_head hnak
  · exact .inl (.refl t)
  · exact .inl (takeDigit_headKept hdigit)
  · exact .inl (.refl s)

/-- A command is refused, or moves the head as its body does. -/
theorem HeadKeptOrRetired.of_command {adm : Bool} {body : State → Except Fault (Response × State)} {s t : State}
    (h : command adm body s = .next t) (hbody : ∀ r u, body s = .ok (r, u) → HeadKeptOrRetired s u) :
    HeadKeptOrRetired s t := by
  obtain ⟨-, rfl⟩ | ⟨-, r, u, hu, rfl⟩ := command_next h
  · exact .inl (.refl s)
  · exact (hbody r u hu :)

/-- A command whose body answers a status. -/
theorem HeadKeptOrRetired.of_status {adm : Bool} {body : State → Except Fault (Status × State)} {s t : State}
    (h : command adm (fun s => withStatus (body s)) s = .next t)
    (hbody : ∀ c u, body s = .ok (c, u) → HeadKeptOrRetired s u) : HeadKeptOrRetired s t := by
  refine .of_command h fun r u hu => ?_
  obtain ⟨c, hc, -⟩ := withStatus_ok hu
  exact hbody c u hc

theorem exec_head {i : Instr} {s t : State} (hi : i ≠ .queueInit) (h : exec i s = .next t) :
    HeadKeptOrRetired s t := by
  have hfeed : isFeed i = true → HeadKeptOrRetired s t := by
    intro hf
    obtain ⟨b, hb⟩ := exec_of_isFeed hf s
    exact .of_status (hb.symm.trans h) fun c u => feedByte_head
  cases i with
  | queueInit => exact absurd rfl hi
  | codecInit =>
    refine .of_command (show execCodecInit s = .next t from h) fun r u hu => ?_
    cases hu
    exact .inl (.refl s)
  | readiness now =>
    refine .of_command (show execReadiness now s = .next t from h) fun r u hu => ?_
    obtain ⟨v, -, hv⟩ := except_bind_ok hu
    cases hv
    exact .inl (.refl s)
  | send p now => exact .of_status (show execSend p now s = .next t from h) fun c u hu => .inl (sendFrame_headKept hu)
  | resend now =>
    exact .of_status (show execResend now s = .next t from h)
      fun c u hu => .inl (sendFrame_headKept (resendFrame_cases hu).2)
  | submit p tag ctx now =>
    exact .of_status (show execSubmit p tag ctx now s = .next t from h) fun c u => submitEntry_head
  | update now =>
    exact .of_command (show execUpdate now s = .next t from h) fun r u hu => drainQueue_head (thenOk_ok hu).1
  | reserved header => cases h; exact .inl (.refl s)
  | handle o => exact handleOutcome_head (runProcedure_next h)
  | drain now => exact drainQueue_head (runProcedure_next h)
  | _ => exact hfeed rfl

/-! ### Who moves the tail (R34) -/

theorem DrainWrites.tail_eq {s t : State} (h : DrainWrites s t) : t.queue.tail = s.queue.tail := by
  cases h with
  | unchanged => rfl
  | handled e hqueue => exact hqueue.tail_eq
  | sent hne hslot hsend => rw [hsend.queue_eq]; rfl

/-- Every instruction but QUEUE_INIT leaves the tail, and a SUBMIT leaves it or advances it. -/
theorem ExecWrites.tail {i : Instr} {s t : State} (h : ExecWrites s i t) (hi : i ≠ .queueInit) :
    t.queue.tail = s.queue.tail
      ∨ t.queue.tail = (s.queue.tail + 1) % 2 ^ s.cfg.qcapLog2 ∧ ∃ p tag ctx now, i = .submit p tag ctx now := by
  cases h with
  | queueInit => exact absurd rfl hi
  | refused | codecInit | readiness | rejected => exact .inl rfl
  | feed hfeed hadm r hwrites => exact .inl hwrites.frame.2.1
  | send hadm r hwrites | resend hadm r hwrites => exact .inl (congrArg QueueState.tail hwrites.queue_eq)
  | submit hadm r hfits hroom hold hwrites => exact .inr ⟨hwrites.tail_eq, _, _, _, _, rfl⟩
  | update hadm r hwrites => exact .inl hwrites.tail_eq
  | drain hwrites => exact .inl hwrites.tail_eq
  | handle e hqueue => exact .inl hqueue.tail_eq

/-- Settles O52: the head by what each instruction's body does to it, the tail by what the instruction writes. -/
theorem onlyHeadEntryRetires : Obligations.OnlyHeadEntryRetires :=
  fun _ _ _ hi h => ⟨exec_head hi h, (exec_writes h).tail hi⟩

end Sys2Proof.Machine
end

section
/-! PROOFS. QUEUE_INIT, HANDLE, DRAIN, SUBMIT and UPDATE (R170 to R184), one command each: what each body answers, case by
case. -/

namespace Sys2Proof.Machine

/-! ### The commands as what their bodies answer -/

theorem admitsCodec_of_admitsQueue {s : State} (h : admitsQueue s = true) : admitsCodec s = true := by
  simp only [admitsQueue, Bool.and_eq_true] at h
  simp only [admitsCodec, Bool.and_eq_true]
  exact h.1

theorem configOk_of_admitsQueue {s : State} (h : admitsQueue s = true) : configOk s.cfg = true :=
  configOk_of_admitsCodec (admitsCodec_of_admitsQueue h)

/-- DRAIN gives no response. -/
theorem DrainWrites.responses_eq {s t : State} (h : DrainWrites s t) : t.responses = s.responses := by
  cases h with
  | unchanged | handled => rfl
  | sent hne hslot hsend => cases hsend; rfl

theorem exec_queueInit {s : State} (hadm : admitsCodec s = true) :
    exec .queueInit s = .next ((initQueue s).respond (.status statusOk)) := by
  show execQueueInit s = _
  exact command_ok hadm rfl

theorem exec_handle {o : HandshakeOutcome} {s t : State} (h : handleOutcome o s = .ok t) :
    exec (.handle o) s = .next t := by
  show execHandle o s = _
  simp only [execHandle, runProcedure, h]

theorem exec_drain {now : Nat} {s t : State} (h : drainQueue now s = .ok t) : exec (.drain now) s = .next t := by
  show execDrain now s = _
  simp only [execDrain, runProcedure, h]

/-- An admitted UPDATE answers OK after its DRAIN (R175). -/
theorem exec_update {now : Nat} {s t : State} (hadm : admitsQueue s = true) (h : drainQueue now s = .ok t) :
    exec (.update now) s = .next { t with responses := s.responses ++ [.status statusOk] } := by
  rw [← (drainQueue_writes h).responses_eq]
  show execUpdate now s = _
  exact command_ok hadm (congrArg thenOk h)

/-- An admitted SUBMIT answers the status of its body. -/
theorem exec_submit {p : List Byte} {tag ctx now : Nat} {s t : State} {c : Status} (hadm : admitsQueue s = true)
    (h : submitEntry p tag ctx now s = .ok (c, t)) :
    exec (.submit p tag ctx now) s = .next (t.respond (.status c)) := by
  show execSubmit p tag ctx now s = _
  exact command_ok hadm (congrArg withStatus h)

/-- Settles O24: the slots are the free ones QUEUE_INIT draws. -/
theorem queueInitResult : Obligations.QueueInitResult :=
  fun s hadm => ⟨freeSlots s.cfg s.freeCount, _, (emptyRing_sized s.cfg s.freeCount).count, exec_queueInit hadm⟩

/-! ### HANDLE (R180 to R183) -/

theorem handleOutcome_empty (o : HandshakeOutcome) {s : State} (h : s.queue.head = s.queue.tail) :
    handleOutcome o s = .ok (detach s) := by
  have hempty : isEmpty s.queue = true := by simp [isEmpty, h]
  rw [handleOutcome, if_pos hempty]

theorem retires_iff (x : Slot) (o : HandshakeOutcome) : retires x o = true ↔ o = .outAck ∨ 3 ≤ x.attempts := by
  simp [retires]

theorem handleOutcome_retires {o : HandshakeOutcome} {s : State} {x : Slot} (hne : s.queue.head ≠ s.queue.tail)
    (hx : s.queue.slots[s.queue.head]? = some x) (h : o = .outAck ∨ 3 ≤ x.attempts) :
    handleOutcome o s = .ok (detach (retireHead x o s)) := by
  rw [handleOutcome_of_head o hne hx, if_pos ((retires_iff x o).mpr h)]

theorem handleOutcome_keeps {o : HandshakeOutcome} {s : State} {x : Slot} (hne : s.queue.head ≠ s.queue.tail)
    (hx : s.queue.slots[s.queue.head]? = some x) (ho : o ≠ .outAck) (hleft : x.attempts < 3) :
    handleOutcome o s = .ok (detach s) := by
  have hstays : ¬retires x o = true := by
    rw [retires_iff]
    exact fun h => h.elim ho (Nat.not_le.mpr hleft)
  rw [handleOutcome_of_head o hne hx, if_neg hstays]

/-- Settles O42: the queue is empty, or its head entry retires or stays. -/
theorem handleResult : Obligations.HandleResult := by
  refine fun s o => ⟨fun hempty => exec_handle (handleOutcome_empty o hempty), fun x hne hx => ⟨fun hretires => ?_, ?_⟩⟩
  · rw [exec_handle (handleOutcome_retires hne hx hretires)]
    cases o with
    | outAck | outNak | outTimeout => rfl
  · exact fun ho hleft => exec_handle (handleOutcome_keeps hne hx ho hleft)

/-! ### DRAIN (R176 to R179) -/

theorem drainQueue_empty (now : Nat) {s : State} (h : s.queue.head = s.queue.tail) : drainQueue now s = .ok s := by
  have hempty : isEmpty s.queue = true := by simp [isEmpty, h]
  rw [drainQueue, if_pos hempty]

/-- DRAIN of a queue that is not empty goes by READINESS. -/
theorem drainQueue_of_readiness {now : Nat} {s : State} {r : Readiness} (hne : s.queue.head ≠ s.queue.tail)
    (hr : readiness s.cfg (timeOperand s.cfg now) s.link = .ok r) :
    drainQueue now s = if r = .busy then .ok s
      else if r = .timedOut ∧ s.link.listener = true then handleOutcome .outTimeout s else sendHead now s := by
  have hempty : ¬isEmpty s.queue = true := by simp [isEmpty, hne]
  rw [drainQueue, if_neg hempty, hr, except_ok_bind]
  cases r with
  | busy => rfl
  | ready | negative => simp
  | timedOut => simp

theorem readiness_busy {s : State} {now : Nat} (hs : s.link.hs = .pending)
    (hearly : ¬TimedOut s.cfg now s.link.sentAt) : readiness s.cfg (timeOperand s.cfg now) s.link = .ok .busy := by
  rw [readiness_pending hs, if_pos (Nat.lt_of_not_le hearly)]

theorem readiness_timedOut {s : State} {now : Nat} (hs : s.link.hs = .pending)
    (hlate : TimedOut s.cfg now s.link.sentAt) : readiness s.cfg (timeOperand s.cfg now) s.link = .ok .timedOut := by
  rw [readiness_pending hs, if_neg (Nat.not_lt.mpr hlate)]

theorem drainQueue_busy {now : Nat} {s : State} (hs : s.link.hs = .pending)
    (hearly : ¬TimedOut s.cfg now s.link.sentAt) : drainQueue now s = .ok s := by
  by_cases hempty : s.queue.head = s.queue.tail
  · exact drainQueue_empty now hempty
  · rw [drainQueue_of_readiness hempty (readiness_busy hs hearly), if_pos rfl]

/-- Settles O47: neither an empty queue nor a busy codec lets DRAIN write. -/
theorem drainDoesNothing : Obligations.DrainDoesNothing := by
  intro s now h
  have hdrain : drainQueue now s = .ok s :=
    h.elim (drainQueue_empty now) fun ⟨hs, hearly⟩ => drainQueue_busy hs hearly
  exact ⟨exec_drain hdrain, fun hadm => exec_update hadm hdrain⟩

/-- A timeout that the queue listens to is handed to HANDLE (R178). -/
theorem drainQueue_timeout {now : Nat} {s : State} (hne : s.queue.head ≠ s.queue.tail) (hs : s.link.hs = .pending)
    (hlistener : s.link.listener = true) (hlate : TimedOut s.cfg now s.link.sentAt) :
    drainQueue now s = handleOutcome .outTimeout s := by
  rw [drainQueue_of_readiness hne (readiness_timedOut hs hlate), if_neg (by decide), if_pos ⟨rfl, hlistener⟩]

/-- The state HANDLE(OUT_TIMEOUT) leaves, the head entry being x: retired after 3 attempts, kept before. -/
def afterTimeout (s : State) (x : Slot) : State :=
  detach (if 3 ≤ x.attempts then retireHead x .outTimeout s else s)

theorem handleOutcome_outTimeout {s : State} {x : Slot} (hne : s.queue.head ≠ s.queue.tail)
    (hx : s.queue.slots[s.queue.head]? = some x) : handleOutcome .outTimeout s = .ok (afterTimeout s x) := by
  unfold afterTimeout
  split_ifs with hspent
  · exact handleOutcome_retires hne hx (.inr hspent)
  · exact handleOutcome_keeps hne hx (by decide) (Nat.lt_of_not_le hspent)

/-- Settles O48: DRAIN is HANDLE(OUT_TIMEOUT). -/
theorem drainHandlesTimeout : Obligations.DrainHandlesTimeout := by
  intro s now x hne hx hs hlistener hlate
  have hdrain := (drainQueue_timeout hne hs hlistener hlate).trans (handleOutcome_outTimeout hne hx)
  refine ⟨afterTimeout s x, ?_, exec_drain hdrain, fun hadm => exec_update hadm hdrain⟩
  unfold afterTimeout
  split_ifs
  · rfl
  · rfl

/-- DRAIN sends where the handshake is resolved, or timed out with nobody listening (R179). -/
def SendDue (s : State) (now : Nat) : Prop :=
  s.link.hs = .acked ∨ s.link.hs = .naked
    ∨ (s.link.hs = .pending ∧ s.link.listener = false ∧ TimedOut s.cfg now s.link.sentAt)

theorem sendDue_of {s : State} {now : Nat} (hhs : s.link.hs ≠ .unused)
    (h : s.link.hs ≠ .pending ∨ (s.link.listener = false ∧ TimedOut s.cfg now s.link.sentAt)) : SendDue s now := by
  cases hs : s.link.hs with
  | unused => exact absurd hs hhs
  | acked => exact .inl hs
  | naked => exact .inr (.inl hs)
  | pending => exact .inr (.inr ⟨hs, h.resolve_left (not_not_intro hs)⟩)

theorem SendDue.hs_ne_unused {s : State} {now : Nat} (h : SendDue s now) : s.link.hs ≠ .unused := by
  obtain hs | hs | ⟨hs, -⟩ := h
  all_goals simp [hs]

theorem SendDue.readiness {s : State} {now : Nat} (h : SendDue s now) :
    ∃ r, Machine.readiness s.cfg (timeOperand s.cfg now) s.link = .ok r ∧ r ≠ .busy
      ∧ ¬(r = .timedOut ∧ s.link.listener = true) := by
  obtain hs | hs | ⟨hs, hlistener, hlate⟩ := h
  · exact ⟨.ready, by rw [Machine.readiness, hs], by decide, by simp⟩
  · exact ⟨.negative, by rw [Machine.readiness, hs], by decide, by simp⟩
  · exact ⟨.timedOut, readiness_timedOut hs hlate, by decide, by simp [hlistener]⟩

theorem drainQueue_sends {now : Nat} {s : State} (hne : s.queue.head ≠ s.queue.tail) (hdue : SendDue s now) :
    drainQueue now s = sendHead now s := by
  obtain ⟨r, hr, hbusy, hheard⟩ := hdue.readiness
  rw [drainQueue_of_readiness hne hr, if_neg hbusy, if_neg hheard]

/-- The bytes of an entry's payload (R33). -/
def Slot.payload (x : Slot) : List Byte := x.data.take x.len.toNat

/-- DRAIN's send is SEND of the head entry's payload, once its attempt is counted and the queue listens (R179). -/
theorem sendHead_of_sendFrame {now : Nat} {s t : State} {x : Slot} {c : Status}
    (hx : s.queue.slots[s.queue.head]? = some x) (hlen : x.len.toNat ≤ x.data.length)
    (h : sendFrame x.payload now (attach (countAttempt x s)) = .ok (c, t)) : sendHead now s = .ok t := by
  rw [sendHead, readAt_ok hx, except_ok_bind, readFirst_ok hlen, except_ok_bind]
  exact congrArg (· >>= fun sent => pure sent.2) h

/-- The state after DRAIN's send of the head entry x, every byte accepted (R179, R184). -/
def afterDrainSend (s : State) (x : Slot) (now : Nat) : State := afterSend (attach (countAttempt x s)) x.payload now

/-- What DRAIN's send asks of the state: an entry that fits at the head of a queue that is not empty, room for its record,
and a transport that accepts it. -/
structure SendsHead (s : State) (x : Slot) (now : Nat) : Prop where
  nonempty : s.queue.head ≠ s.queue.tail
  entry : s.queue.slots[s.queue.head]? = some x
  stored : x.len.toNat ≤ x.data.length
  fits : x.len.toNat ≤ s.cfg.maxPayload
  record : s.link.rtBuf.length = s.cfg.maxPayload
  due : SendDue s now
  accepts : Accepts s (sendBytes s x.payload).length

theorem SendsHead.drainQueue_eq {s : State} {x : Slot} {now : Nat} (h : SendsHead s x now) :
    drainQueue now s = .ok (afterDrainSend s x now) := by
  have hfits : x.payload.length ≤ s.cfg.maxPayload := (List.length_take_le _ _).trans h.fits
  rw [drainQueue_sends h.nonempty h.due]
  exact sendHead_of_sendFrame h.entry h.stored (sendFrame_accepts h.due.hs_ne_unused h.record hfits h.accepts)

/-- Settles O49: the attempt and the listener come before the SEND, which reads neither. -/
theorem drainSendsHead : Obligations.DrainSendsHead := by
  rintro s now x p hne hx hstored hfits rfl hrecord hdue haccepts
  have hdrain := SendsHead.drainQueue_eq ⟨hne, hx, hstored, hfits, hrecord, hdue, haccepts⟩
  exact ⟨_, rfl, exec_drain hdrain, fun hadm => exec_update hadm hdrain⟩

end Sys2Proof.Machine
end

section
/-! PROOFS. SUBMIT (R171 to R174): its rejections, its writes, and its one DRAIN, which sends the new entry or serves
the old head entry. -/

namespace Sys2Proof.Machine

/-! ### The rejections (R172, R173) -/

theorem submitEntry_oversized {p : List Byte} (tag ctx now : Nat) {s : State} (h : s.cfg.maxPayload < p.length) :
    submitEntry p tag ctx now s = .ok (statusPayloadTooLarge, s) := if_pos h

theorem isFull_iff (c : Config) (q : QueueState) : isFull c q = true ↔ live c q = c.qcap - 1 := by
  simp [isFull]

theorem isFull_eq_false {c : Config} {q : QueueState} (h : live c q ≠ c.qcap - 1) : isFull c q = false := by
  simp [isFull, h]

theorem submitEntry_full {p : List Byte} (tag ctx now : Nat) {s : State} (hfits : p.length ≤ s.cfg.maxPayload)
    (h : live s.cfg s.queue = s.cfg.qcap - 1) : submitEntry p tag ctx now s = .ok (statusQueueFull, s) := by
  rw [submitEntry, if_neg (Nat.not_lt.mpr hfits), if_pos ((isFull_iff _ _).mpr h)]

/-- Settles O43: the size check, then the full check. -/
theorem submitRejections : Obligations.SubmitRejections := by
  intro s p tag ctx now hadm
  refine ⟨fun hsize => exec_submit hadm (submitEntry_oversized tag ctx now hsize), fun hfits hfull => ?_⟩
  exact exec_submit hadm (submitEntry_full tag ctx now hfits ((subMod_eq _ _ _).trans hfull))

/-! ### The writes, then one DRAIN (R171, R174) -/

theorem enqueue_eq {p : List Byte} {tag ctx : Nat} {s : State} {old : Slot}
    (hold : s.queue.slots[s.queue.tail]? = some old) (hroom : p.length ≤ old.data.length) :
    enqueue p tag ctx s = .ok (afterEnqueue s old p tag ctx) := by
  rw [enqueue, readAt_ok hold, except_ok_bind, writeFirst_ok hroom, except_ok_bind]
  rfl

/-- What a SUBMIT that is not rejected finds: an admitted state of the invariant, a payload that fits, and a queue that
is not full, the slot at its tail being `old`. -/
structure Submittable (s : State) (p : List Byte) (old : Slot) : Prop where
  running : Running s
  admitted : admitsQueue s = true
  fits : p.length ≤ s.cfg.maxPayload
  room : live s.cfg s.queue ≠ s.cfg.qcap - 1
  tail : s.queue.slots[s.queue.tail]? = some old

section
variable {s : State} {p : List Byte} {old : Slot} (h : Submittable s p old) (tag ctx : Nat)
include h

/-- SUBMIT answers OK after its DRAIN, whatever that does. -/
theorem Submittable.exec_submit {now : Nat} {t : State}
    (hdrain : drainQueue now (afterEnqueue s old p tag ctx) = .ok t) :
    exec (.submit p tag ctx now) s = .next { t with responses := s.responses ++ [.status statusOk] } := by
  have hdata : p.length ≤ old.data.length := by
    rw [(h.running.queue.slot old (List.mem_of_getElem? h.tail)).data]
    exact h.fits
  have hnotFull : ¬isFull s.cfg s.queue = true := by simp [isFull_eq_false h.room]
  have hbody : submitEntry p tag ctx now s = .ok (statusOk, t) := by
    rw [submitEntry, if_neg (Nat.not_lt.mpr h.fits), if_neg hnotFull, enqueue_eq h.tail hdata, except_ok_bind, hdrain]
    rfl
  have hresponses : t.responses = s.responses := (drainQueue_writes hdrain).responses_eq
  rw [← hresponses]
  exact Machine.exec_submit h.admitted hbody

theorem Submittable.running_afterEnqueue : Running (afterEnqueue s old p tag ctx) :=
  Machine.running_afterEnqueue h.running (marks_of_admitsQueue h.admitted).2 h.fits (isFull_eq_false h.room) h.tail

/-- The new entry is live, so the queue is not empty. -/
theorem Submittable.nonempty :
    (afterEnqueue s old p tag ctx).queue.head ≠ (afterEnqueue s old p tag ctx).queue.tail := by
  intro hempty
  have hlive := live_afterEnqueue (old := old) (p := p) (tag := tag) (ctx := ctx) h.running.queue.tail
    (isFull_eq_false h.room)
  have hzero : live s.cfg (afterEnqueue s old p tag ctx).queue = 0 :=
    (live_eq_iff (nextIndex_lt s.cfg s.queue.tail) 0).mpr
      ⟨Nat.two_pow_pos _, (Nat.mod_eq_of_lt h.running.queue.head).trans hempty⟩
  omega

end

theorem submittable_of_inv {s : State} {p : List Byte} {old : Slot} (hinv : Inv s) (hadm : admitsQueue s = true)
    (hfits : p.length ≤ s.cfg.maxPayload) (hroom : live s.cfg s.queue ≠ s.cfg.qcap - 1)
    (hold : s.queue.slots[s.queue.tail]? = some old) : Submittable s p old :=
  ⟨running_of_inv hinv (marks_of_admitsQueue hadm).1, hadm, hfits, hroom, hold⟩

/-- Settles O44: SUBMIT's DRAIN finds the codec busy. -/
theorem submitWhileBusyEnqueues : Obligations.SubmitWhileBusyEnqueues := by
  intro s p tag ctx now old hinv hadm hfits hroom hold hs hearly
  exact (submittable_of_inv hinv hadm hfits hroom hold).exec_submit tag ctx
    (drainQueue_busy (s := afterEnqueue s old p tag ctx) hs hearly)

/-! ### The entry SUBMIT's DRAIN sends (R174, R179) -/

theorem qcap_ge_two {c : Config} (h : configOk c = true) : 2 ≤ c.qcap := by
  obtain ⟨-, -, -, hsizes⟩ := (configOk_iff c).mp h
  obtain ⟨-, hlog, -⟩ := (sizesInRange_iff c).mp hsizes
  exact Nat.pow_le_pow_right (n := 2) (by decide) hlog

theorem three_le_attemptsMax {c : Config} (h : configOk c = true) : 3 ≤ 2 ^ c.attW - 1 := by
  obtain ⟨-, -, -, hsizes⟩ := (configOk_iff c).mp h
  obtain ⟨-, -, -, hattW⟩ := (sizesInRange_iff c).mp hsizes
  exact hattW

theorem live_of_empty {s : State} (hs : Running s) (hempty : s.queue.head = s.queue.tail) :
    live s.cfg s.queue = 0 :=
  (live_eq_iff hs.queue.tail 0).mpr ⟨Nat.two_pow_pos _, (Nat.mod_eq_of_lt hs.queue.head).trans hempty⟩

/-- An empty queue has room: QCAP is at least 2 (R8 (e)). -/
theorem room_of_empty {s : State} (hs : Running s) (hempty : s.queue.head = s.queue.tail) :
    live s.cfg s.queue ≠ s.cfg.qcap - 1 := by
  have := qcap_ge_two hs.config
  rw [live_of_empty hs hempty]
  omega

/-- A head entry of a running queue fits (I7 of R35). -/
theorem Running.head_fits {s : State} (hs : Running s) (hmark : s.queueInit = true)
    (hne : s.queue.head ≠ s.queue.tail) {x : Slot} (hx : s.queue.slots[s.queue.head]? = some x) :
    x.len.toNat ≤ s.cfg.maxPayload := by
  have hlive : 0 < Machine.live s.cfg s.queue := by
    rw [live_retired hs.queue hne]
    exact Nat.succ_pos _
  refine hs.live hmark 0 hlive x ?_
  rwa [Nat.add_zero, Nat.mod_eq_of_lt hs.queue.head]

/-- In a running queue that is not empty, DRAIN's send asks for no more than a handshake that lets it and a transport that
accepts. -/
theorem Running.sendsHead {s : State} (hs : Running s) (hmark : s.queueInit = true) {x : Slot} {now : Nat}
    (hne : s.queue.head ≠ s.queue.tail) (hx : s.queue.slots[s.queue.head]? = some x) (hdue : SendDue s now)
    (haccepts : Accepts s (sendBytes s x.payload).length) : SendsHead s x now where
  nonempty := hne
  entry := hx
  stored := (hs.head_fits hmark hne hx).trans_eq (hs.queue.slot x (List.mem_of_getElem? hx)).data.symm
  fits := hs.head_fits hmark hne hx
  record := hs.link.rtBuf
  due := hdue
  accepts := haccepts

/-- What DRAIN's send leaves, field by field (R179, R104, R106). -/
theorem afterDrainSend_eq (s : State) (x : Slot) (now : Nat) :
    afterDrainSend s x now = { s with
      events := s.events ++ acceptedEvents (sendBytes s x.payload)
      answers := s.answers.drop (sendBytes s x.payload).length
      link := { sentLink s.cfg s.link x.payload now with listener := true }
      queue := (countAttempt x s).queue } := rfl

/-- Sending an entry records its own length. -/
theorem sentLink_payload (c : Config) (l : LinkState) {x : Slot} (now : Nat) (hstored : x.len.toNat ≤ x.data.length) :
    sentLink c l x.payload now = { l with
      hs := .pending
      rtBuf := x.payload ++ l.rtBuf.drop x.payload.length
      rtLen := x.len
      sentAt := now % 2 ^ c.timeW } := by
  simp [sentLink, Slot.payload, Nat.min_eq_left hstored]

/-- A payload that fits is read back from the entry it was written to: its length is below 2^8 (R8 (d)). -/
theorem submittedEntry_payload {c : Config} (old : Slot) {p : List Byte} (tag ctx : Nat) (hconfig : configOk c = true)
    (hfits : p.length ≤ c.maxPayload) : (submittedEntry c old p tag ctx).payload = p := by
  have hmax := (maxFrame_bounds hconfig).2
  have hlt : p.length < 256 := by
    unfold Config.maxPayload at hfits
    omega
  simp [Slot.payload, submittedEntry, Nat.mod_eq_of_lt hlt]

/-- SUBMIT of p into an empty queue, where a send is due and accepted: its DRAIN sends the new entry (R174). -/
theorem Submittable.sendsOwn {s : State} {p : List Byte} {old : Slot} (h : Submittable s p old) (tag ctx : Nat)
    {now : Nat} (hempty : s.queue.head = s.queue.tail) (hdue : SendDue s now)
    (haccepts : Accepts s (sendBytes s p).length) :
    SendsHead (afterEnqueue s old p tag ctx) (submittedEntry s.cfg old p tag ctx) now := by
  have hpayload := submittedEntry_payload old tag ctx h.running.config h.fits
  have hentry := afterEnqueue_slot_tail p tag ctx h.tail
  rw [← hempty] at hentry
  refine Running.sendsHead (h.running_afterEnqueue tag ctx) (marks_of_admitsQueue h.admitted).2 (h.nonempty tag ctx)
    hentry hdue ?_
  rw [hpayload]
  exact haccepts

/-- The first attempt of an entry submitted into an empty queue is counted in the slot it was written to (R184). -/
theorem countAttempt_own {s : State} (old : Slot) (p : List Byte) (tag ctx : Nat) (hconfig : configOk s.cfg = true)
    (hempty : s.queue.head = s.queue.tail) :
    (countAttempt (submittedEntry s.cfg old p tag ctx) (afterEnqueue s old p tag ctx)).queue = { s.queue with
      tail := (s.queue.tail + 1) % 2 ^ s.cfg.qcapLog2
      slots := s.queue.slots.set s.queue.tail { submittedEntry s.cfg old p tag ctx with attempts := 1 } } := by
  have hattempts : bumpAttempts s.cfg 0 = 1 := by
    have := three_le_attemptsMax hconfig
    unfold bumpAttempts
    omega
  have hslots : (s.queue.slots.set s.queue.tail (submittedEntry s.cfg old p tag ctx)).set s.queue.head
      { submittedEntry s.cfg old p tag ctx with attempts := bumpAttempts s.cfg 0 }
      = s.queue.slots.set s.queue.tail { submittedEntry s.cfg old p tag ctx with attempts := 1 } := by
    rw [hempty, List.set_set, hattempts]
  exact congrArg (fun slots => { (afterEnqueue s old p tag ctx).queue with slots := slots }) hslots

/-- Settles O45: the new entry is the head entry. -/
theorem submitSendsAtOnce : Obligations.SubmitSendsAtOnce := by
  intro s p tag ctx now old hinv hadm hfits hempty hold hs haccepts
  have hrunning := running_of_inv hinv (marks_of_admitsQueue hadm).1
  have h := submittable_of_inv hinv hadm hfits (room_of_empty hrunning hempty) hold
  have hbytes : sendBytes s p = preamble ++ frameBytes s.cfg p := by simp [sendBytes, hs]
  have hlength : (sendBytes s p).length = 2 + (frameBytes s.cfg p).length := by
    rw [hbytes, List.length_append]
    rfl
  have hdue := sendDue_of (now := now) hrunning.link.hs (.inl hs)
  have hsent : sendBytes (afterEnqueue s old p tag ctx) p = 0x0D#8 :: 0x0A#8 :: frameBytes s.cfg p := hbytes
  rw [h.exec_submit tag ctx (h.sendsOwn tag ctx hempty hdue (hlength ▸ haccepts)).drainQueue_eq, afterDrainSend_eq,
    submittedEntry_payload old tag ctx hrunning.config hfits, hsent,
    countAttempt_own old p tag ctx hrunning.config hempty, ← hlength, hbytes]
  rfl

/-- Settles O60: the old head entry is sent, or handed to HANDLE(OUT_TIMEOUT); it stands where it stood. -/
theorem submitServesOldHead : Obligations.SubmitServesOldHead := by
  rintro s p h tag ctx now old x hinv hadm hfits hroom hold hne hx rfl
  have hsub := submittable_of_inv hinv hadm hfits hroom hold
  have hentry := (afterEnqueue_slot_of_ne s old p tag ctx hne).trans hx
  refine ⟨fun hdue haccepts => ?_, fun hs hlistener hlate => ?_⟩
  · have hsends := Running.sendsHead (hsub.running_afterEnqueue tag ctx) (marks_of_admitsQueue hadm).2
      (hsub.nonempty tag ctx) hentry (sendDue_of hsub.running.link.hs hdue) haccepts
    rw [hsub.exec_submit tag ctx hsends.drainQueue_eq, afterDrainSend_eq, sentLink_payload _ _ _ hsends.stored]
    rfl
  · rw [hsub.exec_submit tag ctx ((drainQueue_timeout (hsub.nonempty tag ctx) hs hlistener hlate).trans
      (handleOutcome_outTimeout (hsub.nonempty tag ctx) hentry))]
    unfold afterTimeout
    split_ifs
    · rfl
    · rw [List.append_nil]
      rfl

end Sys2Proof.Machine
end

section
/-! PROOFS. DRAIN in an initialised queue (R176): it never faults, so SUBMIT and UPDATE answer OK (R171, R175). -/

namespace Sys2Proof.Machine

/-! ### No access of DRAIN's is out of bounds, and S.hs is never code 3 (R217 (3)) -/

theorem recordSend_ok {p : List Byte} (now : Nat) {s : State} (hroom : p.length ≤ s.link.rtBuf.length) :
    recordSend p now s = .ok (s.setLink { s.link with
      rtBuf := p ++ s.link.rtBuf.drop p.length, rtLen := lengthByte p, sentAt := timeOperand s.cfg now }) := by
  rw [recordSend, writeFirst_ok hroom]
  rfl

theorem transmit_total {p : List Byte} (now : Nat) {s : State} (hroom : p.length ≤ s.link.rtBuf.length) :
    ∃ c t, transmit p now s = .ok (c, t) := by
  unfold transmit
  split
  next => exact ⟨_, _, rfl⟩
  next u hemit =>
    have hbuf : u.link.rtBuf = s.link.rtBuf := by
      obtain ⟨a, n, e, rfl⟩ := emitAll_writes hemit
      rfl
    rw [recordSend_ok now (hbuf ▸ hroom)]
    exact ⟨_, _, rfl⟩

theorem sendFrame_total {p : List Byte} (now : Nat) {s : State} (hs : s.link.hs ≠ .unused)
    (hroom : p.length ≤ s.link.rtBuf.length) : ∃ c t, sendFrame p now s = .ok (c, t) := by
  unfold sendFrame
  split
  next => exact ⟨_, _, rfl⟩
  split
  next h => exact absurd h hs
  next => exact transmit_total now hroom
  all_goals
    split
    next => exact ⟨_, _, rfl⟩
    next u hemit =>
      obtain ⟨a, n, e, rfl⟩ := emitAll_writes hemit
      exact transmit_total now hroom

theorem handleOutcome_total {s : State} (o : HandshakeOutcome) (hq : QueueSized s.cfg s.queue) :
    ∃ t, handleOutcome o s = .ok t := by
  by_cases hempty : s.queue.head = s.queue.tail
  · exact ⟨_, handleOutcome_empty o hempty⟩
  · have hlt : s.queue.head < s.queue.slots.length := hq.count ▸ hq.head
    exact ⟨_, handleOutcome_of_head o hempty (List.getElem?_eq_getElem hlt)⟩

theorem sendHead_total {s : State} (hs : Running s) (hmark : s.queueInit = true) (hne : s.queue.head ≠ s.queue.tail)
    (now : Nat) : ∃ t, sendHead now s = .ok t := by
  have hlt : s.queue.head < s.queue.slots.length := hs.queue.count ▸ hs.queue.head
  have hx := List.getElem?_eq_getElem hlt
  have hfits := hs.head_fits hmark hne hx
  have hstored := hfits.trans_eq (hs.queue.slot _ (List.mem_of_getElem? hx)).data.symm
  have hroom : (s.queue.slots[s.queue.head]).payload.length ≤ s.link.rtBuf.length :=
    ((List.length_take_le _ _).trans hfits).trans_eq hs.link.rtBuf.symm
  obtain ⟨c, t, hframe⟩ := sendFrame_total (s := attach (countAttempt s.queue.slots[s.queue.head] s)) now hs.link.hs hroom
  exact ⟨t, sendHead_of_sendFrame hx hstored hframe⟩

theorem readiness_total (c : Config) (now : Nat) {l : LinkState} (h : l.hs ≠ .unused) :
    ∃ r, readiness c now l = .ok r := by
  unfold readiness
  split
  next => exact ⟨_, rfl⟩
  next => exact ⟨_, rfl⟩
  next => split_ifs <;> exact ⟨_, rfl⟩
  next hs => exact absurd hs h

theorem drainQueue_total {s : State} (hs : Running s) (hmark : s.queueInit = true) (now : Nat) :
    ∃ t, drainQueue now s = .ok t := by
  by_cases hempty : s.queue.head = s.queue.tail
  · exact ⟨s, drainQueue_empty now hempty⟩
  obtain ⟨r, hr⟩ := readiness_total s.cfg (timeOperand s.cfg now) hs.link.hs
  rw [drainQueue_of_readiness hempty hr]
  split_ifs
  · exact ⟨s, rfl⟩
  · exact handleOutcome_total .outTimeout hs.queue
  · exact sendHead_total hs hmark hempty now

theorem exists_slot_tail {s : State} (hs : Running s) : ∃ old, s.queue.slots[s.queue.tail]? = some old :=
  ⟨_, List.getElem?_eq_getElem (hs.queue.count ▸ hs.queue.tail)⟩

/-- Settles O46: DRAIN answers, before and after SUBMIT's writes, and gives no response of its own. -/
theorem submitAndUpdateAnswerOk : Obligations.SubmitAndUpdateAnswerOk := by
  intro s hinv hadm
  obtain ⟨hcodec, hmark⟩ := marks_of_admitsQueue hadm
  have hs := running_of_inv hinv hcodec
  refine ⟨fun p tag ctx now hfits hroom => ?_, fun now => ?_⟩
  · obtain ⟨old, hold⟩ := exists_slot_tail hs
    have hsub : Submittable s p old := ⟨hs, hadm, hfits, hroom, hold⟩
    obtain ⟨t, hdrain⟩ := drainQueue_total (hsub.running_afterEnqueue tag ctx) hmark now
    exact ⟨old, t, hold, exec_drain hdrain, (drainQueue_writes hdrain).responses_eq, hsub.exec_submit tag ctx hdrain⟩
  · obtain ⟨t, hdrain⟩ := drainQueue_total hs hmark now
    exact ⟨t, exec_drain hdrain, (drainQueue_writes hdrain).responses_eq, exec_update hadm hdrain⟩

end Sys2Proof.Machine
end

section
/-! PROOFS. The retries of one entry (R188): each send is followed by a timeout, and the third timeout retires it. -/

namespace Sys2Proof.Machine

/-! ### A send, then its timeout (R178, R179) -/

/-- The time stamp is `now` modulo 2^TIME_W, and ticks are counted modulo it (R106, R151). -/
theorem ticksSince_mod (c : Config) (now t : Nat) : ticksSince c now (t % 2 ^ c.timeW) = ticksSince c now t := by
  unfold ticksSince
  push_cast
  rw [Int.sub_emod_emod]

/-- The transport accepts m more bytes after the n it has accepted. -/
theorem Accepts.after {s t : State} {n m : Nat} (h : Accepts s (n + m)) (ht : t.answers = s.answers.drop n) :
    Accepts t m := by
  have := congrArg (List.drop n) h
  rw [Accepts, ht]
  simpa [List.drop_take] using this

/-- The entry x with one more attempt counted (R184). -/
def Slot.counted (c : Config) (x : Slot) : Slot := { x with attempts := bumpAttempts c x.attempts }

/-- Up to the third, every attempt is counted (R8 (g)). -/
theorem Slot.counted_attempts {s : State} (h : admitsQueue s = true) {x : Slot} (hx : x.attempts < 3) :
    (x.counted s.cfg).attempts = x.attempts + 1 := by
  have := three_le_attemptsMax (configOk_of_admitsQueue h)
  simp only [Slot.counted, bumpAttempts]
  omega

@[simp] theorem Slot.counted_payload (c : Config) (x : Slot) : (x.counted c).payload = x.payload := rfl
@[simp] theorem Slot.counted_tag (c : Config) (x : Slot) : (x.counted c).tag = x.tag := rfl
@[simp] theorem Slot.counted_ctx (c : Config) (x : Slot) : (x.counted c).ctx = x.ctx := rfl

/-- The state after a command whose DRAIN sent the head entry x of s. -/
def sentOk (s : State) (x : Slot) (now : Nat) : State := (afterDrainSend s x now).respond (.status statusOk)

/-- The state after the UPDATE that finds this send timed out. -/
def sentTimedOut (s : State) (x : Slot) (now : Nat) : State :=
  (afterTimeout (sentOk s x now) (x.counted s.cfg)).respond (.status statusOk)

section
variable {s : State} {x : Slot} {now : Nat} (h : SendsHead s x now)
include h

theorem SendsHead.exec_update (hadm : admitsQueue s = true) : exec (.update now) s = .next (sentOk s x now) :=
  Machine.exec_update hadm h.drainQueue_eq

theorem SendsHead.entry_counted : (sentOk s x now).queue.slots[s.queue.head]? = some (x.counted s.cfg) := by
  obtain ⟨hlt, -⟩ := List.getElem?_eq_some_iff.mp h.entry
  exact List.getElem?_set_self hlt

/-- The UPDATE after a send that timed out hands the timeout to HANDLE. -/
theorem SendsHead.exec_update_timeout (hadm : admitsQueue s = true) {later : Nat} (hlate : TimedOut s.cfg later now) :
    exec (.update later) (sentOk s x now) = .next (sentTimedOut s x now) := by
  have hdrain : drainQueue later (sentOk s x now) = .ok (afterTimeout (sentOk s x now) (x.counted s.cfg)) :=
    (drainQueue_timeout (s := sentOk s x now) h.nonempty rfl rfl (hlate.trans_eq (ticksSince_mod _ _ _).symm)).trans
      (handleOutcome_outTimeout (s := sentOk s x now) h.nonempty h.entry_counted)
  have hresponses : (afterTimeout (sentOk s x now) (x.counted s.cfg)).responses = (sentOk s x now).responses :=
    (drainQueue_writes hdrain).responses_eq
  rw [Machine.exec_update (s := sentOk s x now) hadm hdrain, ← hresponses]
  rfl

end

/-- v is s after its head entry x was sent, found timed out and kept. -/
structure Unanswered (s : State) (x : Slot) (v : State) : Prop where
  cfg : v.cfg = s.cfg
  admitted : admitsQueue v = admitsQueue s
  head : v.queue.head = s.queue.head
  tail : v.queue.tail = s.queue.tail
  hs : v.link.hs = .pending
  events : v.events = s.events ++ acceptedEvents (sendBytes s x.payload)
  answers : v.answers = s.answers.drop (sendBytes s x.payload).length

/-- The next send has no preamble (R178). -/
theorem Unanswered.sendBytes_eq {s v : State} {x : Slot} (h : Unanswered s x v) (p : List Byte) :
    sendBytes v p = frameBytes s.cfg p := by
  rw [sendBytes, if_pos h.hs, h.cfg, List.nil_append]

/-- An entry with attempts left is kept after its timeout, and sent again at the next one (R178, R180). -/
theorem SendsHead.again {s : State} {x : Slot} {now later next : Nat} (h : SendsHead s x now)
    (hadm : admitsQueue s = true) (hleft : x.attempts < 2) (hlate : TimedOut s.cfg later now)
    (hnext : TimedOut s.cfg next now)
    (haccepts : Accepts s ((sendBytes s x.payload).length + (frameBytes s.cfg x.payload).length)) :
    ∃ v, exec (.update later) (sentOk s x now) = .next v ∧ Unanswered s x v
      ∧ SendsHead v (x.counted s.cfg) next := by
  have hexec := h.exec_update_timeout hadm hlate
  have hattempts := Slot.counted_attempts (x := x) hadm (by omega)
  rw [sentTimedOut, afterTimeout, if_neg (by omega)] at hexec
  refine ⟨_, hexec, ⟨rfl, rfl, rfl, rfl, rfl, rfl, rfl⟩, ?_⟩
  have hfits : x.payload.length ≤ s.cfg.maxPayload := (List.length_take_le _ _).trans h.fits
  have hrecord : (x.payload ++ s.link.rtBuf.drop x.payload.length).length = s.cfg.maxPayload := by
    have := h.record
    simp only [List.length_append, List.length_drop]
    omega
  exact {
    nonempty := h.nonempty
    entry := h.entry_counted
    stored := h.stored
    fits := h.fits
    record := hrecord
    due := .inr (.inr ⟨rfl, rfl, hnext.trans_eq (ticksSince_mod _ _ _).symm⟩)
    accepts := haccepts.after rfl }

/-- After 3 attempts, the timeout retires the entry (R180, R182). -/
theorem SendsHead.retired {s : State} {x : Slot} {now later : Nat} (h : SendsHead s x now)
    (hadm : admitsQueue s = true) (hlast : x.attempts = 2) (hlate : TimedOut s.cfg later now) :
    ∃ u, exec (.update later) (sentOk s x now) = .next u
      ∧ u.events = s.events ++ acceptedEvents (sendBytes s x.payload) ++ [.complete x.tag x.ctx .retriesExhausted]
      ∧ u.queue.head = (s.queue.head + 1) % 2 ^ s.cfg.qcapLog2 ∧ u.queue.tail = s.queue.tail
      ∧ u.link.listener = false ∧ u.link.hs = .pending := by
  have hexec := h.exec_update_timeout hadm hlate
  have hattempts := Slot.counted_attempts (x := x) hadm (by omega)
  rw [sentTimedOut, afterTimeout, if_pos (by omega)] at hexec
  exact ⟨_, hexec, rfl, rfl, rfl, rfl, rfl⟩

/-! ### Three sends (R188) -/

/-- A command whose DRAIN sends the head entry x of s for the first time, and five UPDATEs that reach each timeout. -/
theorem execAll_threeSends {i : Instr} {s₀ s : State} {x : Slot} {t1 t2 t3 t4 t5 t6 : Nat}
    (hfirst : exec i s₀ = .next (sentOk s x t1)) (h : SendsHead s x t1) (hadm : admitsQueue s = true)
    (hnew : x.attempts = 0) (h21 : TimedOut s.cfg t2 t1) (h31 : TimedOut s.cfg t3 t1) (h43 : TimedOut s.cfg t4 t3)
    (h53 : TimedOut s.cfg t5 t3) (h65 : TimedOut s.cfg t6 t5)
    (haccepts : Accepts s ((sendBytes s x.payload).length + 2 * (frameBytes s.cfg x.payload).length)) :
    ∃ u, execAll [i, .update t2, .update t3, .update t4, .update t5, .update t6] s₀ = .next u
      ∧ u.events = s.events ++ acceptedEvents (sendBytes s x.payload ++ frameBytes s.cfg x.payload
          ++ frameBytes s.cfg x.payload) ++ [.complete x.tag x.ctx .retriesExhausted]
      ∧ u.queue.head = (s.queue.head + 1) % 2 ^ s.cfg.qcapLog2 ∧ u.queue.tail = s.queue.tail
      ∧ u.link.listener = false ∧ u.link.hs = .pending := by
  obtain ⟨v, hkept1, hv, hsecond⟩ := h.again hadm (by omega) h21 h31 (haccepts.mono (by omega))
  have hadmv := hv.admitted.trans hadm
  have hattempts1 := Slot.counted_attempts (x := x) hadm (by omega)
  have hacceptsv : Accepts v (2 * (frameBytes s.cfg x.payload).length) := haccepts.after hv.answers
  rw [← hv.cfg] at h43 h53 h65 hacceptsv
  obtain ⟨w, hkept2, hw, hthird⟩ := hsecond.again hadmv (by omega) h43 h53 (hacceptsv.mono (by
    rw [Slot.counted_payload, hv.sendBytes_eq, hv.cfg]
    omega))
  have hadmw := hw.admitted.trans hadmv
  have hattempts2 := Slot.counted_attempts (x := x.counted s.cfg) hadmv (by omega)
  rw [← hw.cfg] at h65
  obtain ⟨u, hretired, hevents, hhead, htail, hend⟩ := hthird.retired hadmw (by omega) h65
  rw [execAll_cons_next hfirst, execAll_cons_next hkept1, execAll_cons_next (hsecond.exec_update hadmv),
    execAll_cons_next hkept2, execAll_cons_next (hthird.exec_update hadmw), execAll_cons_next hretired]
  refine ⟨u, rfl, ?_, ?_, ?_, hend⟩
  · rw [hevents, hw.sendBytes_eq, hw.events, hv.cfg, Slot.counted_payload, Slot.counted_payload, hv.sendBytes_eq,
      hv.events]
    simp [acceptedEvents]
  · rw [hhead, hw.head, hv.head, hw.cfg, hv.cfg]
  · rw [htail, hw.tail, hv.tail]

/-- Settles O53: the first send is UPDATE's, of the entry at the head, or SUBMIT's, of its own entry. -/
theorem threeSendsThenExhausted : Obligations.ThreeSendsThenExhausted := by
  intro s t1 t2 t3 t4 t5 t6 hinv hadm hhandshake h21 h31 h43 h53 h65
  obtain ⟨hcodec, hmark⟩ := marks_of_admitsQueue hadm
  have hs := running_of_inv hinv hcodec
  have hdue : SendDue s t1 := sendDue_of hs.link.hs hhandshake
  refine ⟨?_, fun p tag ctx hempty hfits haccepts => ?_⟩
  · rintro x p hne hx hnew rfl haccepts
    have hsends := hs.sendsHead hmark hne hx hdue (haccepts.mono (Nat.le_add_right _ _))
    exact execAll_threeSends (hsends.exec_update hadm) hsends hadm hnew h21 h31 h43 h53 h65 haccepts
  · obtain ⟨old, hold⟩ := exists_slot_tail hs
    have hsub : Submittable s p old := ⟨hs, hadm, hfits, room_of_empty hs hempty, hold⟩
    have hsends := hsub.sendsOwn tag ctx hempty hdue (haccepts.mono (Nat.le_add_right _ _))
    have hpayload := submittedEntry_payload old tag ctx hs.config hfits
    obtain ⟨u, hrun, hevents, hhead, htail, hend⟩ := execAll_threeSends (s := afterEnqueue s old p tag ctx)
      (hsub.exec_submit tag ctx hsends.drainQueue_eq) hsends hadm rfl h21 h31 h43 h53 h65 (by rw [hpayload]; exact haccepts)
    rw [hpayload] at hevents
    refine ⟨u, hrun, hevents, hhead, ?_, hend⟩
    rw [htail, hhead]
    exact congrArg (fun i => (i + 1) % 2 ^ s.cfg.qcapLog2) hempty.symm

end Sys2Proof.Machine
end

section
/-! PROOFS. The capacity of the queue (R187, R34): runs of SUBMITs, and the SUBMIT after a retirement. -/

namespace Sys2Proof.Machine

/-! ### A run of SUBMITs (R171, R173) -/

theorem admitsQueue_of_exec {i : Instr} {s t : State} (h : exec i s = .next t) (hadm : admitsQueue s = true) :
    admitsQueue t = true := by
  obtain ⟨hcfg, -, hcodec, hqueue⟩ := marksAndParametersKept i s t h
  obtain ⟨hcodecInit, hqueueInit⟩ := marks_of_admitsQueue hadm
  simp [admitsQueue, hcfg, configOk_of_admitsQueue hadm, hcodec hcodecInit, hqueue hqueueInit]

theorem cfg_of_exec {i : Instr} {s t : State} (h : exec i s = .next t) : t.cfg = s.cfg := by
  obtain ⟨hcfg, -⟩ := marksAndParametersKept i s t h
  exact hcfg

/-- live(S) goes by the two indices alone. -/
theorem live_congr {c : Config} {q q' : QueueState} (hhead : q'.head = q.head) (htail : q'.tail = q.tail) :
    live c q' = live c q := by
  rw [live, live, hhead, htail]

theorem exec_submit_full {p : List Byte} {s : State} (tag ctx now : Nat) (hadm : admitsQueue s = true)
    (hfits : p.length ≤ s.cfg.maxPayload) (hfull : live s.cfg s.queue = s.cfg.qcap - 1) :
    exec (.submit p tag ctx now) s = .next (s.respond (.status statusQueueFull)) :=
  exec_submit hadm (submitEntry_full tag ctx now hfits hfull)

/-- Where there is room, SUBMIT answers OK, and there is one more live entry unless one retires. -/
theorem exec_submit_room {p : List Byte} {s : State} (tag ctx now : Nat) (hinv : Inv s) (hadm : admitsQueue s = true)
    (hfits : p.length ≤ s.cfg.maxPayload) (hroom : live s.cfg s.queue ≠ s.cfg.qcap - 1) :
    ∃ u, exec (.submit p tag ctx now) s = .next u ∧ u.responses = s.responses ++ [.status statusOk]
      ∧ (u.queue.head = s.queue.head → live s.cfg u.queue = live s.cfg s.queue + 1) := by
  have hs := running_of_inv hinv (marks_of_admitsQueue hadm).1
  obtain ⟨old, hold⟩ := exists_slot_tail hs
  have hsub : Submittable s p old := ⟨hs, hadm, hfits, hroom, hold⟩
  obtain ⟨t, hdrain⟩ := drainQueue_total (hsub.running_afterEnqueue tag ctx) (marks_of_admitsQueue hadm).2 now
  refine ⟨_, hsub.exec_submit tag ctx hdrain, rfl, fun hhead => ?_⟩
  rw [← live_afterEnqueue (old := old) (p := p) (tag := tag) (ctx := ctx) hs.queue.tail (isFull_eq_false hroom)]
  exact live_congr hhead (drainQueue_writes hdrain).tail_eq

/-- Notifications are never taken back. -/
theorem HeadKeptOrRetired.completions_prefix {s t : State} (h : HeadKeptOrRetired s t) :
    completions s.events <+: completions t.events := by
  obtain ⟨-, hsame⟩ | ⟨x, o, -, -, -, hone⟩ := h
  · exact hsame ▸ List.prefix_refl _
  · exact hone ▸ List.prefix_append _ _

theorem HeadKeptOrRetired.head_eq {s t : State} (h : HeadKeptOrRetired s t)
    (hsame : completions t.events = completions s.events) : t.queue.head = s.queue.head := by
  obtain ⟨hhead, -⟩ | ⟨x, o, -, -, -, hone⟩ := h
  · exact hhead
  · simp [hone] at hsame

/-- A SUBMIT of a payload that fits (R172). -/
def SubmitFits (c : Config) (i : Instr) : Prop := ∃ p tag ctx now, i = .submit p tag ctx now ∧ p.length ≤ c.maxPayload

/-- The answers to n SUBMITs without a retirement, on a queue with room for k entries. -/
def submitAnswers (n k : Nat) : List Response :=
  List.replicate (min n k) (.status statusOk) ++ List.replicate (n - k) (.status statusQueueFull)

theorem submitAnswers_full (n : Nat) : submitAnswers (n + 1) 0 = .status statusQueueFull :: submitAnswers n 0 := by
  simp [submitAnswers, List.replicate_succ]

theorem submitAnswers_room (n k : Nat) : submitAnswers (n + 1) (k + 1) = .status statusOk :: submitAnswers n k := by
  simp [submitAnswers, List.replicate_succ]

/-- A run of SUBMITs answers; where no entry retires in it, each entry takes up room for one. -/
theorem execAll_submits {submits : List Instr} {s : State} (hinv : Inv s) (hadm : admitsQueue s = true)
    (hsubmits : ∀ i ∈ submits, SubmitFits s.cfg i) :
    ∃ t, execAll submits s = .next t ∧ completions s.events <+: completions t.events
      ∧ (completions t.events = completions s.events →
        t.responses = s.responses ++ submitAnswers submits.length (s.cfg.qcap - 1 - live s.cfg s.queue)) := by
  induction submits generalizing s with
  | nil => exact ⟨s, rfl, List.prefix_refl _, fun _ => by simp [submitAnswers]⟩
  | cons i is ih =>
    obtain ⟨⟨p, tag, ctx, now, rfl, hfits⟩, hrest⟩ := List.forall_mem_cons.mp hsubmits
    have hstep : ∃ u r, exec (.submit p tag ctx now) s = .next u ∧ u.responses = s.responses ++ [r]
        ∧ (u.queue.head = s.queue.head →
          submitAnswers (is.length + 1) (s.cfg.qcap - 1 - live s.cfg s.queue)
            = r :: submitAnswers is.length (s.cfg.qcap - 1 - live s.cfg u.queue)) := by
      by_cases hfull : live s.cfg s.queue = s.cfg.qcap - 1
      · refine ⟨_, _, exec_submit_full tag ctx now hadm hfits hfull, rfl, fun _ => ?_⟩
        rw [State.respond_queue, hfull, Nat.sub_self, submitAnswers_full]
      · obtain ⟨u, hu, hresponses, hlive⟩ := exec_submit_room tag ctx now hinv hadm hfits hfull
        refine ⟨u, _, hu, hresponses, fun hhead => ?_⟩
        have hbound : live s.cfg s.queue < s.cfg.qcap := subMod_lt _ _ _
        rw [hlive hhead, ← submitAnswers_room]
        congr 1
        omega
    obtain ⟨u, r, hu, hresponses, hanswers⟩ := hstep
    have hcfg := cfg_of_exec hu
    have hmoves := exec_head (by simp) hu
    obtain ⟨t, ht, hprefix, hrun⟩ := ih ((exec_writes hu).inv rfl hinv) (admitsQueue_of_exec hu hadm) (hcfg ▸ hrest)
    refine ⟨t, (execAll_cons_next hu).trans ht, hmoves.completions_prefix.trans hprefix, fun hsame => ?_⟩
    have hnone : completions u.events = completions s.events :=
      (hmoves.completions_prefix.eq_of_length_le (hsame ▸ hprefix.length_le)).symm
    rw [hrun (hsame.trans hnone.symm), hresponses, hcfg, List.length_cons, hanswers (hmoves.head_eq hnone)]
    simp

/-! ### Runs in which no entry retires -/

/-- SUBMIT with the codec busy writes neither the Link State nor the event log (R177). -/
theorem exec_submit_busy {p : List Byte} {tag ctx now : Nat} {s u : State} (hs : s.link.hs = .pending)
    (hearly : ¬TimedOut s.cfg now s.link.sentAt) (h : exec (.submit p tag ctx now) s = .next u) :
    u.link = s.link ∧ u.events = s.events := by
  obtain ⟨-, rfl⟩ | ⟨-, r, t, hbody, rfl⟩ := command_next (show execSubmit p tag ctx now s = .next u from h)
  · exact ⟨rfl, rfl⟩
  obtain ⟨c, hentry, -⟩ := withStatus_ok hbody
  obtain ⟨-, -, rfl⟩ | ⟨-, -, -, rfl⟩ | ⟨-, -, -, v, henqueue, hdrain⟩ := submitEntry_cases hentry
  · exact ⟨rfl, rfl⟩
  · exact ⟨rfl, rfl⟩
  · obtain ⟨old, -, -, rfl⟩ := enqueue_cases henqueue
    cases (drainQueue_busy (s := afterEnqueue s old p tag ctx) hs hearly).symm.trans hdrain
    exact ⟨rfl, rfl⟩

theorem execAll_submits_busy {submits : List Instr} {now : Nat} {s t : State} (hs : s.link.hs = .pending)
    (hearly : ¬TimedOut s.cfg now s.link.sentAt) (hsubmits : ∀ i ∈ submits, ∃ p tag ctx, i = .submit p tag ctx now)
    (h : execAll submits s = .next t) : t.events = s.events := by
  induction submits generalizing s with
  | nil => cases h; rfl
  | cons i is ih =>
    obtain ⟨⟨p, tag, ctx, rfl⟩, hrest⟩ := List.forall_mem_cons.mp hsubmits
    cases hu : exec (.submit p tag ctx now) s with
    | fault | refused => simp [execAll, hu] at h
    | next u =>
      rw [execAll_cons_next hu] at h
      obtain ⟨hlink, hevents⟩ := exec_submit_busy hs hearly hu
      rw [← hlink] at hs
      rw [← hlink, ← cfg_of_exec hu] at hearly
      exact (ih hs hearly hrest h).trans hevents

/-- No time has passed at the time of the send. -/
theorem not_timedOut_now {c : Config} (h : configOk c = true) (now : Nat) : ¬TimedOut c now (now % 2 ^ c.timeW) := by
  obtain ⟨-, -, -, hsizes⟩ := (configOk_iff c).mp h
  obtain ⟨-, -, ⟨hticks, -⟩, -⟩ := (sizesInRange_iff c).mp hsizes
  have hzero : ticksSince c now now = 0 := by simp [ticksSince]
  rw [TimedOut, ticksSince_mod, hzero]
  omega

/-- With the handshake resolved, the first SUBMIT's accepted send leaves the codec busy for all the others. -/
theorem execAll_submits_resolved {submits : List Instr} {now : Nat} {s t : State} (hs : Running s)
    (hadm : admitsQueue s = true) (hempty : s.queue.head = s.queue.tail) (hresolved : s.link.hs ≠ .pending)
    (hfits : ∀ i ∈ submits, SubmitFits s.cfg i) (hsubmits : ∀ i ∈ submits, ∃ p tag ctx, i = .submit p tag ctx now)
    (haccepts : ∀ p tag ctx, submits.head? = some (.submit p tag ctx now) →
      Accepts s (2 + (frameBytes s.cfg p).length))
    (h : execAll submits s = .next t) : completions t.events = completions s.events := by
  cases submits with
  | nil => cases h; rfl
  | cons i is =>
    obtain ⟨⟨p, tag, ctx, rfl⟩, hrest⟩ := List.forall_mem_cons.mp hsubmits
    obtain ⟨⟨p', tag', ctx', now', heq, hp⟩, -⟩ := List.forall_mem_cons.mp hfits
    obtain ⟨rfl, rfl, rfl, rfl⟩ := Instr.submit.inj heq
    obtain ⟨old, hold⟩ := exists_slot_tail hs
    have hsub : Submittable s p old := ⟨hs, hadm, hp, room_of_empty hs hempty, hold⟩
    have hlength : (sendBytes s p).length = 2 + (frameBytes s.cfg p).length := by
      rw [sendBytes, if_neg hresolved, List.length_append]
      rfl
    have hsends := hsub.sendsOwn tag ctx hempty (sendDue_of (now := now) hs.link.hs (.inl hresolved))
      (hlength ▸ haccepts p tag ctx rfl)
    have hfirst := hsub.exec_submit tag ctx hsends.drainQueue_eq
    rw [execAll_cons_next hfirst] at h
    have hevents : t.events = s.events ++ acceptedEvents (sendBytes s (submittedEntry s.cfg old p tag ctx).payload) :=
      execAll_submits_busy (s := sentOk (afterEnqueue s old p tag ctx) _ now) rfl (not_timedOut_now hs.config now)
        hrest h
    rw [hevents, completions_append, completions_acceptedEvents, List.append_nil]

/-! ### After a retirement -/

/-- No instruction loses the invariant of an initialised queue, the two procedures among them. -/
theorem ExecWrites.inv_of_admitsQueue {i : Instr} {s t : State} (h : ExecWrites s i t) (hinv : Inv s)
    (hadm : admitsQueue s = true) : Inv t := by
  obtain ⟨hcodec, hmark⟩ := marks_of_admitsQueue hadm
  have hs := running_of_inv hinv hcodec
  cases i with
  | handle o =>
    cases h with
    | refused => exact hinv
    | feed hfeed => nomatch hfeed
    | handle e hqueue =>
      refine Running.inv ?_ hcodec
      exact hqueue.running hs rfl rfl (hs.link.setListener false) rfl
  | drain now =>
    cases h with
    | refused => exact hinv
    | feed hfeed => nomatch hfeed
    | drain hwrites => exact (hwrites.running hs hmark).inv (hwrites.sameMarks.codecInit.trans hcodec)
  | _ => exact h.inv rfl hinv

/-- On a full queue no SUBMIT writes an entry, so no instruction but QUEUE_INIT moves the tail. -/
theorem ExecWrites.tail_of_full {i : Instr} {s t : State} (h : ExecWrites s i t) (hi : i ≠ .queueInit)
    (hfull : live s.cfg s.queue = s.cfg.qcap - 1) : t.queue.tail = s.queue.tail := by
  obtain htail | ⟨-, p, tag, ctx, now, rfl⟩ := h.tail hi
  · exact htail
  · cases h with
    | refused | rejected => rfl
    | feed hfeed => nomatch hfeed
    | submit hadm r hfits hroom => simp [(isFull_iff _ _).mpr hfull] at hroom

/-- A retirement makes room for one entry. -/
theorem live_of_retired {i : Instr} {s u : State} (hs : Running s) (hi : i ≠ .queueInit) (h : exec i s = .next u)
    (hfull : live s.cfg s.queue = s.cfg.qcap - 1) (hmoved : u.queue.head ≠ s.queue.head) :
    live s.cfg u.queue ≠ s.cfg.qcap - 1 := by
  obtain ⟨hkept, -⟩ | ⟨x, o, hne, -, hhead, -⟩ := exec_head hi h
  · exact absurd hkept hmoved
  have hlive : live s.cfg u.queue = live s.cfg { s.queue with head := nextIndex s.cfg s.queue.head } :=
    live_congr hhead ((exec_writes h).tail_of_full hi hfull)
  have hfewer : live s.cfg s.queue = live s.cfg u.queue + 1 :=
    (live_retired hs.queue hne).trans (congrArg (· + 1) hlive.symm)
  omega

/-- FEED of ACK_BYTE, with a handshake pending and the queue listening, retires the head entry (R134, R180). -/
theorem exec_feed_ack_retires {s : State} (hs : Running s) (hadm : admitsCodec s = true) (hpending : s.link.hs = .pending)
    (hlistener : s.link.listener = true) :
    ∃ u, exec (.feed s.cfg.ackByte) s = .next u ∧ u.queue.head = (s.queue.head + 1) % 2 ^ s.cfg.qcapLog2 := by
  obtain ⟨-, hne, -⟩ := hs.listener hlistener
  have hx := List.getElem?_eq_getElem (l := s.queue.slots) (hs.queue.count ▸ hs.queue.head)
  have hhandle := handleOutcome_retires (s := s.setLink { s.link with hs := .acked }) (o := .outAck) hne hx (.inl rfl)
  exact ⟨_, exec_feed hadm ((feedByte_ackByte hadm).trans (handshakeByte_heard hpending hlistener hhandle)), rfl⟩

theorem nextIndex_ne {c : Config} (h : configOk c = true) {i : Nat} (hi : i < c.qcap) : nextIndex c i ≠ i := by
  have := qcap_ge_two h
  have hnext : nextIndex c i = (i + 1) % c.qcap := rfl
  obtain hlt | heq : i + 1 < c.qcap ∨ i + 1 = c.qcap := by omega
  · rw [hnext, Nat.mod_eq_of_lt hlt]
    omega
  · rw [hnext, heq, Nat.mod_self]
    omega

/-- Settles O51: from an empty queue there is room for QCAP - 1 entries; a retirement makes room for one more. -/
theorem queueHoldsCapacityLessOne : Obligations.QueueHoldsCapacityLessOne := by
  intro s hinv hadm
  have hs := running_of_inv hinv (marks_of_admitsQueue hadm).1
  refine ⟨fun submits hempty hsubmits => ?_, fun hfull => ⟨?_, fun hpending hlistener => ?_⟩⟩
  · obtain ⟨t, hrun, -, hresponses⟩ := execAll_submits hinv hadm hsubmits
    refine ⟨t, hrun, fun hnone => ?_, fun now hnow hcase => ?_⟩
    · rw [hresponses hnone, live_of_empty hs hempty, Nat.sub_zero, submitAnswers, List.append_assoc]
    · obtain ⟨hpending, hearly⟩ | ⟨hresolved, haccepts⟩ := hcase
      · rw [execAll_submits_busy hpending hearly hnow hrun]
      · exact execAll_submits_resolved hs hadm hempty hresolved hsubmits hnow haccepts hrun
  · intro i u q tag ctx now hi hu hmoved hfits
    have hcfg := cfg_of_exec hu
    have hroom : live u.cfg u.queue ≠ u.cfg.qcap - 1 := hcfg ▸ live_of_retired hs hi hu hfull hmoved
    obtain ⟨v, hv, hanswer, -⟩ := exec_submit_room tag ctx now ((exec_writes hu).inv_of_admitsQueue hinv hadm)
      (admitsQueue_of_exec hu hadm) (hcfg ▸ hfits) hroom
    exact ⟨v, hv, hanswer⟩
  · obtain ⟨u, hu, hhead⟩ := exec_feed_ack_retires hs (admitsCodec_of_admitsQueue hadm) hpending hlistener
    exact ⟨u, hu, hhead, hhead ▸ nextIndex_ne hs.config hs.queue.head⟩

end Sys2Proof.Machine
end

section
/-! PROOFS. How every command ends (R217): none faults from the invariant, and each is refused or gives one response. -/

namespace Sys2Proof.Machine

/-! ### FEED never faults (R27, R51) -/

theorem handshakeByte_total {s : State} (r : Handshake) (o : HandshakeOutcome) (hs : s.link.hs ≠ .unused)
    (hq : QueueSized s.cfg s.queue) : ∃ c t, handshakeByte r o s = .ok (c, t) := by
  cases hhs : s.link.hs with
  | unused => exact absurd hhs hs
  | acked => exact ⟨_, _, handshakeByte_resolved r o (.inl hhs)⟩
  | naked => exact ⟨_, _, handshakeByte_resolved r o (.inr hhs)⟩
  | pending =>
    cases hlistener : s.link.listener with
    | false => exact ⟨_, _, handshakeByte_unheard r o hhs hlistener⟩
    | true =>
      obtain ⟨t, ht⟩ := handleOutcome_total (s := s.setLink { s.link with hs := r }) o hq
      exact ⟨_, t, handshakeByte_heard hhs hlistener ht⟩

theorem takeTerminal_total (v : Byte) {s : State} (hroom : s.link.frameLen.toNat - 1 ≤ s.link.rxBuf.length) :
    ∃ c t, takeTerminal v s = .ok (c, t) := by
  unfold takeTerminal
  split
  next =>
    split
    next => exact ⟨_, _, rfl⟩
    next u hemit =>
      obtain ⟨a, n, hu⟩ := emit_frame s.cfg.ackByte s
      rw [hemit] at hu
      dsimp only at hu
      subst hu
      rw [readFirst_ok hroom]
      exact ⟨_, _, rfl⟩
  next => split <;> exact ⟨_, _, rfl⟩

/-- A byte after the length field has its place in S.rx_buf (I1 to I3), and so has the payload a terminal byte delivers. -/
theorem takeByte_total (v : Byte) {s : State} (hl : LinkGood s.cfg s.link) (hreading : s.link.reading = true)
    (hspent : s.link.nibValid = false) : ∃ c t, takeByte v s = .ok (c, t) := by
  by_cases hunknown : s.link.frameLen = 0#8
  · exact ⟨_, _, takeByte_length hunknown rfl⟩
  have hlen : s.link.frameLen.toNat ≤ s.link.rxBuf.length := by
    obtain hzero | ⟨-, hmax⟩ := hl.frameLen
    · exact absurd hzero hunknown
    · exact hmax.trans_eq hl.rxBuf.symm
  have hroom : s.link.rxCount.toNat < s.link.rxBuf.length := (hl.rxCount_lt hreading hunknown).trans_le hlen
  by_cases hlast : s.link.rxCount + 1#8 = s.link.frameLen
  · rw [takeByte_terminal v hunknown hroom hlast hspent]
    have hstored : (endFrame v s.link).rxBuf.length = s.link.rxBuf.length := List.length_set
    exact takeTerminal_total v ((Nat.sub_le _ 1).trans (hlen.trans_eq hstored.symm))
  · exact ⟨_, _, takeByte_data v hunknown hroom hlast⟩

theorem feedByte_total (b : Byte) {s : State} (hs : Running s) : ∃ c t, feedByte b s = .ok (c, t) := by
  unfold feedByte
  split
  next => exact ⟨_, _, rfl⟩
  next => exact handshakeByte_total _ _ hs.link.hs hs.queue
  next => exact handshakeByte_total _ _ hs.link.hs hs.queue
  next => exact ⟨_, _, rfl⟩
  next d hclass =>
    cases hnib : s.link.nibValid with
    | false => exact ⟨_, _, takeDigit_first d hnib⟩
    | true =>
      rw [takeDigit_second hnib rfl]
      exact takeByte_total _ { hs.link with nibValid := nofun } (reading_of_classify_hex hclass) rfl
  next => exact ⟨_, _, rfl⟩

/-! ### SEND and RESEND never fault (R27, R51) -/

/-- SEND of any payload: one that is too large is rejected before it is read (R108). -/
theorem sendFrame_total_of_linkGood (p : List Byte) (now : Nat) {s : State} (hl : LinkGood s.cfg s.link) :
    ∃ c t, sendFrame p now s = .ok (c, t) := by
  by_cases hsize : s.cfg.maxPayload < p.length
  · exact ⟨_, _, sendFrame_oversized now hsize⟩
  · exact sendFrame_total now hl.hs ((Nat.le_of_not_lt hsize).trans_eq hl.rtBuf.symm)

/-! ### Every command ends (R217) -/

theorem exec_submit_total (p : List Byte) (tag ctx now : Nat) {s : State} (hinv : Inv s)
    (hadm : admitsQueue s = true) : ∃ t, exec (.submit p tag ctx now) s = .next t := by
  by_cases hsize : s.cfg.maxPayload < p.length
  · exact ⟨_, exec_submit hadm (submitEntry_oversized tag ctx now hsize)⟩
  have hfits := Nat.le_of_not_lt hsize
  by_cases hfull : live s.cfg s.queue = s.cfg.qcap - 1
  · exact ⟨_, exec_submit_full tag ctx now hadm hfits hfull⟩
  · obtain ⟨t, hexec, -⟩ := exec_submit_room tag ctx now hinv hadm hfits hfull
    exact ⟨t, hexec⟩

theorem exec_total_of_isFeed {i : Instr} {s : State} (hi : isFeed i = true) (hs : Running s)
    (hadm : admitsCodec s = true) : ∃ t, exec i s = .next t := by
  obtain ⟨b, hb⟩ := exec_of_isFeed hi s
  obtain ⟨c, t, hbyte⟩ := feedByte_total b hs
  exact ⟨_, hb.trans (exec_feed hadm hbyte)⟩

/-- From the invariant an admitted command answers a next state: its body does not fault. -/
theorem exec_total_of_admission {i : Instr} {s : State} (hinv : Inv s) (hi : isCommand i = true)
    (hadm : admission s i = true) : ∃ t, exec i s = .next t := by
  have running : admitsCodec s = true → Running s := fun h => running_of_inv hinv (codecInit_of_admitsCodec h)
  cases i with
  | codecInit => exact ⟨_, exec_codecInit hadm⟩
  | readiness now =>
    obtain ⟨r, hr⟩ := readiness_total s.cfg (timeOperand s.cfg now) (running hadm).link.hs
    exact ⟨_, exec_readiness hadm hr⟩
  | send p now =>
    obtain ⟨c, t, hframe⟩ := sendFrame_total_of_linkGood p now (running hadm).link
    exact ⟨_, exec_send hadm hframe⟩
  | resend now =>
    have hl := (running hadm).link
    obtain ⟨c, t, hframe⟩ := sendFrame_total_of_linkGood (s.link.rtBuf.take s.link.rtLen.toNat) now hl
    exact ⟨_, (exec_resend (hl.rtLen.trans_eq hl.rtBuf.symm)).trans (exec_send hadm hframe)⟩
  | queueInit => exact ⟨_, exec_queueInit hadm⟩
  | submit p tag ctx now => exact exec_submit_total p tag ctx now hinv hadm
  | update now =>
    obtain ⟨hcodec, hmark⟩ := marks_of_admitsQueue hadm
    obtain ⟨t, hdrain⟩ := drainQueue_total (running_of_inv hinv hcodec) hmark now
    exact ⟨_, exec_update hadm hdrain⟩
  | reserved header => nomatch hadm
  | handle | drain => nomatch hi
  | _ => exact exec_total_of_isFeed rfl (running hadm) hadm

/-- From the invariant every command answers a next state: its refusal, or what its body leaves. -/
theorem exec_total {i : Instr} {s : State} (hinv : Inv s) (hi : isCommand i = true) : ∃ t, exec i s = .next t := by
  cases hadm : admission s i with
  | false => exact ⟨_, exec_refused hi hadm⟩
  | true => exact exec_total_of_admission hinv hi hadm

/-! ### One response (R82, R217) -/

theorem SendWrites.responses_eq {s t : State} (h : SendWrites s t) : t.responses = s.responses := by
  cases h; rfl

theorem FeedWrites.responses_eq {s t : State} (h : FeedWrites s t) : t.responses = s.responses := by
  cases h <;> rfl

/-- A command is refused, or it gives one response. -/
theorem ExecWrites.answers {i : Instr} {s t : State} (h : ExecWrites s i t) (hi : isCommand i = true) :
    t = s.refuse ∨ ∃ r, t.responses = s.responses ++ [r] := by
  have of_body : ∀ {u : State} (r : Response), u.responses = s.responses →
      u.respond r = s.refuse ∨ ∃ r', (u.respond r).responses = s.responses ++ [r'] :=
    fun r hu => .inr ⟨r, congrArg (· ++ [r]) hu⟩
  cases h with
  | refused => exact .inl rfl
  | codecInit hadm r | queueInit hadm r => exact of_body r rfl
  | readiness r | rejected r => exact of_body r rfl
  | feed hfeed hadm r hwrites => exact of_body r hwrites.responses_eq
  | send hadm r hwrites | resend hadm r hwrites => exact of_body r hwrites.responses_eq
  | submit hadm r hfits hroom hold hwrites => exact of_body r (hwrites.responses_eq :)
  | update hadm r hwrites => exact of_body r hwrites.responses_eq
  | handle | drain => nomatch hi

/-- Settles O5: no body faults from the invariant, and what a command writes holds one response or the mark alone. -/
theorem everyCommandAnswers : Obligations.EveryCommandAnswers := by
  intro i s hinv hi
  obtain ⟨t, hexec⟩ := exec_total hinv hi
  exact ⟨t, hexec, (exec_writes hexec).answers hi⟩

/-- Settles O4: a step runs nothing, a refusal, or a command, and no command faults from the invariant. -/
theorem stepNeverFaults : Obligations.StepNeverFaults := by
  intro s f hinv h
  unfold step at h
  split at h
  next => cases h
  next i t hfetch =>
    obtain ⟨rfl, hi⟩ := fetch_instr hfetch
    obtain ⟨u, hexec⟩ := exec_total (s := s.dropArrival) hinv hi
    exact nomatch hexec.symm.trans h
  next => cases h
  next => cases h

/-! ### Nothing at the port, and overlapping commands (R219, R212) -/

/-- Settles O15: with no arrival nothing is fetched. -/
theorem idleStepKeepsState : Obligations.IdleStepKeepsState := by
  intro s hidle
  simp only [step, fetch, hidle]

/-- Settles O16: an overlapping command is refused before it is decoded. -/
theorem overlappingCommandRefused : Obligations.OverlappingCommandRefused := by
  intro s bits rest harrivals
  have hfetch : fetch s = .overlap s.dropArrival := by simp only [fetch, harrivals]
  simp only [step, hfetch]
  rw [dropArrival_of_cons harrivals, State.refuse]

end Sys2Proof.Machine
end

section
/-! PROOFS. The events of one command (R210): what each procedure appends to the event log. -/

namespace Sys2Proof.Machine

/-! ### Growth of the event log (R40) -/

/-- From s to t the event log grows by events of which P holds. -/
def Appends (s t : State) (P : List Event → Prop) : Prop := ∃ new, t.events = s.events ++ new ∧ P new

section
variable {s t : State} {P Q : List Event → Prop}

theorem Appends.nothing (h : t.events = s.events) (hnil : P []) : Appends s t P :=
  ⟨[], h.trans (List.append_nil _).symm, hnil⟩

theorem Appends.imp (h : Appends s t P) (himp : ∀ new, P new → Q new) : Appends s t Q := by
  obtain ⟨new, hnew, hP⟩ := h
  exact ⟨new, hnew, himp new hP⟩

end

/-! ### The events of a send (R101, R107) -/

/-- The Tx events of bytes offered in wire order, up to the last one offered. -/
def TxOf (bytes : List Byte) (new : List Event) : Prop := new.map txByte <+: bytes.map some

theorem TxOf.exists_take {bytes : List Byte} {new : List Event} (h : TxOf bytes new) :
    ∃ k, new.map txByte = (bytes.take k).map some :=
  ⟨_, (List.prefix_iff_eq_take.mp h).trans List.map_take.symm⟩

theorem txOf_nil (bytes : List Byte) : TxOf bytes [] := List.nil_prefix

@[simp] theorem acceptedEvents_map_txByte (bytes : List Byte) : (acceptedEvents bytes).map txByte = bytes.map some := by
  simp [acceptedEvents, txByte]

theorem txOf_acceptedEvents (bytes : List Byte) : TxOf bytes (acceptedEvents bytes) := by
  rw [TxOf, acceptedEvents_map_txByte]

theorem txOf_failed {bytes : List Byte} {k : Nat} {b : Byte} (hb : bytes[k]? = some b) :
    TxOf bytes (acceptedEvents (bytes.take k) ++ [.tx b .fail]) := by
  have hoffered : bytes.take (k + 1) = bytes.take k ++ [b] := by
    rw [List.take_add_one, hb, Option.toList_some]
  rw [TxOf, List.map_append, acceptedEvents_map_txByte]
  have hprefix := (List.take_prefix (k + 1) bytes).map some
  rw [hoffered, List.map_append] at hprefix
  exact hprefix

/-- A send that stops in its first part. -/
theorem TxOf.append_right {xs : List Byte} {new : List Event} (h : TxOf xs new) (ys : List Byte) :
    TxOf (xs ++ ys) new := by
  rw [TxOf, List.map_append]
  exact h.trans (List.prefix_append _ _)

/-- The events of a second part follow those of a first one that was accepted whole. -/
theorem TxOf.after_accepted {ys : List Byte} {new : List Event} (h : TxOf ys new) (xs : List Byte) :
    TxOf (xs ++ ys) (acceptedEvents xs ++ new) := by
  rw [TxOf, List.map_append, List.map_append, acceptedEvents_map_txByte]
  exact (List.prefix_append_right_inj _).mpr h

theorem emitAll_events_accepted {bytes : List Byte} {s t : State} (h : emitAll bytes s = (.ok, t)) :
    t.events = s.events ++ acceptedEvents bytes := by
  obtain ⟨a, n, k, -, ⟨-, rfl, ht⟩ | ⟨b, hfail, -⟩⟩ := emitAll_frame bytes s
  · rw [h] at ht
    simp [show t = _ from ht]
  · rw [h] at hfail
    cases hfail

theorem emitAll_events {bytes : List Byte} {s t : State} {r : Answer} (h : emitAll bytes s = (r, t)) :
    Appends s t (TxOf bytes) := by
  cases r with
  | ok => exact ⟨_, emitAll_events_accepted h, txOf_acceptedEvents bytes⟩
  | fail =>
    obtain ⟨a, n, k, -, ⟨hok, -⟩ | ⟨b, -, hb, ht⟩⟩ := emitAll_frame bytes s
    · rw [h] at hok
      cases hok
    · rw [h] at ht
      exact ⟨_, by simp [show t = _ from ht], txOf_failed hb⟩

theorem transmit_events {p : List Byte} {now : Nat} {s t : State} {c : Status} (h : transmit p now s = .ok (c, t)) :
    Appends s t (TxOf (frameBytes s.cfg p)) := by
  obtain ⟨-, hemit⟩ | ⟨-, u, hemit, hrec⟩ := transmit_cases h
  · exact (emitAll_events hemit :)
  · obtain ⟨-, rfl⟩ := recordSend_cases hrec
    exact (emitAll_events hemit :)

theorem sendFrame_events {p : List Byte} {now : Nat} {s t : State} {c : Status} (h : sendFrame p now s = .ok (c, t)) :
    Appends s t (TxOf (sendBytes s p)) := by
  obtain ⟨-, -, rfl⟩ | ⟨-, hs, htransmit⟩ | ⟨-, hs, hpreamble⟩ := sendFrame_cases h
  · exact .nothing rfl (txOf_nil _)
  · rw [sendBytes, if_pos hs]
    exact transmit_events htransmit
  · have hresolved : s.link.hs ≠ .pending := by
      obtain hs | hs := hs <;> simp [hs]
    rw [sendBytes, if_neg hresolved]
    obtain ⟨hemit, -⟩ | ⟨u, hemit, htransmit⟩ := hpreamble
    · exact (emitAll_events hemit).imp fun new htx => htx.append_right _
    · obtain ⟨new, hnew, htx⟩ := transmit_events htransmit
      obtain ⟨a, n, e, hu⟩ := emitAll_writes hemit
      have hcfg : u.cfg = s.cfg := by rw [hu]
      refine ⟨acceptedEvents preamble ++ new, ?_, (hcfg ▸ htx).after_accepted preamble⟩
      rw [hnew, emitAll_events_accepted hemit, List.append_assoc]

/-! ### The events of HANDLE and DRAIN (R176, R180) -/

/-- At most one notification. -/
def NotifiedOnce (new : List Event) : Prop := new = [] ∨ ∃ tag ctx o, new = [.complete tag ctx o]

/-- One notification, or the Tx events of one send, which may be none. -/
def DrainEvents (s : State) (new : List Event) : Prop :=
  (∃ tag ctx o, new = [.complete tag ctx o]) ∨ ∃ p, TxOf (sendBytes s p) new

theorem drainEvents_nil (s : State) : DrainEvents s [] := .inr ⟨[], txOf_nil _⟩

theorem NotifiedOnce.drainEvents {new : List Event} (h : NotifiedOnce new) (s : State) : DrainEvents s new := by
  obtain rfl | hone := h
  · exact drainEvents_nil s
  · exact .inl hone

theorem DrainEvents.exists_take {s : State} {new : List Event} (h : DrainEvents s new) :
    (∃ tag ctx o, new = [.complete tag ctx o]) ∨ ∃ p k, new.map txByte = ((sendBytes s p).take k).map some := by
  obtain hone | ⟨p, htx⟩ := h
  · exact .inl hone
  · exact .inr ⟨p, htx.exists_take⟩

theorem handleOutcome_events {o : HandshakeOutcome} {s t : State} (h : handleOutcome o s = .ok t) :
    Appends s t NotifiedOnce := by
  obtain ⟨-, rfl⟩ | ⟨-, slot, -, ⟨-, rfl⟩ | ⟨-, rfl⟩⟩ := handleOutcome_cases h
  · exact .nothing rfl (.inl rfl)
  · exact ⟨[.complete slot.tag slot.ctx (completionOf o)], rfl, .inr ⟨_, _, _, rfl⟩⟩
  · exact .nothing rfl (.inl rfl)

/-- The bytes of DRAIN's send go by the handshake DRAIN finds: the counted attempt and the listener leave it (R103). -/
theorem drainQueue_events {now : Nat} {s t : State} (h : drainQueue now s = .ok t) : Appends s t (DrainEvents s) := by
  obtain ⟨-, rfl⟩ | ⟨-, r, -, ⟨-, rfl⟩ | ⟨-, -, hhandle⟩ | ⟨-, hsend⟩⟩ := drainQueue_cases h
  · exact .nothing rfl (drainEvents_nil _)
  · exact .nothing rfl (drainEvents_nil _)
  · exact (handleOutcome_events hhandle).imp fun new hone => hone.drainEvents s
  · obtain ⟨slot, c, -, -, hframe⟩ := sendHead_cases hsend
    obtain ⟨new, hnew, htx⟩ := sendFrame_events hframe
    exact ⟨new, hnew, .inr ⟨_, htx⟩⟩

theorem submitEntry_events {p : List Byte} {tag ctx now : Nat} {s t : State} {c : Status}
    (h : submitEntry p tag ctx now s = .ok (c, t)) : Appends s t (DrainEvents s) := by
  obtain ⟨-, -, rfl⟩ | ⟨-, -, -, rfl⟩ | ⟨-, -, -, u, henqueue, hdrain⟩ := submitEntry_cases h
  · exact .nothing rfl (drainEvents_nil _)
  · exact .nothing rfl (drainEvents_nil _)
  · obtain ⟨old, -, -, rfl⟩ := enqueue_cases henqueue
    exact (drainQueue_events hdrain :)

/-! ### The events of FEED (R130) -/

/-- The events FEED can give: at most one notification, or the reply to a terminal byte and its delivery. -/
def FeedEvents (c : Config) (new : List Event) : Prop :=
  new = [] ∨ (∃ tag ctx o, new = [.complete tag ctx o])
    ∨ (∃ p st, new = [.tx c.ackByte .ok, .deliver p st]) ∨ new = [.tx c.ackByte .fail]
    ∨ ∃ r, new = [.tx c.nakByte r]

theorem NotifiedOnce.feedEvents {new : List Event} (h : NotifiedOnce new) (c : Config) : FeedEvents c new := by
  obtain hnone | hone := h
  · exact .inl hnone
  · exact .inr (.inl hone)

theorem emit_events {b : Byte} {s t : State} {r : Answer} (h : emit b s = (r, t)) :
    t.events = s.events ++ [.tx b r] := by
  obtain ⟨a, n, ht⟩ := emit_frame b s
  rw [h] at ht
  rw [show t = _ from ht]

theorem deliver_events {p : List Byte} {s t : State} {c : Status} (h : deliver p s = (c, t)) :
    t.events = s.events ++ [.deliver p c] := by
  obtain ⟨st, n, hdraw⟩ := drawStatus_frame s
  simp only [deliver, hdraw, Prod.mk.injEq] at h
  obtain ⟨rfl, rfl⟩ := h
  rfl

theorem handshakeByte_events {r : Handshake} {o : HandshakeOutcome} {s t : State} {c : Status}
    (h : handshakeByte r o s = .ok (c, t)) : Appends s t NotifiedOnce := by
  obtain ⟨-, ⟨-, -, hhandle⟩ | ⟨-, -, rfl⟩ | ⟨-, rfl⟩⟩ := handshakeByte_cases h
  · exact (handleOutcome_events hhandle :)
  · exact .nothing rfl (.inl rfl)
  · exact .nothing rfl (.inl rfl)

theorem takeTerminal_events {v : Byte} {s t : State} {c : Status} (h : takeTerminal v s = .ok (c, t)) :
    Appends s t (FeedEvents s.cfg) := by
  obtain ⟨-, ⟨hemit, -⟩ | ⟨u, hemit, -, hdeliver⟩⟩ | ⟨-, ⟨hemit, -⟩ | ⟨hemit, -⟩⟩ := takeTerminal_cases h
  · exact ⟨_, emit_events hemit, .inr (.inr (.inr (.inl rfl)))⟩
  · have hnew := deliver_events hdeliver
    rw [emit_events hemit, List.append_assoc, List.singleton_append] at hnew
    exact ⟨_, hnew, .inr (.inr (.inl ⟨_, _, rfl⟩))⟩
  · exact ⟨_, emit_events hemit, .inr (.inr (.inr (.inr ⟨_, rfl⟩)))⟩
  · exact ⟨_, emit_events hemit, .inr (.inr (.inr (.inr ⟨_, rfl⟩)))⟩

/-- Of the digits only a second one can end a frame (R141). -/
theorem takeDigit_events {d : Nibble} {s t : State} {c : Status} (h : takeDigit d s = .ok (c, t)) :
    Appends s t (FeedEvents s.cfg) := by
  obtain ⟨-, -, rfl⟩ | ⟨-, hbyte⟩ := takeDigit_cases h
  · exact .nothing rfl (.inl rfl)
  · unfold takeByte at hbyte
    split at hbyte
    next => cases hbyte; exact .nothing rfl (.inl rfl)
    next =>
      obtain ⟨-, ⟨-, hterminal⟩ | ⟨-, -, rfl⟩⟩ := takeData_cases hbyte
      · exact (takeTerminal_events hterminal :)
      · exact .nothing rfl (.inl rfl)

theorem feedByte_events {b : Byte} {s t : State} {c : Status} (h : feedByte b s = .ok (c, t)) :
    Appends s t (FeedEvents s.cfg) := by
  obtain ⟨-, -, rfl⟩ | ⟨-, hack⟩ | ⟨-, hnak⟩ | ⟨-, -, rfl⟩ | ⟨d, -, hdigit⟩ | ⟨-, -, rfl⟩ := feedByte_cases h
  · exact .nothing rfl (.inl rfl)
  · exact (handshakeByte_events hack).imp fun new hone => hone.feedEvents _
  · exact (handshakeByte_events hnak).imp fun new hone => hone.feedEvents _
  · exact .nothing rfl (.inl rfl)
  · exact takeDigit_events hdigit
  · exact .nothing rfl (.inl rfl)

/-! ### The events of an instruction (R210) -/

/-- The events an instruction can give; `exec_events` ties it to `exec`. -/
def EventsOf (s : State) : Instr → List Event → Prop
  | .codecInit, new | .readiness _, new | .queueInit, new | .reserved _, new => new = []
  | .send p _, new => TxOf (sendBytes s p) new
  | .resend _, new => TxOf (sendBytes s (s.link.rtBuf.take s.link.rtLen.toNat)) new
  | .submit _ _ _ _, new | .update _, new | .drain _, new => DrainEvents s new
  | .handle _, new => NotifiedOnce new
  | _, new => FeedEvents s.cfg new

theorem eventsOf_nil (s : State) (i : Instr) : EventsOf s i [] := by
  cases i with
  | codecInit | readiness | queueInit | reserved => rfl
  | send | resend => exact txOf_nil _
  | submit | update | drain => exact drainEvents_nil s
  | _ => exact .inl rfl

theorem eventsOf_of_isFeed {i : Instr} (hi : isFeed i = true) (s : State) : EventsOf s i = FeedEvents s.cfg := by
  cases i with
  | codecInit | readiness | send | resend | queueInit | submit | update | reserved | handle | drain => nomatch hi
  | _ => rfl

/-- A refused command gives no event, and one that ran gives those of its body. -/
theorem Appends.of_command {i : Instr} {adm : Bool} {body : State → Except Fault (Response × State)} {s t : State}
    (h : command adm body s = .next t) (hbody : ∀ r u, body s = .ok (r, u) → Appends s u (EventsOf s i)) :
    Appends s t (EventsOf s i) := by
  obtain ⟨-, rfl⟩ | ⟨-, r, u, hu, rfl⟩ := command_next h
  · exact .nothing rfl (eventsOf_nil s i)
  · exact (hbody r u hu :)

/-- A command whose body answers a status. -/
theorem Appends.of_status {i : Instr} {adm : Bool} {body : State → Except Fault (Status × State)} {s t : State}
    (h : command adm (fun s => withStatus (body s)) s = .next t)
    (hbody : ∀ c u, body s = .ok (c, u) → Appends s u (EventsOf s i)) : Appends s t (EventsOf s i) := by
  refine .of_command h fun r u hu => ?_
  obtain ⟨c, hc, -⟩ := withStatus_ok hu
  exact hbody c u hc

theorem exec_feed_events {i : Instr} {s t : State} (hi : isFeed i = true) (h : exec i s = .next t) :
    Appends s t (EventsOf s i) := by
  obtain ⟨b, hb⟩ := exec_of_isFeed hi s
  refine .of_status (hb.symm.trans h) fun c u hu => ?_
  rw [eventsOf_of_isFeed hi]
  exact feedByte_events hu

theorem exec_events {i : Instr} {s t : State} (h : exec i s = .next t) : Appends s t (EventsOf s i) := by
  have hwrites := exec_writes h
  cases i with
  | codecInit =>
    obtain ⟨-, -, hevents⟩ := hwrites.codecInit_frame
    exact .nothing hevents rfl
  | queueInit =>
    obtain ⟨-, -, -, hevents⟩ := hwrites.queueInit_frame
    exact .nothing hevents rfl
  | readiness now =>
    obtain ⟨-, -, hevents, -⟩ := hwrites.readiness_frame
    exact .nothing hevents rfl
  | reserved header =>
    obtain ⟨-, -, hevents, -⟩ := hwrites.reserved_frame
    exact .nothing hevents rfl
  | send p now => exact .of_status (show execSend p now s = .next t from h) fun c u => sendFrame_events
  | resend now =>
    exact .of_status (show execResend now s = .next t from h) fun c u hu => sendFrame_events (resendFrame_cases hu).2
  | submit p tag ctx now =>
    exact .of_status (show execSubmit p tag ctx now s = .next t from h) fun c u => submitEntry_events
  | update now =>
    exact .of_command (show execUpdate now s = .next t from h) fun r u hu => drainQueue_events (thenOk_ok hu).1
  | handle o => exact handleOutcome_events (runProcedure_next h)
  | drain now => exact drainQueue_events (runProcedure_next h)
  | _ => exact exec_feed_events rfl h

/-- Settles O58: each clause reads off the events of its instruction. -/
theorem eventsOfOneCommand : Obligations.EventsOfOneCommand := by
  intro i s t h
  obtain ⟨new, hnew, hof⟩ := exec_events h
  refine ⟨new, hnew, fun hi => ?_, ?_, ?_, ?_⟩
  · rw [eventsOf_of_isFeed hi] at hof
    exact hof
  · rintro p now rfl
    exact TxOf.exists_take hof
  · rintro now rfl
    exact TxOf.exists_take hof
  · rintro p tag ctx now (rfl | rfl | rfl)
    all_goals exact DrainEvents.exists_take hof

end Sys2Proof.Machine
end

section
/-! PROOFS. Power-on and the order of the initialisations (R230 to R232): the invariants before anything ran, and the
commands that are refused until then. -/

namespace Sys2Proof.Machine

/-! ### Power-on (R230) -/

/-- The arrays have their sizes and the numbers their widths at power-on; the rest of the invariant speaks
of an initialised codec or queue. -/
theorem inv_powerOn (c : Config) : Inv (State.powerOn c) := by
  have hslot : ∀ x ∈ (State.powerOn c).queue.slots, x = Slot.powerOn c := fun x hx => List.eq_of_mem_replicate hx
  refine ⟨⟨List.length_replicate, List.length_replicate, List.length_replicate, fun x hx => ?_⟩,
    ⟨Nat.two_pow_pos _, Nat.two_pow_pos _, Nat.two_pow_pos _, fun x hx => ?_⟩, nofun, nofun⟩
  · rw [hslot x hx]
    exact List.length_replicate
  · rw [hslot x hx]
    exact ⟨Nat.two_pow_pos _, Nat.two_pow_pos _, Nat.two_pow_pos _⟩

theorem checksumInv_powerOn (c : Config) : ChecksumInv (State.powerOn c) := nofun

/-- Settles O1: the marks and the logs are those `State.powerOn` gives. -/
theorem powerOnMeetsInvariants : Obligations.PowerOnMeetsInvariants :=
  ⟨rfl, fun c => ⟨rfl, rfl, rfl, rfl, rfl, inv_powerOn c, checksumInv_powerOn c⟩⟩

/-! ### Commands before the initialisations (R231, R232) -/

/-- Only CODEC_INIT is admitted before the codec is initialised (R217 (b)). -/
theorem admission_of_not_codecInit {s : State} {i : Instr} (h : s.codecInit = false) (hi : i ≠ .codecInit) :
    admission s i = false := by
  unfold admission
  split
  · exact absurd rfl hi
  · simp [admitsQueue, h]
  · simp [admitsQueue, h]
  · rfl
  · simp [admitsCodec, h]

theorem admitsQueue_of_not_queueInit {s : State} (h : s.queueInit = false) : admitsQueue s = false := by
  simp [admitsQueue, h]

/-- Settles O19: no such command is admitted. -/
theorem commandsBeforeCodecInitRefused : Obligations.CommandsBeforeCodecInitRefused :=
  fun _ _ hcommand hi h => exec_refused hcommand (admission_of_not_codecInit h hi)

/-- Settles O20: SUBMIT and UPDATE need the queue's mark, QUEUE_INIT the codec's. -/
theorem queueCommandsBeforeQueueInitRefused : Obligations.QueueCommandsBeforeQueueInitRefused := by
  intro s
  refine ⟨fun hqueue => ⟨fun p tag ctx now => ?_, fun now => ?_⟩, fun hcodec => ?_⟩
  · exact exec_refused rfl (admitsQueue_of_not_queueInit hqueue)
  · exact exec_refused rfl (admitsQueue_of_not_queueInit hqueue)
  · exact exec_refused rfl (admission_of_not_codecInit hcodec nofun)

end Sys2Proof.Machine
end

section
/-! PROOFS. A DRAIN whose send fails (R240), and the bound on what one command observes (R245). -/

namespace Sys2Proof.Machine

/-! ### DRAIN's send fails (R240) -/

/-- What a send puts on the wire is left alone by the counted attempt and the listener (R103). -/
theorem sendBytes_attach_countAttempt (x : Slot) (s : State) (p : List Byte) :
    sendBytes (attach (countAttempt x s)) p = sendBytes s p := rfl

theorem preambleLength_attach_countAttempt (x : Slot) (s : State) :
    preambleLength (attach (countAttempt x s)) = preambleLength s := rfl

/-- DRAIN's send fails at byte n: the attempt is counted and the queue listens before the SEND that stops there, and the
handshake is pending where the preamble was out (R104, R107, R179). -/
theorem drainQueue_failsAt {s : State} {now n : Nat} {x : Slot} {b : Byte} (hne : s.queue.head ≠ s.queue.tail)
    (hx : s.queue.slots[s.queue.head]? = some x) (hstored : x.len.toNat ≤ x.data.length)
    (hfits : x.len.toNat ≤ s.cfg.maxPayload) (hdue : SendDue s now) (hbyte : (sendBytes s x.payload)[n]? = some b)
    (hfails : FailsAt s n) :
    drainQueue now s = .ok { attach (countAttempt x s) with
      events := s.events ++ acceptedEvents ((sendBytes s x.payload).take n) ++ [.tx b .fail]
      answers := s.answers.drop (n + 1)
      link := { s.link with hs := if n < preambleLength s then s.link.hs else .pending, listener := true } } := by
  have hpayload : x.payload.length ≤ s.cfg.maxPayload := (List.length_take_le _ _).trans hfits
  obtain ⟨hn, -⟩ := List.getElem?_eq_some_iff.mp hbyte
  have hsend := sendFrame_failsAt (s := attach (countAttempt x s)) (now := now) hdue.hs_ne_unused hpayload hn hfails
  rw [sendBytes_attach_countAttempt, preambleLength_attach_countAttempt, afterFailed_of_getElem? _ hbyte] at hsend
  rw [drainQueue_sends hne hdue, sendHead_of_sendFrame hx hstored hsend]
  split_ifs
  · rfl
  · rfl

/-- Settles O50: DRAIN ends in its failed send, and UPDATE answers OK after it. -/
theorem preambleFailureCountsAttempt : Obligations.PreambleFailureCountsAttempt := by
  rintro s now n x p b hne hx hstored hfits rfl hdue hbyte hfails
  have hdrain := drainQueue_failsAt hne hx hstored hfits hdue hbyte hfails
  exact ⟨_, rfl, exec_drain hdrain, fun hadm => exec_update hadm hdrain⟩

/-! ### The events of one command are bounded (R245) -/

/-- SOF_BYTE, then two digits for the length field, for each payload byte and for the checksum (R73). -/
theorem frameBytes_length (c : Config) (p : List Byte) : (frameBytes c p).length = 2 * p.length + 5 := by
  rw [frameBytes_eq, List.length_cons, flatMap_hexPair_length]
  simp [frameFields]
  omega

/-- A send puts at most 2 bytes of preamble before its frame (R76). -/
theorem sendBytes_length_le (s : State) (p : List Byte) : (sendBytes s p).length ≤ 2 * p.length + 7 := by
  obtain ⟨front, rfl | rfl, hbytes⟩ := sendBytes_eq s p
  · simp [hbytes, frameBytes_length]
  · simp [hbytes, frameBytes_length, preamble]

theorem TxOf.length_le {bytes : List Byte} {new : List Event} (h : TxOf bytes new) : new.length ≤ bytes.length := by
  simpa using List.IsPrefix.length_le h

/-- No more events than R245 allows one command. -/
def Bounded (c : Config) (new : List Event) : Prop := new.length ≤ 2 * c.maxPayload + 7

theorem bounded_nil (c : Config) : Bounded c [] := Nat.zero_le _

theorem NotifiedOnce.bounded {new : List Event} (h : NotifiedOnce new) (c : Config) : Bounded c new := by
  obtain rfl | ⟨tag, ctx, o, rfl⟩ := h
  · exact bounded_nil c
  · simp [Bounded]

theorem FeedEvents.bounded {c : Config} {new : List Event} (h : FeedEvents c new) : Bounded c new := by
  obtain rfl | ⟨tag, ctx, o, rfl⟩ | ⟨p, st, rfl⟩ | rfl | ⟨r, rfl⟩ := h
  all_goals simp [Bounded]

/-- A payload that is too large is not sent at all (R108); any other frame is within the bound. -/
theorem sendFrame_bounded {p : List Byte} {now : Nat} {s t : State} {c : Status} (h : sendFrame p now s = .ok (c, t)) :
    Appends s t (Bounded s.cfg) := by
  by_cases hsize : s.cfg.maxPayload < p.length
  · rw [sendFrame_oversized now hsize] at h
    cases h
    exact .nothing rfl (bounded_nil _)
  · refine (sendFrame_events h).imp fun new htx => htx.length_le.trans ((sendBytes_length_le s p).trans ?_)
    omega

theorem drainQueue_bounded {now : Nat} {s t : State} (h : drainQueue now s = .ok t) :
    Appends s t (Bounded s.cfg) := by
  obtain ⟨-, rfl⟩ | ⟨-, r, -, ⟨-, rfl⟩ | ⟨-, -, hhandle⟩ | ⟨-, hsend⟩⟩ := drainQueue_cases h
  · exact .nothing rfl (bounded_nil _)
  · exact .nothing rfl (bounded_nil _)
  · exact (handleOutcome_events hhandle).imp fun new hone => hone.bounded _
  · obtain ⟨slot, c, -, -, hframe⟩ := sendHead_cases hsend
    exact (sendFrame_bounded hframe :)

theorem submitEntry_bounded {p : List Byte} {tag ctx now : Nat} {s t : State} {c : Status}
    (h : submitEntry p tag ctx now s = .ok (c, t)) : Appends s t (Bounded s.cfg) := by
  obtain ⟨-, -, rfl⟩ | ⟨-, -, -, rfl⟩ | ⟨-, -, -, u, henqueue, hdrain⟩ := submitEntry_cases h
  · exact .nothing rfl (bounded_nil _)
  · exact .nothing rfl (bounded_nil _)
  · obtain ⟨old, -, -, rfl⟩ := enqueue_cases henqueue
    exact (drainQueue_bounded hdrain :)

/-- A command is within the bound where its body is. -/
theorem bounded_of_command {adm : Bool} {body : State → Except Fault (Response × State)} {s t : State}
    (h : command adm body s = .next t) (hbody : ∀ r u, body s = .ok (r, u) → Appends s u (Bounded s.cfg)) :
    Appends s t (Bounded s.cfg) := by
  obtain ⟨-, rfl⟩ | ⟨-, r, u, hu, rfl⟩ := command_next h
  · exact .nothing rfl (bounded_nil _)
  · exact (hbody r u hu :)

theorem bounded_of_status {adm : Bool} {body : State → Except Fault (Status × State)} {s t : State}
    (h : command adm (fun s => withStatus (body s)) s = .next t)
    (hbody : ∀ c u, body s = .ok (c, u) → Appends s u (Bounded s.cfg)) : Appends s t (Bounded s.cfg) := by
  refine bounded_of_command h fun r u hu => ?_
  obtain ⟨c, hc, -⟩ := withStatus_ok hu
  exact hbody c u hc

/-- What a command with a send in it can give is bounded by its body; the others give at most 2 events. -/
theorem exec_bounded {i : Instr} {s t : State} (h : exec i s = .next t) : Appends s t (Bounded s.cfg) := by
  have hevents := exec_events h
  cases i with
  | codecInit | readiness | queueInit | reserved => exact hevents.imp fun new hnil => hnil ▸ bounded_nil _
  | send p now => exact bounded_of_status (show execSend p now s = .next t from h) fun c u => sendFrame_bounded
  | resend now =>
    exact bounded_of_status (show execResend now s = .next t from h) fun c u hu =>
      sendFrame_bounded (resendFrame_cases hu).2
  | submit p tag ctx now =>
    exact bounded_of_status (show execSubmit p tag ctx now s = .next t from h) fun c u => submitEntry_bounded
  | update now =>
    exact bounded_of_command (show execUpdate now s = .next t from h) fun r u hu => drainQueue_bounded (thenOk_ok hu).1
  | drain now => exact drainQueue_bounded (runProcedure_next h)
  | handle o => exact hevents.imp fun new hone => NotifiedOnce.bounded hone _
  | _ => exact hevents.imp fun new hfeed => FeedEvents.bounded hfeed

/-! ### At most one response (R82, R245) -/

/-- The two internal procedures give no response (R82). -/
theorem ExecWrites.responses_eq_of_procedure {i : Instr} {s t : State} (h : ExecWrites s i t)
    (hi : isCommand i = false) : t.responses = s.responses := by
  cases i with
  | handle o =>
    cases h with
    | refused | handle => rfl
    | feed hfeed => nomatch hfeed
  | drain now =>
    cases h with
    | refused => rfl
    | drain hwrites => exact hwrites.responses_eq
    | feed hfeed => nomatch hfeed
  | _ => nomatch hi

theorem ExecWrites.responses_grow {i : Instr} {s t : State} (h : ExecWrites s i t) :
    ∃ given, t.responses = s.responses ++ given ∧ given.length ≤ 1 := by
  have hnone : t.responses = s.responses → ∃ given, t.responses = s.responses ++ given ∧ given.length ≤ 1 :=
    fun heq => ⟨[], heq.trans (List.append_nil _).symm, Nat.zero_le 1⟩
  cases hi : isCommand i with
  | false => exact hnone (h.responses_eq_of_procedure hi)
  | true =>
    obtain rfl | ⟨r, hr⟩ := h.answers hi
    · exact hnone rfl
    · exact ⟨[r], hr, Nat.le_refl 1⟩

/-- Settles O59: a send is the longest thing a command does. -/
theorem everyCommandIsBounded : Obligations.EveryCommandIsBounded :=
  fun _ _ _ h => ⟨exec_bounded h, (exec_writes h).responses_grow⟩

end Sys2Proof.Machine
end
